-- ==== Sys2Proof/Word.lean ====
section
/-! DEFINITION. The word type, field elements, vectors of three elements and 3x3 matrices
(00_scope.md R10, R12 to R14). -/

namespace Sys2Proof

/-- A 32-bit word of the register window, and a command word (R10, R60). -/
abbrev Word := BitVec 32

/-- A field element as stored: a raw pattern, read as a natural number (R13).
Its width W depends on the open parameter P, so the bound `< 2 ^ W` is part of `Memory.wf`. -/
abbrev Elem := Nat

/-- A vector register number, V0 to V15 (R22, R91). -/
abbrev VReg := Fin 16

/-- An index of one element of a vector, a row or a column of a matrix (R14). -/
abbrev Lane := Fin 3

/-- A vector of three elements, `v = (v[0], v[1], v[2])` (R14). -/
structure Vec where
  e0 : Elem
  e1 : Elem
  e2 : Elem
deriving DecidableEq, Repr

/-- `v[j]` (R14). -/
def Vec.get (v : Vec) : Lane → Elem
  | 0 => v.e0
  | 1 => v.e1
  | 2 => v.e2

/-- The vector whose element `j` is `f j`. -/
def Vec.ofFn (f : Lane → Elem) : Vec := ⟨f 0, f 1, f 2⟩

/-- The vector `v` with element `j` replaced by `e`. -/
def Vec.set (v : Vec) (j : Lane) (e : Elem) : Vec := Vec.ofFn fun l => if l = j then e else v.get l

/-- The zero vector, the reset value of every vector register and table row (R41). -/
def Vec.zero : Vec := ⟨0, 0, 0⟩

/-- A 3x3 matrix as its three rows (R14). -/
structure Mat where
  r0 : Vec
  r1 : Vec
  r2 : Vec
deriving DecidableEq, Repr

/-- Row `i` of a matrix (R14). -/
def Mat.row (a : Mat) : Lane → Vec
  | 0 => a.r0
  | 1 => a.r1
  | 2 => a.r2

/-- `A[i][j]`: row i, column j (R14). -/
def Mat.get (a : Mat) (i j : Lane) : Elem := (a.row i).get j

/-- The matrix whose entry `(i, j)` is `f i j`. -/
def Mat.ofFn (f : Lane → Lane → Elem) : Mat := ⟨Vec.ofFn (f 0), Vec.ofFn (f 1), Vec.ofFn (f 2)⟩

/-- The zero matrix, the reset value of M and MI (R41). -/
def Mat.zero : Mat := ⟨Vec.zero, Vec.zero, Vec.zero⟩

end Sys2Proof
end

