-- ==== Sys2Proof/Config.lean ====
section
/-! DEFINITION. What an implementation of RESCUE-BLK fixes: the modulus P, the table depth RMAX and the
inverse S-box exponent EINV (00_scope.md R6, R7, R9). -/

namespace Sys2Proof

/-- The implementation parameters (R6, R7, R9). EINV is derived from P by R7 and R171; it stands here
as a number of its own, because R174 has the block check its datapath against a wrong EINV. -/
structure Params where
  /-- The field modulus P (R6). -/
  p : Nat
  /-- The table depth RMAX (R9). -/
  rmax : Nat
  /-- The inverse S-box exponent EINV (R7, R171). -/
  einv : Nat
deriving DecidableEq, Repr

/-- `W = bitlength(P)`, the stored width of an element (R7). -/
def Params.width (c : Params) : Nat := c.p.log2 + 1

/-- `L = ceil(W / 32)`, the limbs of one element (R7). -/
def Params.limbs (c : Params) : Nat := (c.width + 31) / 32

/-- What the spec requires of the parameters: P is prime, at least 7, not 1 mod 5 and of at most 512
bits (R6); RMAX lies in 1 to 256 (R9); EINV inverts 5 modulo P - 1 and lies in 1 to P - 2 (R7). -/
abbrev Params.Valid (c : Params) : Prop :=
  c.p.Prime ∧ 7 ≤ c.p ∧ c.p % 5 ≠ 1 ∧ c.width ≤ 512 ∧
  1 ≤ c.rmax ∧ c.rmax ≤ 256 ∧
  1 ≤ c.einv ∧ c.einv ≤ c.p - 2 ∧ 5 * c.einv % (c.p - 1) = 1

/-- Parameters that meet the spec's requirements. -/
abbrev ValidParams := { c : Params // c.Valid }

/-- Parameter set T1 of 95_test_vectors.md section 2: P = 23, RMAX = 8, EINV = 9.
Used to show that valid parameters exist, and by the tests; no meaning uses it. -/
def Params.t1 : Params := { p := 23, rmax := 8, einv := 9 }

theorem Params.t1_valid : Params.t1.Valid := by
  refine ⟨?_, ?_⟩
  · show Nat.Prime 23
    norm_num
  · decide

/-- The parameters of the block after reset: some valid choice, and nothing says which
(DESIGN CHOICE, entry 1; safe). The argument only says that a valid choice exists. -/
opaque Config.chip [Inhabited ValidParams] : ValidParams

/-- The parameters of the block after reset, as plain data. -/
def Config.params : Params := (@Config.chip ⟨⟨Params.t1, Params.t1_valid⟩⟩).1

theorem Config.params_valid : Config.params.Valid := (@Config.chip ⟨⟨Params.t1, Params.t1_valid⟩⟩).2

/-- The constant of the ID register, ASCII "RESC" (10_state.md R31). -/
def Config.idWord : Word := 0x52455343#32

end Sys2Proof
end

