-- ==== Sys2Proof/Syntax.lean ====
section
/-! DEFINITION. The twenty commands (30_encoding.md R94, R100), one constructor for each row of
spec/opcode_table.json, operands in the order of R94's syntax column. -/

namespace Sys2Proof

/-- A command. A vector register operand is a number below 16 by its type; the round index is a natural
number, as the checks of the rules compare it, and `Instr.WellFormed` bounds it by its field (entry 19). -/
inductive Instr where
  /-- R125 -/
  | nop
  /-- R126 -/
  | vadd (rd rs1 rs2 : VReg)
  /-- R127 -/
  | vsub (rd rs1 rs2 : VReg)
  /-- R128 -/
  | vmul (rd rs1 rs2 : VReg)
  /-- R129 -/
  | vmov (rd rs1 : VReg)
  /-- R130 -/
  | vdot (rd rs1 rs2 : VReg)
  /-- R175 -/
  | sbox (rd rs1 : VReg)
  /-- R176 -/
  | isbox (rd rs1 : VReg)
  /-- R156 -/
  | mds (rd rs1 : VReg)
  /-- R157 -/
  | imds (rd rs1 : VReg)
  /-- R131 -/
  | addrc (rd rs1 : VReg) (idx : Nat)
  /-- R132 -/
  | addsk (rd rs1 : VReg) (idx : Nat)
  /-- R133 -/
  | subsk (rd rs1 : VReg) (idx : Nat)
  /-- R152 -/
  | mdsgen (rs1 rs2 : VReg)
  /-- R191 -/
  | krnd (rd rs1 : VReg) (idx : Nat)
  /-- R193 -/
  | ernd (rd rs1 : VReg) (idx : Nat)
  /-- R194 -/
  | drnd (rd rs1 : VReg) (idx : Nat)
  /-- R192 -/
  | ksched (rs1 : VReg)
  /-- R195 -/
  | enc (rd rs1 rs2 : VReg)
  /-- R196 -/
  | dec (rd rs1 rs2 : VReg)
deriving DecidableEq, Repr

/-- The mnemonic of R94, as spec/opcode_table.json spells it. -/
def Instr.mnemonic : Instr → String
  | .nop => "NOP"
  | .vadd _ _ _ => "VADD"
  | .vsub _ _ _ => "VSUB"
  | .vmul _ _ _ => "VMUL"
  | .vmov _ _ => "VMOV"
  | .vdot _ _ _ => "VDOT"
  | .sbox _ _ => "SBOX"
  | .isbox _ _ => "ISBOX"
  | .mds _ _ => "MDS"
  | .imds _ _ => "IMDS"
  | .addrc _ _ _ => "ADDRC"
  | .addsk _ _ _ => "ADDSK"
  | .subsk _ _ _ => "SUBSK"
  | .mdsgen _ _ => "MDSGEN"
  | .krnd _ _ _ => "KRND"
  | .ernd _ _ _ => "ERND"
  | .drnd _ _ _ => "DRND"
  | .ksched _ => "KSCHED"
  | .enc _ _ _ => "ENC"
  | .dec _ _ _ => "DEC"

/-- The IDX operand; a command without one has 0 in that field (R93). -/
def Instr.idx : Instr → Nat
  | .nop => 0
  | .vadd _ _ _ => 0
  | .vsub _ _ _ => 0
  | .vmul _ _ _ => 0
  | .vmov _ _ => 0
  | .vdot _ _ _ => 0
  | .sbox _ _ => 0
  | .isbox _ _ => 0
  | .mds _ _ => 0
  | .imds _ _ => 0
  | .addrc _ _ i => i
  | .addsk _ _ i => i
  | .subsk _ _ i => i
  | .mdsgen _ _ => 0
  | .krnd _ _ i => i
  | .ernd _ _ i => i
  | .drnd _ _ i => i
  | .ksched _ => 0
  | .enc _ _ _ => 0
  | .dec _ _ _ => 0

end Sys2Proof
end

