-- ==== Sys2Proof/WellFormed.lean ====
section
/-! DEFINITION. Which commands have a word: the round index fits its 8-bit field (30_encoding.md R91).
Register numbers are below 16 by their type. Whether an index is legal for a command depends on
CFG.ROUNDS and is the command's own check (R100), not a matter of form. -/

namespace Sys2Proof

/-- The round index fits the 8 bits of IDX (R90, R91). -/
abbrev Instr.WellFormed (i : Instr) : Prop := i.idx < 256

end Sys2Proof
end

