-- ==== Sys2Proof/Decode.lean ====
section
/-! DEFINITION. The decoder, the encoder, the opcode table as masks and patterns, and the assembler
notation (30_encoding.md R90 to R102). -/

namespace Sys2Proof

/-- Why a command word is ILLEGAL (R101); all three complete with the same code. -/
inductive Reject where
  /-- RSV is not 0 (R92). -/
  | reservedBits
  /-- The opcode is not in R94 (R95). -/
  | reservedOpcode
  /-- A field the command does not use is not 0 (R93). -/
  | unusedField
deriving DecidableEq, Repr

/-- OPC, bits 7:0 (R90). -/
def opcField (w : Word) : BitVec 8 := w.extractLsb' 0 8
/-- RD, bits 11:8 (R90). -/
def rdField (w : Word) : BitVec 4 := w.extractLsb' 8 4
/-- RS1, bits 15:12 (R90). -/
def rs1Field (w : Word) : BitVec 4 := w.extractLsb' 12 4
/-- RS2, bits 19:16 (R90). -/
def rs2Field (w : Word) : BitVec 4 := w.extractLsb' 16 4
/-- IDX, bits 27:20 (R90). -/
def idxField (w : Word) : BitVec 8 := w.extractLsb' 20 8
/-- RSV, bits 31:28 (R90). -/
def rsvField (w : Word) : BitVec 4 := w.extractLsb' 28 4

/-- A register field as a register number, unsigned (R91). -/
def vreg (f : BitVec 4) : VReg := f.toFin

/-- A command whose unused fields must be 0 (R93). -/
def whenUnusedZero (zero : Bool) (i : Instr) : Except Reject Instr :=
  if zero then .ok i else .error .unusedField

/-- The command a word stands for, or why it is ILLEGAL, checked in R101's order. -/
def decode (w : Word) : Except Reject Instr :=
  let rd := vreg (rdField w)
  let rs1 := vreg (rs1Field w)
  let rs2 := vreg (rs2Field w)
  let idx := (idxField w).toNat
  let noRd := rdField w == 0
  let noRs1 := rs1Field w == 0
  let noRs2 := rs2Field w == 0
  let noIdx := idxField w == 0
  if rsvField w ≠ 0 then .error .reservedBits
  else match (opcField w).toNat with
    | 0x00 => whenUnusedZero (noRd && noRs1 && noRs2 && noIdx) .nop
    | 0x01 => whenUnusedZero noIdx (.vadd rd rs1 rs2)
    | 0x02 => whenUnusedZero noIdx (.vsub rd rs1 rs2)
    | 0x03 => whenUnusedZero noIdx (.vmul rd rs1 rs2)
    | 0x04 => whenUnusedZero (noRs2 && noIdx) (.vmov rd rs1)
    | 0x05 => whenUnusedZero noIdx (.vdot rd rs1 rs2)
    | 0x08 => whenUnusedZero (noRs2 && noIdx) (.sbox rd rs1)
    | 0x09 => whenUnusedZero (noRs2 && noIdx) (.isbox rd rs1)
    | 0x0C => whenUnusedZero (noRs2 && noIdx) (.mds rd rs1)
    | 0x0D => whenUnusedZero (noRs2 && noIdx) (.imds rd rs1)
    | 0x10 => whenUnusedZero noRs2 (.addrc rd rs1 idx)
    | 0x11 => whenUnusedZero noRs2 (.addsk rd rs1 idx)
    | 0x12 => whenUnusedZero noRs2 (.subsk rd rs1 idx)
    | 0x18 => whenUnusedZero (noRd && noIdx) (.mdsgen rs1 rs2)
    | 0x20 => whenUnusedZero noRs2 (.krnd rd rs1 idx)
    | 0x21 => whenUnusedZero noRs2 (.ernd rd rs1 idx)
    | 0x22 => whenUnusedZero noRs2 (.drnd rd rs1 idx)
    | 0x28 => whenUnusedZero (noRd && noRs2 && noIdx) (.ksched rs1)
    | 0x29 => whenUnusedZero noIdx (.enc rd rs1 rs2)
    | 0x2A => whenUnusedZero noIdx (.dec rd rs1 rs2)
    | _ => .error .reservedOpcode

/-- `word = {RSV, IDX, RS2, RS1, RD, OPC}` with RSV = 0 (R90, R92). -/
def packWord (opc : BitVec 8) (rd rs1 rs2 : VReg) (idx : Nat) : Word :=
  0#4 ++ BitVec.ofNat 8 idx ++ BitVec.ofFin (w := 4) rs2 ++ BitVec.ofFin (w := 4) rs1 ++
    BitVec.ofFin (w := 4) rd ++ opc

/-- The word of a command (R90, R94, R100). -/
def encode : Instr → Word
  | .nop => packWord 0x00#8 0 0 0 0
  | .vadd rd rs1 rs2 => packWord 0x01#8 rd rs1 rs2 0
  | .vsub rd rs1 rs2 => packWord 0x02#8 rd rs1 rs2 0
  | .vmul rd rs1 rs2 => packWord 0x03#8 rd rs1 rs2 0
  | .vmov rd rs1 => packWord 0x04#8 rd rs1 0 0
  | .vdot rd rs1 rs2 => packWord 0x05#8 rd rs1 rs2 0
  | .sbox rd rs1 => packWord 0x08#8 rd rs1 0 0
  | .isbox rd rs1 => packWord 0x09#8 rd rs1 0 0
  | .mds rd rs1 => packWord 0x0C#8 rd rs1 0 0
  | .imds rd rs1 => packWord 0x0D#8 rd rs1 0 0
  | .addrc rd rs1 i => packWord 0x10#8 rd rs1 0 i
  | .addsk rd rs1 i => packWord 0x11#8 rd rs1 0 i
  | .subsk rd rs1 i => packWord 0x12#8 rd rs1 0 i
  | .mdsgen rs1 rs2 => packWord 0x18#8 0 rs1 rs2 0
  | .krnd rd rs1 i => packWord 0x20#8 rd rs1 0 i
  | .ernd rd rs1 i => packWord 0x21#8 rd rs1 0 i
  | .drnd rd rs1 i => packWord 0x22#8 rd rs1 0 i
  | .ksched rs1 => packWord 0x28#8 0 rs1 0 0
  | .enc rd rs1 rs2 => packWord 0x29#8 rd rs1 rs2 0
  | .dec rd rs1 rs2 => packWord 0x2A#8 rd rs1 rs2 0

/-- A row of the opcode table: the word matches when `w &&& mask = pattern` (R101). -/
structure OpcodeRow where
  name : String
  pattern : Word
  mask : Word
deriving DecidableEq, Repr

/-- The opcode table, row for row as spec/opcode_table.json has it. -/
def opcodeTable : List OpcodeRow :=
  [ ⟨"NOP", 0x00000000#32, 0xFFFFFFFF#32⟩, ⟨"VADD", 0x00000001#32, 0xFFF000FF#32⟩,
    ⟨"VSUB", 0x00000002#32, 0xFFF000FF#32⟩, ⟨"VMUL", 0x00000003#32, 0xFFF000FF#32⟩,
    ⟨"VMOV", 0x00000004#32, 0xFFFF00FF#32⟩, ⟨"VDOT", 0x00000005#32, 0xFFF000FF#32⟩,
    ⟨"SBOX", 0x00000008#32, 0xFFFF00FF#32⟩, ⟨"ISBOX", 0x00000009#32, 0xFFFF00FF#32⟩,
    ⟨"MDS", 0x0000000C#32, 0xFFFF00FF#32⟩, ⟨"IMDS", 0x0000000D#32, 0xFFFF00FF#32⟩,
    ⟨"ADDRC", 0x00000010#32, 0xF00F00FF#32⟩, ⟨"ADDSK", 0x00000011#32, 0xF00F00FF#32⟩,
    ⟨"SUBSK", 0x00000012#32, 0xF00F00FF#32⟩, ⟨"MDSGEN", 0x00000018#32, 0xFFF00FFF#32⟩,
    ⟨"KRND", 0x00000020#32, 0xF00F00FF#32⟩, ⟨"ERND", 0x00000021#32, 0xF00F00FF#32⟩,
    ⟨"DRND", 0x00000022#32, 0xF00F00FF#32⟩, ⟨"KSCHED", 0x00000028#32, 0xFFFF0FFF#32⟩,
    ⟨"ENC", 0x00000029#32, 0xFFF000FF#32⟩, ⟨"DEC", 0x0000002A#32, 0xFFF000FF#32⟩ ]

/-- The low `nbits` bits of `w` as a command word; every bit above them is 0 (entry 18). -/
def tableWord (nbits w : Nat) : Word := BitVec.ofNat 32 (w % 2 ^ nbits)

/-- The command the decoder reads from a word given in the opcode table's bit numbering. The command
word is one 32-bit little-endian word (R62, R97), so the numberings agree. -/
def decodeTableWord (nbits w : Nat) : Option Instr :=
  match decode (tableWord nbits w) with
  | .ok i => some i
  | .error _ => none

/-- A vector register in assembler notation, `v0` to `v15` (R102). -/
def regText (r : VReg) : String := "v" ++ toString r.val

/-- The operands of a command, destination first (R94, R102). -/
def operandText : Instr → List String
  | .nop => []
  | .vadd rd rs1 rs2 => [regText rd, regText rs1, regText rs2]
  | .vsub rd rs1 rs2 => [regText rd, regText rs1, regText rs2]
  | .vmul rd rs1 rs2 => [regText rd, regText rs1, regText rs2]
  | .vmov rd rs1 => [regText rd, regText rs1]
  | .vdot rd rs1 rs2 => [regText rd, regText rs1, regText rs2]
  | .sbox rd rs1 => [regText rd, regText rs1]
  | .isbox rd rs1 => [regText rd, regText rs1]
  | .mds rd rs1 => [regText rd, regText rs1]
  | .imds rd rs1 => [regText rd, regText rs1]
  | .addrc rd rs1 i => [regText rd, regText rs1, "#" ++ toString i]
  | .addsk rd rs1 i => [regText rd, regText rs1, "#" ++ toString i]
  | .subsk rd rs1 i => [regText rd, regText rs1, "#" ++ toString i]
  | .mdsgen rs1 rs2 => [regText rs1, regText rs2]
  | .krnd rd rs1 i => [regText rd, regText rs1, "#" ++ toString i]
  | .ernd rd rs1 i => [regText rd, regText rs1, "#" ++ toString i]
  | .drnd rd rs1 i => [regText rd, regText rs1, "#" ++ toString i]
  | .ksched rs1 => [regText rs1]
  | .enc rd rs1 rs2 => [regText rd, regText rs1, regText rs2]
  | .dec rd rs1 rs2 => [regText rd, regText rs1, regText rs2]

/-- A command in assembler notation (R102), the round index in decimal. -/
def asmText (i : Instr) : String :=
  match operandText i with
  | [] => i.mnemonic
  | ops => i.mnemonic ++ " " ++ String.intercalate ", " ops

end Sys2Proof
end

