-- ==== Sys2Proof/Machine/State.lean ====
section
/-! DEFINITION. The state record of RESCUE-BLK (10_state.md R20 to R41), the moves of its agents, and the
state after reset. -/

namespace Sys2Proof.Machine

/-- The result codes of 60_exceptions.md R242; `ErrCode.code` gives their numbers. -/
inductive ErrCode where
  | illegal
  | noncanonical
  | noMds
  | noSubkeys
  | roundRange
  | cauchyCollision
  | singular
  | constraint
  | locked
deriving DecidableEq, Repr

/-- The state a command reads as operands: what R40 calls the operand state. -/
structure Regs where
  /-- V0 to V15 (R22). -/
  v : Vector Vec 16
  /-- The round-constant table RC, RMAX rows (R24). -/
  rc : List Vec
  /-- The subkey table SK, RMAX rows (R25). -/
  sk : List Vec
  /-- The MDS matrix M (R26). -/
  m : Mat
  /-- The inverse matrix MI (R26). -/
  mi : Mat
  /-- CFG.ROUNDS (R27). -/
  rounds : BitVec 9
  /-- STATUS.MVALID (R29, R35). -/
  mvalid : Bool
  /-- STATUS.SKVALID (R29, R37). -/
  skvalid : Bool
deriving DecidableEq, Repr

/-- The accepted command and its operand snapshot (R40, `some(cmd, snapshot)`). -/
structure InFlight where
  cmd : Word
  snapshot : Regs
deriving DecidableEq, Repr

/-- The shape of a host access; only a single 32-bit word access is served (20_memory.md R61). -/
inductive Shape where
  /-- One 32-bit word. -/
  | word
  /-- Less than 32 bits. -/
  | narrower
  /-- More than 32 bits. -/
  | wider
  /-- Several beats. -/
  | burst
deriving DecidableEq, Repr

/-- One host access to the register window, at an 18-bit byte address (R60). -/
inductive Access where
  | read (shape : Shape) (addr : BitVec 18)
  | write (shape : Shape) (addr : BitVec 18) (data : Word)
deriving DecidableEq, Repr

/-- The bus response to a host access (R61, R65, R72 to R74). -/
inductive Response where
  | readOkay (data : Word)
  | writeOkay
  | readError (data : Word)
  | writeError
deriving DecidableEq, Repr

/-- One move of an agent (R19, R270; DESIGN CHOICE, entry 2; safe). -/
inductive Event where
  /-- The host presents an access (R78). -/
  | access (a : Access)
  /-- The engine's completion step fires (R281). -/
  | complete
  /-- The reset input is asserted (R270). -/
  | assertReset
  /-- The reset input is released (R270); while it is not asserted the move is a reset too (entry 13). -/
  | releaseReset
deriving DecidableEq, Repr

/-- The state of the block (R20) with the model's own fields `cfg`, `inputs`, `inReset` and `resp`.
BUSY is `inflight` being some (R40, entry 4) and ERR is a view of `errcode` (R29). -/
structure State where
  /-- The implementation parameters, carried along; no step changes them (entry 1). -/
  cfg : Params
  /-- V, RC, SK, M, MI, CFG.ROUNDS, MVALID and SKVALID (R22 to R27, R35, R37). -/
  regs : Regs
  /-- CFG.IE (R27). -/
  ie : Bool
  /-- CMDREG, the last accepted command word (R28). -/
  cmdreg : Word
  /-- STATUS.DONE (R39). -/
  done : Bool
  /-- STATUS.FATAL (R38). -/
  fatal : Bool
  /-- STATUS.LOST (R39). -/
  lost : Bool
  /-- ERRCODE (R30). -/
  errcode : BitVec 8
  /-- INFLIGHT (R40). -/
  inflight : Option InFlight
  /-- The level of the reset input (R270, entry 13). -/
  inReset : Bool
  /-- The moves still to come, the next one first (entry 2). -/
  inputs : List Event
  /-- The response to the last host access (entry 9). -/
  resp : Option Response
deriving DecidableEq, Repr

/-- Why the block would stop with a fault: there is no way. Every error of the spec is a completion code
(R240, R241) or a bus response (R247), so no constructor is needed, which is safe (entry 15). -/
inductive Fault
deriving DecidableEq, Repr

/-- Why a step has no meaning. -/
inductive Refusal where
  /-- Raised by `exec` for an instruction without a meaning; safe. No arm raises it. -/
  | notModelled (mnemonic : String)
  /-- Raised by a step in which the host accesses the window while reset is asserted: R272 says that the
  results are unspecified, that the host must not do so "and a model refuses them"; safe (entry 12). -/
  | accessDuringReset
deriving DecidableEq, Repr

/-- The operand state after reset (R41). -/
def Regs.reset (c : Params) : Regs :=
  { v := Vector.replicate 16 Vec.zero
    rc := List.replicate c.rmax Vec.zero
    sk := List.replicate c.rmax Vec.zero
    m := Mat.zero
    mi := Mat.zero
    rounds := 1#9
    mvalid := false
    skvalid := false }

/-- The state right after reset of a block with the parameters `c` (R41, R270). -/
def State.resetWith (c : Params) : State :=
  { cfg := c
    regs := Regs.reset c
    ie := false
    cmdreg := 0#32
    done := false
    fatal := false
    lost := false
    errcode := 0#8
    inflight := none
    inReset := false
    inputs := []
    resp := none }

/-- The machine right after reset (R41), its parameters open (R6, R9; entry 1). -/
def State.reset : State := State.resetWith Config.params

end Sys2Proof.Machine
end

