-- ==== Sys2Proof/Machine/Flags.lean ====
section
/-! DEFINITION. The status flags and the control words made of them: STATUS, CFG, ERRCODE, CAP, the
interrupt output, and how host writes change them (10_state.md R27 to R39, 60_exceptions.md R242, R248). -/

namespace Sys2Proof.Machine

/-- The number of a result code (R242). -/
def ErrCode.code : ErrCode → BitVec 8
  | .illegal => 0x01#8
  | .noncanonical => 0x02#8
  | .noMds => 0x03#8
  | .noSubkeys => 0x04#8
  | .roundRange => 0x05#8
  | .cauchyCollision => 0x06#8
  | .singular => 0x07#8
  | .constraint => 0x08#8
  | .locked => 0x09#8

/-- The code of success (R242). -/
def okCode : BitVec 8 := 0x00#8

/-- STATUS.BUSY: 1 exactly when INFLIGHT is some (R40). -/
def State.busy (s : State) : Bool := s.inflight.isSome

/-- STATUS.ERR reads (ERRCODE != 0) (R29). -/
def State.err (s : State) : Bool := s.errcode != 0#8

/-- The interrupt output, `IRQ = STATUS.DONE and CFG.IE` (R248). -/
def State.irq (s : State) : Bool := s.done && s.ie

/-- The STATUS word (R29). -/
def State.statusWord (s : State) : Word :=
  0#25 ++ BitVec.ofBool s.lost ++ BitVec.ofBool s.fatal ++ BitVec.ofBool s.regs.skvalid ++
    BitVec.ofBool s.regs.mvalid ++ BitVec.ofBool s.err ++ BitVec.ofBool s.done ++ BitVec.ofBool s.busy

/-- The CFG word (R27). -/
def State.cfgWord (s : State) : Word := 0#15 ++ BitVec.ofBool s.ie ++ 0#7 ++ s.regs.rounds

/-- The ERRCODE word (R30). -/
def State.errWord (s : State) : Word := 0#24 ++ s.errcode

/-- The CAP word: W, RMAX mod 256, and N = 3 (R32). -/
def capWord (c : Params) : Word := BitVec.ofNat 16 c.width ++ BitVec.ofNat 8 c.rmax ++ 0#4 ++ 3#4

/-- A STATUS write: writing 1 to DONE or LOST clears it, every other bit is ignored (R29, R73). -/
def State.writeStatus (s : State) (d : Word) : State :=
  { s with done := s.done && !d.getLsbD 1, lost := s.lost && !d.getLsbD 6 }

/-- The ROUNDS that a CFG write leaves: a legal value is taken, another keeps the old (R27). -/
def nextRounds (rmax : Nat) (old : BitVec 9) (d : Word) : BitVec 9 :=
  let v := d.extractLsb' 0 9
  if 1 ≤ v.toNat ∧ v.toNat ≤ rmax then v else old

/-- A CFG write: ROUNDS write-legal-or-keep, IE from bit 16, and SKVALID cleared when ROUNDS changes
(R27, R37). -/
def State.writeCfg (s : State) (d : Word) : State :=
  let r := nextRounds s.cfg.rmax s.regs.rounds d
  { s with
    regs := { s.regs with rounds := r, skvalid := s.regs.skvalid && r == s.regs.rounds }
    ie := d.getLsbD 16 }

/-- A dropped host write sets LOST (R39, R74). -/
def State.dropWrite (s : State) : State := { s with lost := true }

end Sys2Proof.Machine
end

