-- ==== Sys2Proof/Machine/Ops.lean ====
section
/-! DEFINITION. The operations the commands share: field arithmetic (00_scope.md R13, R14, 40_field_alu.md
R120 to R124), the MDS unit's formulas (41_mds.md R150 to R154), the S-box pair (42_sbox.md R170 to R174),
what a command writes, and how it completes or raises an error (10_state.md R36, 60_exceptions.md R241 to
R245). -/

namespace Sys2Proof.Machine

/-! ### Field arithmetic -/

/-- `addP(a,b) = (a+b) mod P` (R13). -/
def addP (p a b : Nat) : Nat := (a + b) % p

/-- `subP(a,b) = (a-b) mod P`, the least non-negative residue of the exact difference (R12, R13). -/
def subP (p a b : Nat) : Nat := (((a : Int) - (b : Int)) % (p : Int)).toNat

/-- `mulP(a,b) = (a*b) mod P` (R13). -/
def mulP (p a b : Nat) : Nat := a * b % p

/-- The power loop of `powP`: the leading bits of the exponent first, a square for each bit and a
multiplication where the bit is 1 (R173). `fuel` bounds the bits of `k`. -/
def powLoop (p a : Nat) : (fuel k : Nat) → Nat
  | 0, _ => 1 % p
  | fuel + 1, k =>
    if k = 0 then 1 % p
    else
      let h := powLoop p a fuel (k / 2)
      let q := mulP p h h
      if k % 2 = 1 then mulP p q a else q

/-- `powP(a,k) = a^k mod P` (R13), by square and multiply (entry 7). `Laws.powP_eq` proves the equation. -/
def powP (p a k : Nat) : Nat := powLoop p a (k.log2 + 1) k

/-- `invP(a)` for a ≠ 0: the b with a*b mod P = 1, by powering to P - 2 (R13, R124; entry 7).
No meaning applies it to 0 (entry 8). -/
def invP (p a : Nat) : Nat := powP p a (p - 2)

/-- `divP(a,b) = mulP(a, invP(b))` for b ≠ 0 (R13). -/
def divP (p a b : Nat) : Nat := mulP p a (invP p b)

/-! ### Vectors and matrices -/

/-- `vadd(u,v)[j] = addP(u[j], v[j])` (R14). -/
def vaddP (p : Nat) (u v : Vec) : Vec := Vec.ofFn fun j => addP p (u.get j) (v.get j)

/-- `vsub(u,v)[j] = subP(u[j], v[j])` (R14). -/
def vsubP (p : Nat) (u v : Vec) : Vec := Vec.ofFn fun j => subP p (u.get j) (v.get j)

/-- `vmul(u,v)[j] = mulP(u[j], v[j])` (R14). -/
def vmulP (p : Nat) (u v : Vec) : Vec := Vec.ofFn fun j => mulP p (u.get j) (v.get j)

/-- `dot(u,v)`: the sum of the three products, reduced once (R14, R130). -/
def dotP (p : Nat) (u v : Vec) : Nat := (u.e0 * v.e0 + u.e1 * v.e1 + u.e2 * v.e2) % p

/-- `matvec(A, v)[i] = dot(A[i], v)` (R14). -/
def matvec (p : Nat) (a : Mat) (v : Vec) : Vec := Vec.ofFn fun i => dotP p (a.row i) v

/-! ### The MDS unit -/

/-- The entries of a vector are pairwise distinct (R150). -/
def distinct (v : Vec) : Bool := v.e0 != v.e1 && v.e0 != v.e2 && v.e1 != v.e2

/-- CauchyVectors: X distinct, Y distinct, and no entry of X equal to an entry of Y (R150). -/
def cauchyOk (x y : Vec) : Bool :=
  distinct x && distinct y && decide (∀ i j : Lane, x.get i ≠ y.get j)

/-- `cauchy(X, Y)[i][j] = invP(subP(X[i], Y[j]))` (R151). -/
def cauchy (p : Nat) (x y : Vec) : Mat := Mat.ofFn fun i j => invP p (subP p (x.get i) (y.get j))

/-- A product of three entries, mod P (R153). -/
def mul3 (p a b c : Nat) : Nat := mulP p (mulP p a b) c

/-- The 3x3 determinant: six triple products, three added and three subtracted (R153). -/
def det (p : Nat) (a : Mat) : Nat :=
  subP p
    (addP p (addP p (mul3 p (a.get 0 0) (a.get 1 1) (a.get 2 2)) (mul3 p (a.get 0 1) (a.get 1 2) (a.get 2 0)))
      (mul3 p (a.get 0 2) (a.get 1 0) (a.get 2 1)))
    (addP p (addP p (mul3 p (a.get 0 2) (a.get 1 1) (a.get 2 0)) (mul3 p (a.get 0 1) (a.get 1 0) (a.get 2 2)))
      (mul3 p (a.get 0 0) (a.get 1 2) (a.get 2 1)))

/-- The signed cofactor C[i][j]; the additions in the indices wrap mod 3 (R154). -/
def cofactor (p : Nat) (a : Mat) (i j : Lane) : Nat :=
  subP p (mulP p (a.get (i + 1) (j + 1)) (a.get (i + 2) (j + 2)))
    (mulP p (a.get (i + 1) (j + 2)) (a.get (i + 2) (j + 1)))

/-- `minv(A)[j][i] = divP(C[i][j], det(A))`, the adjugate over the determinant (R154). -/
def minv (p : Nat) (a : Mat) : Mat := Mat.ofFn fun j i => divP p (cofactor p a i j) (det p a)

/-! ### The S-box pair -/

/-- `sbox(v)[j] = powP(v[j], 5)` (R14, R170). -/
def sboxV (p : Nat) (v : Vec) : Vec := Vec.ofFn fun j => powP p (v.get j) 5

/-- `isbox(v)[j] = powP(v[j], EINV)` (R14, R172). -/
def isboxV (c : Params) (v : Vec) : Vec := Vec.ofFn fun j => powP c.p (v.get j) c.einv

/-- The inverse S-box with its self-check: w^5 must give v back, else CONSTRAINT (R174). -/
def isboxChecked (c : Params) (v : Vec) : Except ErrCode Vec :=
  let w := isboxV c v
  if sboxV c.p w = v then .ok w else .error .constraint

/-- `S_i(v)`: the forward S-box when i is odd, the checked inverse when i is even (R15, R190). -/
def layer (c : Params) (i : Nat) (v : Vec) : Except ErrCode Vec :=
  if i % 2 = 1 then .ok (sboxV c.p v) else isboxChecked c v

/-- `Sinv_i(v)`: the checked inverse when i is odd, the forward S-box when i is even (R15). -/
def layerInv (c : Params) (i : Nat) (v : Vec) : Except ErrCode Vec :=
  if i % 2 = 1 then isboxChecked c v else .ok (sboxV c.p v)

/-! ### What a command writes, and how it ends -/

/-- The writes of a command's commit phase, besides the status fields every command writes (R16, R100). -/
inductive Effect where
  /-- NOP (R125). -/
  | nothing
  /-- `V[rd] <- r`. -/
  | writeV (rd : VReg) (r : Vec)
  /-- `M <- a; MI <- b; MVALID <- 1; SKVALID <- 0` (R152). -/
  | writeMatrices (a b : Mat)
  /-- `SK <- sk; SKVALID <- 1` (R192). -/
  | writeSubkeys (sk : List Vec)
  /-- `V[rd] <- r; SK <- sk; SKVALID <- 1` (R195, R196). -/
  | writeBoth (rd : VReg) (r : Vec) (sk : List Vec)
deriving DecidableEq, Repr

/-- `V[rd] <- r` (R15). -/
def Regs.setV (x : Regs) (rd : VReg) (r : Vec) : Regs := { x with v := x.v.set rd r }

/-- `M <- a; MI <- b; MVALID <- 1; SKVALID <- 0` (R35, R37, R152). -/
def Regs.setMatrices (x : Regs) (a b : Mat) : Regs :=
  { x with m := a, mi := b, mvalid := true, skvalid := false }

/-- `SK <- sk; SKVALID <- 1` (R37, R199). -/
def Regs.setSubkeys (x : Regs) (sk : List Vec) : Regs := { x with sk := sk, skvalid := true }

/-- A command's writes performed (R36). -/
def applyEffect : Effect → Regs → Regs
  | .nothing, x => x
  | .writeV rd r, x => x.setV rd r
  | .writeMatrices a b, x => x.setMatrices a b
  | .writeSubkeys sk, x => x.setSubkeys sk
  | .writeBoth rd r sk, x => (x.setV rd r).setSubkeys sk

/-- The operands of the command being completed: the values read at acceptance (R16, R40). Where nothing
is in flight they are the live registers (entry 5). -/
def State.operands (s : State) : Regs :=
  match s.inflight with
  | some f => f.snapshot
  | none => s.regs

/-- Successful completion: all writes at once, with ERRCODE <- 0, DONE <- 1 and BUSY <- 0 (R36). -/
def State.commit (s : State) (e : Effect) : State :=
  { s with regs := applyEffect e s.regs, errcode := okCode, done := true, inflight := none }

/-- `raise Error(code)`, this hardware's only way to take an error: exactly ERRCODE <- c, DONE <- 1,
BUSY <- 0 and INFLIGHT <- none, and FATAL <- 1 if c is CONSTRAINT (R241, R244). -/
def State.raise (s : State) (c : ErrCode) : State :=
  { s with errcode := c.code, done := true, inflight := none, fatal := s.fatal || c == .constraint }

/-- Completion with a result: commit or raise (R36, R244). -/
def State.finish (s : State) : Except ErrCode Effect → State
  | .ok e => s.commit e
  | .error c => s.raise c

/-- A command run: LOCKED first (R243, R245), then its own check and compute phases on the operands of
acceptance, then its completion as one atomic update (R16, R36). -/
def runCommand (s : State) (body : Params → Regs → Except ErrCode Effect) :
    Host.Outcome State Fault Refusal :=
  .next (s.finish (if s.fatal then .error .locked else body s.cfg s.operands))

/-- The completion of a word that decodes to no command: ILLEGAL, after LOCKED (R95, R243, R245). -/
def completeIllegal (s : State) : State := s.raise (if s.fatal then .locked else .illegal)

/-- Acceptance of a command word: CMDREG <- d, INFLIGHT <- some(d, snapshot), BUSY <- 1 and DONE <- 0
(R76). -/
def acceptCommand (s : State) (d : Word) : State :=
  { s with cmdreg := d, inflight := some { cmd := d, snapshot := s.regs }, done := false }

end Sys2Proof.Machine
end

