-- ==== Sys2Proof/Machine/Operands.lean ====
section
/-! DEFINITION. The operand forms of the commands with their checks (30_encoding.md R91, R100,
40_field_alu.md R121), and the limbs of an element (20_memory.md R63 to R65). -/

namespace Sys2Proof.Machine

/-- A check phase condition: when it fails the command raises `e` (R16). -/
def require (ok : Bool) (e : ErrCode) : Except ErrCode Unit := if ok then .ok () else .error e

/-- `canon(v)`: every element of the raw triple is below P (R15). -/
def canon (c : Params) (v : Vec) : Bool :=
  decide (v.e0 < c.p) && decide (v.e1 < c.p) && decide (v.e2 < c.p)

/-- Row `i` of RC or SK (R15). Past the end of the list it is the zero vector, which no command reads
in a state with full tables (entry 17). -/
def tableRow (t : List Vec) (i : Nat) : Vec := t.getD i Vec.zero

/-- R = CFG.ROUNDS (R27). -/
def Regs.roundCount (x : Regs) : Nat := x.rounds.toNat

/-- A raw triple read as an operand: NONCANONICAL unless canonical (R121). -/
def readCanon (c : Params) (v : Vec) : Except ErrCode Vec := do
  require (canon c v) .noncanonical
  return v

/-- The operand V[r] (R91, R121). -/
def readV (c : Params) (x : Regs) (r : VReg) : Except ErrCode Vec := readCanon c x.v[r]

/-- The operand RC[i] (R121, R131). -/
def readRc (c : Params) (x : Regs) (i : Nat) : Except ErrCode Vec := readCanon c (tableRow x.rc i)

/-- The rows RC[0] to RC[R-1], each canonical (R192). -/
def readRcRows (c : Params) (x : Regs) : Except ErrCode (List Vec) := do
  let rows := x.rc.take x.roundCount
  require (rows.all (canon c)) .noncanonical
  return rows

/-- MVALID = 1, else NO_MDS (R35). -/
def needMatrix (x : Regs) : Except ErrCode Unit := require x.mvalid .noMds

/-- SKVALID = 1, else NO_SUBKEYS (R37). -/
def needSubkeys (x : Regs) : Except ErrCode Unit := require x.skvalid .noSubkeys

/-- The round index is at least `lo` and below R, else ROUND_RANGE (R91, R100). -/
def needRound (lo : Nat) (x : Regs) (i : Nat) : Except ErrCode Unit :=
  require (decide (lo ≤ i) && decide (i < x.roundCount)) .roundRange

/-! ### Limbs -/

/-- Limb `k` of an element: its bits 32k+31 to 32k; 0 for a limb without storage (R63, R65). -/
def limbOf (c : Params) (e : Elem) (k : Nat) : Word :=
  if k < c.limbs then BitVec.ofNat 32 (e >>> (32 * k)) else 0#32

/-- An element with limb `k` replaced by `d`; bits at positions W and above are dropped (R64). -/
def setLimb (c : Params) (e : Elem) (k : Nat) (d : Word) : Elem :=
  (e % 2 ^ (32 * k) + d.toNat * 2 ^ (32 * k) + e / 2 ^ (32 * k + 32) * 2 ^ (32 * k + 32)) % 2 ^ c.width

end Sys2Proof.Machine
end

