-- ==== Sys2Proof/Machine/Alu.lean ====
section
/-! DEFINITION. The field ALU commands NOP, VADD, VSUB, VMUL, VMOV, VDOT, ADDRC, ADDSK and SUBSK
(40_field_alu.md). Each is its rule's check, compute and commit phases. -/

namespace Sys2Proof.Machine

/-- NOP: no check of its own, no write (R125). -/
def execNop (s : State) : Host.Outcome State Fault Refusal :=
  runCommand s fun _ _ => return .nothing

/-- VADD (R126). -/
def execVadd (rd rs1 rs2 : VReg) (s : State) : Host.Outcome State Fault Refusal :=
  runCommand s fun c x => do
    let a ← readV c x rs1
    let b ← readV c x rs2
    return .writeV rd (vaddP c.p a b)

/-- VSUB: the first operand minus the second (R127). -/
def execVsub (rd rs1 rs2 : VReg) (s : State) : Host.Outcome State Fault Refusal :=
  runCommand s fun c x => do
    let a ← readV c x rs1
    let b ← readV c x rs2
    return .writeV rd (vsubP c.p a b)

/-- VMUL, elementwise (R128). -/
def execVmul (rd rs1 rs2 : VReg) (s : State) : Host.Outcome State Fault Refusal :=
  runCommand s fun c x => do
    let a ← readV c x rs1
    let b ← readV c x rs2
    return .writeV rd (vmulP c.p a b)

/-- VMOV (R129). -/
def execVmov (rd rs1 : VReg) (s : State) : Host.Outcome State Fault Refusal :=
  runCommand s fun c x => do
    let a ← readV c x rs1
    return .writeV rd a

/-- VDOT: the scalar in all three elements (R130). -/
def execVdot (rd rs1 rs2 : VReg) (s : State) : Host.Outcome State Fault Refusal :=
  runCommand s fun c x => do
    let a ← readV c x rs1
    let b ← readV c x rs2
    return .writeV rd (Vec.ofFn fun _ => dotP c.p a b)

/-- ADDRC (R131). -/
def execAddrc (rd rs1 : VReg) (i : Nat) (s : State) : Host.Outcome State Fault Refusal :=
  runCommand s fun c x => do
    needRound 0 x i
    let a ← readV c x rs1
    let k ← readRc c x i
    return .writeV rd (vaddP c.p a k)

/-- ADDSK (R132). -/
def execAddsk (rd rs1 : VReg) (i : Nat) (s : State) : Host.Outcome State Fault Refusal :=
  runCommand s fun c x => do
    needSubkeys x
    needRound 0 x i
    let a ← readV c x rs1
    return .writeV rd (vaddP c.p a (tableRow x.sk i))

/-- SUBSK (R133). -/
def execSubsk (rd rs1 : VReg) (i : Nat) (s : State) : Host.Outcome State Fault Refusal :=
  runCommand s fun c x => do
    needSubkeys x
    needRound 0 x i
    let a ← readV c x rs1
    return .writeV rd (vsubP c.p a (tableRow x.sk i))

end Sys2Proof.Machine
end

