-- ==== Sys2Proof/Machine/Cipher.lean ====
section
/-! DEFINITION. The key schedule and round commands KRND, ERND, DRND, KSCHED, ENC and DEC
(43_keysched_round.md). -/

namespace Sys2Proof.Machine

/-- One round i: MDS, the S-box layer S_i, then the addition of `k` (R190). -/
def roundStep (c : Params) (m : Mat) (i : Nat) (v k : Vec) : Except ErrCode Vec := do
  let u ← layer c i (matvec c.p m v)
  return vaddP c.p u k

/-- The inverse of round i: subtract `k`, the inverse layer Sinv_i, then MI (R194). -/
def unroundStep (c : Params) (mi : Mat) (i : Nat) (v k : Vec) : Except ErrCode Vec := do
  let u ← layerInv c i (vsubP c.p v k)
  return matvec c.p mi u

/-- The subkeys of the rounds i, i+1, ..., one for each row of `rows`, after the subkey `prev` (R192). -/
def subkeysFrom (c : Params) (m : Mat) (i : Nat) (prev : Vec) : List Vec → Except ErrCode (List Vec)
  | [] => return []
  | k :: rows => do
    let sk ← roundStep c m i prev k
    let rest ← subkeysFrom c m (i + 1) sk rows
    return sk :: rest

/-- The subkeys sk[0] to sk[R-1] of a key under the round constants RC[0] to RC[R-1] (R192). -/
def deriveSubkeys (c : Params) (m : Mat) (key : Vec) : List Vec → Except ErrCode (List Vec)
  | [] => return []
  | k0 :: rows => do
    let sk0 := vaddP c.p key k0
    let rest ← subkeysFrom c m 1 sk0 rows
    return sk0 :: rest

/-- The whole table a derivation writes: the derived rows, then zero rows up to RMAX (R199). -/
def padSubkeys (c : Params) (sks : List Vec) : List Vec :=
  sks ++ List.replicate (c.rmax - sks.length) Vec.zero

/-- The keyed rounds i, i+1, ..., one for each subkey of the list (R195 step 3). -/
def encRounds (c : Params) (m : Mat) (i : Nat) (v : Vec) : List Vec → Except ErrCode Vec
  | [] => return v
  | k :: sks => do
    let v' ← roundStep c m i v k
    encRounds c m (i + 1) v' sks

/-- Encryption of `v` under derived subkeys (R195 steps 2 and 3). -/
def encryptWith (c : Params) (m : Mat) (v : Vec) : List Vec → Except ErrCode Vec
  | [] => return v
  | k0 :: sks => encRounds c m 1 (vaddP c.p v k0) sks

/-- The iterations of decryption that undo the rounds j, j-1, ..., 1: Sinv_j, then MI, then the
subtraction of sk[j-1]. Iteration t of R196 has j = R - t. -/
def decRounds (c : Params) (mi : Mat) (sks : List Vec) : (j : Nat) → Vec → Except ErrCode Vec
  | 0, v => return v
  | j + 1, v => do
    let u ← layerInv c (j + 1) v
    decRounds c mi sks j (vsubP c.p (matvec c.p mi u) (tableRow sks j))

/-- Decryption of `v` under derived subkeys (R196 steps 2 and 3). -/
def decryptWith (c : Params) (mi : Mat) (sks : List Vec) (v : Vec) : Except ErrCode Vec :=
  decRounds c mi sks (sks.length - 1) (vsubP c.p v (tableRow sks (sks.length - 1)))

/-- KRND (R191). -/
def execKrnd (rd rs1 : VReg) (i : Nat) (s : State) : Host.Outcome State Fault Refusal :=
  runCommand s fun c x => do
    needMatrix x
    needRound 1 x i
    let a ← readV c x rs1
    let k ← readRc c x i
    let r ← roundStep c x.m i a k
    return .writeV rd r

/-- ERND (R193). -/
def execErnd (rd rs1 : VReg) (i : Nat) (s : State) : Host.Outcome State Fault Refusal :=
  runCommand s fun c x => do
    needMatrix x
    needSubkeys x
    needRound 1 x i
    let a ← readV c x rs1
    let r ← roundStep c x.m i a (tableRow x.sk i)
    return .writeV rd r

/-- DRND (R194). -/
def execDrnd (rd rs1 : VReg) (i : Nat) (s : State) : Host.Outcome State Fault Refusal :=
  runCommand s fun c x => do
    needMatrix x
    needSubkeys x
    needRound 1 x i
    let a ← readV c x rs1
    let r ← unroundStep c x.mi i a (tableRow x.sk i)
    return .writeV rd r

/-- KSCHED (R192, R199). -/
def execKsched (rs1 : VReg) (s : State) : Host.Outcome State Fault Refusal :=
  runCommand s fun c x => do
    needMatrix x
    let key ← readV c x rs1
    let rows ← readRcRows c x
    let sks ← deriveSubkeys c x.m key rows
    return .writeSubkeys (padSubkeys c sks)

/-- ENC: the plaintext in V[rs1], the key in V[rs2] (R195, R199). -/
def execEnc (rd rs1 rs2 : VReg) (s : State) : Host.Outcome State Fault Refusal :=
  runCommand s fun c x => do
    needMatrix x
    let pt ← readV c x rs1
    let key ← readV c x rs2
    let rows ← readRcRows c x
    let sks ← deriveSubkeys c x.m key rows
    let ct ← encryptWith c x.m pt sks
    return .writeBoth rd ct (padSubkeys c sks)

/-- DEC: the ciphertext in V[rs1], the key in V[rs2]; the S-box choice follows the encryption round being
undone (R196, R199, 90_conflicts.md C1). -/
def execDec (rd rs1 rs2 : VReg) (s : State) : Host.Outcome State Fault Refusal :=
  runCommand s fun c x => do
    needMatrix x
    let ct ← readV c x rs1
    let key ← readV c x rs2
    let rows ← readRcRows c x
    let sks ← deriveSubkeys c x.m key rows
    let pt ← decryptWith c x.mi sks ct
    return .writeBoth rd pt (padSubkeys c sks)

end Sys2Proof.Machine
end

