-- ==== Sys2Proof/Machine/Mds.lean ====
section
/-! DEFINITION. The MDS matrix commands MDSGEN, MDS and IMDS (41_mds.md). -/

namespace Sys2Proof.Machine

/-- The matrix and its inverse that MDSGEN makes of X and Y, after its collision and singularity checks
(R152). -/
def genMatrices (c : Params) (x y : Vec) : Except ErrCode (Mat × Mat) := do
  require (cauchyOk x y) .cauchyCollision
  let a := cauchy c.p x y
  require (det c.p a != 0) .singular
  return (a, minv c.p a)

/-- MDSGEN: X in V[rs1], Y in V[rs2] (R152). -/
def execMdsgen (rs1 rs2 : VReg) (s : State) : Host.Outcome State Fault Refusal :=
  runCommand s fun c r => do
    let x ← readV c r rs1
    let y ← readV c r rs2
    let ab ← genMatrices c x y
    return .writeMatrices ab.1 ab.2

/-- MDS (R156). -/
def execMds (rd rs1 : VReg) (s : State) : Host.Outcome State Fault Refusal :=
  runCommand s fun c x => do
    needMatrix x
    let a ← readV c x rs1
    return .writeV rd (matvec c.p x.m a)

/-- IMDS (R157). -/
def execImds (rd rs1 : VReg) (s : State) : Host.Outcome State Fault Refusal :=
  runCommand s fun c x => do
    needMatrix x
    let a ← readV c x rs1
    return .writeV rd (matvec c.p x.mi a)

end Sys2Proof.Machine
end

