-- ==== Sys2Proof/Machine/Sbox.lean ====
section
/-! DEFINITION. The S-box commands SBOX and ISBOX (42_sbox.md). -/

namespace Sys2Proof.Machine

/-- SBOX (R175). -/
def execSbox (rd rs1 : VReg) (s : State) : Host.Outcome State Fault Refusal :=
  runCommand s fun c x => do
    let a ← readV c x rs1
    return .writeV rd (sboxV c.p a)

/-- ISBOX, with its self-check (R174, R176). -/
def execIsbox (rd rs1 : VReg) (s : State) : Host.Outcome State Fault Refusal :=
  runCommand s fun c x => do
    let a ← readV c x rs1
    let w ← isboxChecked c a
    return .writeV rd w

end Sys2Proof.Machine
end

