-- ==== Sys2Proof/Machine/Dispatch.lean ====
section
/-! DEFINITION. The meaning of each command, one arm per constructor (30_encoding.md R94). -/

namespace Sys2Proof.Machine

def exec (i : Instr) (s : State) : Host.Outcome State Fault Refusal :=
  match i with
  | .nop => Sys2Proof.Machine.execNop s
  | .vadd rd rs1 rs2 => Sys2Proof.Machine.execVadd rd rs1 rs2 s
  | .vsub rd rs1 rs2 => Sys2Proof.Machine.execVsub rd rs1 rs2 s
  | .vmul rd rs1 rs2 => Sys2Proof.Machine.execVmul rd rs1 rs2 s
  | .vmov rd rs1 => Sys2Proof.Machine.execVmov rd rs1 s
  | .vdot rd rs1 rs2 => Sys2Proof.Machine.execVdot rd rs1 rs2 s
  | .sbox rd rs1 => Sys2Proof.Machine.execSbox rd rs1 s
  | .isbox rd rs1 => Sys2Proof.Machine.execIsbox rd rs1 s
  | .mds rd rs1 => Sys2Proof.Machine.execMds rd rs1 s
  | .imds rd rs1 => Sys2Proof.Machine.execImds rd rs1 s
  | .addrc rd rs1 idx => Sys2Proof.Machine.execAddrc rd rs1 idx s
  | .addsk rd rs1 idx => Sys2Proof.Machine.execAddsk rd rs1 idx s
  | .subsk rd rs1 idx => Sys2Proof.Machine.execSubsk rd rs1 idx s
  | .mdsgen rs1 rs2 => Sys2Proof.Machine.execMdsgen rs1 rs2 s
  | .krnd rd rs1 idx => Sys2Proof.Machine.execKrnd rd rs1 idx s
  | .ernd rd rs1 idx => Sys2Proof.Machine.execErnd rd rs1 idx s
  | .drnd rd rs1 idx => Sys2Proof.Machine.execDrnd rd rs1 idx s
  | .ksched rs1 => Sys2Proof.Machine.execKsched rs1 s
  | .enc rd rs1 rs2 => Sys2Proof.Machine.execEnc rd rs1 rs2 s
  | .dec rd rs1 rs2 => Sys2Proof.Machine.execDec rd rs1 rs2 s

end Sys2Proof.Machine
end

