-- ==== Sys2Proof/Machine/Window.lean ====
section
/-! DEFINITION. The register window: the address map, reads and writes of each word, and a host access
with its response (20_memory.md R60 to R79). -/

namespace Sys2Proof.Machine

/-- The element slots of the window (R67 to R71). -/
inductive Slot where
  | v (r : VReg) (j : Lane)
  | m (i j : Lane)
  | mi (i j : Lane)
  | pmod
  | einv
  | rc (i : Nat) (j : Lane)
  | sk (i : Nat) (j : Lane)
deriving DecidableEq, Repr

/-- The mapped words of the window: the control registers (R66) and the limbs of the slots (R63). -/
inductive Target where
  | id
  | cap
  | cfg
  | cmd
  | status
  | errcode
  | limb (slot : Slot) (k : Nat)
deriving DecidableEq, Repr

/-- The base address of a slot (R67 to R71). -/
def slotBase : Slot → Nat
  | .v r j => 0x01000 + 0xC0 * r.val + 0x40 * j.val
  | .m i j => 0x02000 + 0xC0 * i.val + 0x40 * j.val
  | .mi i j => 0x02400 + 0xC0 * i.val + 0x40 * j.val
  | .pmod => 0x02800
  | .einv => 0x02840
  | .rc i j => 0x10000 + 0xC0 * i + 0x40 * j.val
  | .sk i j => 0x20000 + 0xC0 * i + 0x40 * j.val

/-- The row of an address in a region that starts at `base` (rows are 0xC0 bytes, R67 to R71). -/
def rowAt (base a : Nat) : Nat := (a - base) / 0xC0

/-- The element of an address within its row (slots are 64 bytes, R63). -/
def laneAt (base a : Nat) : Lane := Fin.ofNat 3 ((a - base) % 0xC0 / 0x40)

/-- The limb of an address within its slot (R63). -/
def limbAt (base a : Nat) : Nat := (a - base) % 0x40 / 4

/-- The word an aligned address names, none where the window is unmapped (R66 to R72). -/
def target (c : Params) (a : Nat) : Option Target :=
  if a < 0x00018 then
    match a / 4 with
    | 0 => some .id
    | 1 => some .cap
    | 2 => some .cfg
    | 3 => some .cmd
    | 4 => some .status
    | _ => some .errcode
  else if 0x01000 ≤ a ∧ a < 0x01C00 then
    some (.limb (.v (Fin.ofNat 16 (rowAt 0x01000 a)) (laneAt 0x01000 a)) (limbAt 0x01000 a))
  else if 0x02000 ≤ a ∧ a < 0x02240 then
    some (.limb (.m (Fin.ofNat 3 (rowAt 0x02000 a)) (laneAt 0x02000 a)) (limbAt 0x02000 a))
  else if 0x02400 ≤ a ∧ a < 0x02640 then
    some (.limb (.mi (Fin.ofNat 3 (rowAt 0x02400 a)) (laneAt 0x02400 a)) (limbAt 0x02400 a))
  else if 0x02800 ≤ a ∧ a < 0x02840 then some (.limb .pmod (limbAt 0x02800 a))
  else if 0x02840 ≤ a ∧ a < 0x02880 then some (.limb .einv (limbAt 0x02840 a))
  else if 0x10000 ≤ a ∧ a < 0x10000 + 0xC0 * c.rmax then
    some (.limb (.rc (rowAt 0x10000 a) (laneAt 0x10000 a)) (limbAt 0x10000 a))
  else if 0x20000 ≤ a ∧ a < 0x20000 + 0xC0 * c.rmax then
    some (.limb (.sk (rowAt 0x20000 a) (laneAt 0x20000 a)) (limbAt 0x20000 a))
  else none

/-- The word an access reaches, none where the access gets a bus ERROR: a shape other than one word, an
address that is not a multiple of 4, an unmapped address (R61, R72). -/
def busTarget (c : Params) (shape : Shape) (addr : BitVec 18) : Option Target :=
  if shape = .word ∧ addr.toNat % 4 = 0 then target c addr.toNat else none

/-- The committed value of an element (R65, R75). -/
def slotElem (c : Params) (x : Regs) : Slot → Elem
  | .v r j => x.v[r].get j
  | .m i j => x.m.get i j
  | .mi i j => x.mi.get i j
  | .pmod => c.p
  | .einv => c.einv
  | .rc i j => (tableRow x.rc i).get j
  | .sk i j => (tableRow x.sk i).get j

/-- The value a read of a mapped word returns; no read has a side effect (R27 to R34, R65, R75, R76). -/
def readTarget (s : State) : Target → Word
  | .id => Config.idWord
  | .cap => capWord s.cfg
  | .cfg => s.cfgWord
  | .cmd => s.cmdreg
  | .status => s.statusWord
  | .errcode => s.errWord
  | .limb slot k => limbOf s.cfg (slotElem s.cfg s.regs slot) k

/-- A limb write to V[r][j] (R64); it has no side effect (R76). -/
def writeVLimb (c : Params) (x : Regs) (r : VReg) (j : Lane) (k : Nat) (d : Word) : Regs :=
  if k < c.limbs then x.setV r (x.v[r].set j (setLimb c (x.v[r].get j) k d)) else x

/-- A limb write to RC[i][j], which clears SKVALID when it applies, that is for a limb with storage
(R37, R64; entry 11). -/
def writeRcLimb (c : Params) (x : Regs) (i : Nat) (j : Lane) (k : Nat) (d : Word) : Regs :=
  if k < c.limbs then
    let row := tableRow x.rc i
    { x with rc := x.rc.set i (row.set j (setLimb c (row.get j) k d)), skvalid := false }
  else x

/-- A limb write while BUSY = 0: V and RC are writable, the other slots ignore writes (R64, R68, R69,
R71, R73). -/
def writeSlot (c : Params) (x : Regs) (slot : Slot) (k : Nat) (d : Word) : Regs :=
  match slot with
  | .v r j => writeVLimb c x r j k d
  | .m _ _ => x
  | .mi _ _ => x
  | .pmod => x
  | .einv => x
  | .rc i j => writeRcLimb c x i j k d
  | .sk _ _ => x

/-- A write of a mapped word. STATUS is written at any time; while BUSY = 1 every other write is dropped
and sets LOST; otherwise the word's own rule applies (R73, R74, R76). -/
def writeTarget (s : State) (t : Target) (d : Word) : State :=
  match t with
  | .status => s.writeStatus d
  | .id => if s.busy then s.dropWrite else s
  | .cap => if s.busy then s.dropWrite else s
  | .cfg => if s.busy then s.dropWrite else s.writeCfg d
  | .cmd => if s.busy then s.dropWrite else acceptCommand s d
  | .errcode => if s.busy then s.dropWrite else s
  | .limb slot k =>
    if s.busy then s.dropWrite else { s with regs := writeSlot s.cfg s.regs slot k d }

/-- A host access and its response; a bus ERROR changes no state, and its read data is 0 (R61, R72,
R74, R247). -/
def hostAccess (a : Access) (s : State) : State :=
  match a with
  | .read shape addr =>
    match busTarget s.cfg shape addr with
    | none => { s with resp := some (.readError 0#32) }
    | some t => { s with resp := some (.readOkay (readTarget s t)) }
  | .write shape addr d =>
    match busTarget s.cfg shape addr with
    | none => { s with resp := some .writeError }
    | some t => { writeTarget s t d with resp := some .writeOkay }

/-! ### The canonical form of the store -/

/-- Every element of a vector is below `n`. -/
abbrev Vec.Below (n : Nat) (v : Vec) : Prop := ∀ j : Lane, v.get j < n

/-- Every entry of a matrix is below `n`. -/
abbrev Mat.Below (n : Nat) (a : Mat) : Prop := ∀ i j : Lane, a.get i j < n

/-- The canonical form of what the window shows: RC and SK have RMAX rows, the elements of V and RC are
W-bit patterns, and those of SK, M and MI are canonical (R20, R22 to R26; entry 16). -/
abbrev Memory.wf (c : Params) (x : Regs) : Prop :=
  x.rc.length = c.rmax ∧ x.sk.length = c.rmax ∧
  (∀ r : VReg, Vec.Below (2 ^ c.width) x.v[r]) ∧
  (∀ row ∈ x.rc, Vec.Below (2 ^ c.width) row) ∧
  (∀ row ∈ x.sk, Vec.Below c.p row) ∧
  Mat.Below c.p x.m ∧ Mat.Below c.p x.mi

end Sys2Proof.Machine
end

