-- ==== Sys2Proof/Machine/Engine.lean ====
section
/-! DEFINITION. One move of an agent: a host access, the engine's completion step, a change of the reset
input (00_scope.md R19, 70_reset_and_hazards.md R270 to R272, R281). -/

namespace Sys2Proof.Machine

/-- The engine's completion step: the command in flight is decoded and run to its completion; an idle
block keeps all of its state (R95, R101, R255, R281). -/
def completeInFlight (s : State) : Host.Outcome State Fault Refusal :=
  match s.inflight with
  | none => .next s
  | some f =>
    match decode f.cmd with
    | .ok i => exec i s
    | .error _ => .next (completeIllegal s)

/-- The state while the reset input is at `level` and when it changes: every piece of state at its reset
value, a command in flight lost; the moves still to come stay (R270, R271; entry 13). -/
def resetTo (level : Bool) (s : State) : State :=
  { State.resetWith s.cfg with inReset := level, inputs := s.inputs }

/-- One move. A host access while reset is asserted is refused (R272; entry 12).
DESIGN CHOICE, unsafe (entry 13): R270 does not say what a release move does while reset is not asserted;
here it resets the whole state, a command in flight included, as an assertion and its release would. -/
def takeEvent (e : Event) (s : State) : Host.Outcome State Fault Refusal :=
  match e with
  | .access a => if s.inReset then .refused .accessDuringReset else .next (hostAccess a s)
  | .complete => completeInFlight s
  | .assertReset => .next (resetTo true s)
  | .releaseReset => .next (resetTo false s)

/-- The next move of the machine: the next of the list; when the list is empty it is the engine's, so a
command in flight completes (R281; entry 2). -/
def nextMove (s : State) : Host.Outcome State Fault Refusal :=
  match s.inputs with
  | [] => completeInFlight s
  | e :: rest => takeEvent e { s with inputs := rest }

/-- The word placed as if a host CMD write had just been accepted, with the engine's completion step as
the next move (R76; entry 3). -/
def placeCommand (s : State) (w : Word) : State :=
  { acceptCommand s w with inReset := false, inputs := .complete :: s.inputs }

end Sys2Proof.Machine
end

