-- ==== Sys2Proof/Machine/Step.lean ====
section
/-! DEFINITION. One step of the machine (00_scope.md R19), and where it takes its next command from. -/

namespace Sys2Proof.Machine

/-- One step: the next move of an agent. -/
def step (s : State) : Host.Outcome State Fault Refusal := nextMove s

/-- `s` with a command placed where the next step takes it: in flight, with its completion as the next
move. The block fetches no instruction (R21, R80), so this stands for the host's CMD write (entry 3). -/
def State.withFetchWord (s : State) (nbits w : Nat) : State := placeCommand s (tableWord nbits w)

end Sys2Proof.Machine
end

