-- ==== Sys2Proof/Safety.lean ====
section
/-! DEFINITION. The terms the statements use: the spec's formulas with plain powers and sums, what a
command may read and write, its first error, the two ways a command ends, and the invariants. -/

namespace Sys2Proof.Spec

open Sys2Proof.Machine

/-! ### The spec's formulas (00_scope.md R13 to R15, 43_keysched_round.md R190 to R196) -/

/-- Elementwise sum mod P (R14). -/
def add (p : Nat) (u v : Vec) : Vec := Vec.ofFn fun j => (u.get j + v.get j) % p

/-- Elementwise difference mod P (R14). -/
def sub (p : Nat) (u v : Vec) : Vec :=
  Vec.ofFn fun j => (((u.get j : Int) - (v.get j : Int)) % (p : Int)).toNat

/-- Elementwise product mod P (R14). -/
def mul (p : Nat) (u v : Vec) : Vec := Vec.ofFn fun j => u.get j * v.get j % p

/-- `dot(u,v) = (sum over j of u[j]*v[j]) mod P` (R14). -/
def dot (p : Nat) (u v : Vec) : Nat := (∑ j : Lane, u.get j * v.get j) % p

/-- The matrix-vector product, row by row (R14). -/
def matvec (p : Nat) (a : Mat) (v : Vec) : Vec := Vec.ofFn fun i => (∑ j : Lane, a.get i j * v.get j) % p

/-- The forward S-box, v^5 mod P (R170). -/
def sbox (p : Nat) (v : Vec) : Vec := Vec.ofFn fun j => v.get j ^ 5 % p

/-- The inverse S-box, v^EINV mod P (R172). -/
def isbox (c : Params) (v : Vec) : Vec := Vec.ofFn fun j => v.get j ^ c.einv % c.p

/-- `S_i` (R15). -/
def layer (c : Params) (i : Nat) (v : Vec) : Vec := if i % 2 = 1 then sbox c.p v else isbox c v

/-- `Sinv_i` (R15). -/
def layerInv (c : Params) (i : Nat) (v : Vec) : Vec := if i % 2 = 1 then isbox c v else sbox c.p v

/-- Round i with the added vector `k` (R190). -/
def round (c : Params) (m : Mat) (i : Nat) (v k : Vec) : Vec :=
  add c.p (layer c i (matvec c.p m v)) k

/-- The inverse of round i (R194). -/
def unround (c : Params) (mi : Mat) (i : Nat) (v k : Vec) : Vec :=
  matvec c.p mi (layerInv c i (sub c.p v k))

/-- Subkey i of a key under the round constants `rc` (R192). -/
def subkey (c : Params) (m : Mat) (rc : List Vec) (key : Vec) : Nat → Vec
  | 0 => add c.p key (tableRow rc 0)
  | i + 1 => round c m (i + 1) (subkey c m rc key i) (tableRow rc (i + 1))

/-- The whole subkey table a derivation writes: rows 0 to R-1 derived, rows R to RMAX-1 zero (R199). -/
def subkeyTable (c : Params) (x : Regs) (key : Vec) : List Vec :=
  (List.range c.rmax).map fun i => if i < x.roundCount then subkey c x.m x.rc key i else Vec.zero

/-- The state of encryption after round i (R195). -/
def encState (c : Params) (m : Mat) (sk : Nat → Vec) (pt : Vec) : Nat → Vec
  | 0 => add c.p pt (sk 0)
  | i + 1 => round c m (i + 1) (encState c m sk pt i) (sk (i + 1))

/-- The state of decryption with R rounds after iteration t, which undoes encryption round R - t (R196). -/
def decState (c : Params) (mi : Mat) (sk : Nat → Vec) (r : Nat) (ct : Vec) : Nat → Vec
  | 0 => sub c.p ct (sk (r - 1))
  | t + 1 =>
    sub c.p (matvec c.p mi (layerInv c (r - (t + 1)) (decState c mi sk r ct t))) (sk (r - 1 - (t + 1)))

/-- The ciphertext ENC writes (R195). -/
def encrypt (c : Params) (x : Regs) (pt key : Vec) : Vec :=
  encState c x.m (subkey c x.m x.rc key) pt (x.roundCount - 1)

/-- The plaintext DEC writes (R196). -/
def decrypt (c : Params) (x : Regs) (ct key : Vec) : Vec :=
  decState c x.mi (subkey c x.m x.rc key) x.roundCount ct (x.roundCount - 1)

/-- CauchyVectors (R150). -/
abbrev Cauchy (x y : Vec) : Prop :=
  (∀ i j : Lane, i ≠ j → x.get i ≠ x.get j) ∧ (∀ i j : Lane, i ≠ j → y.get i ≠ y.get j) ∧
  ∀ i j : Lane, x.get i ≠ y.get j

/-- The determinant as an exact integer, before it is reduced mod P (R153). -/
def detInt (a : Mat) : Int :=
  let e (i j : Lane) : Int := (a.get i j : Int)
  e 0 0 * e 1 1 * e 2 2 + e 0 1 * e 1 2 * e 2 0 + e 0 2 * e 1 0 * e 2 1
    - e 0 2 * e 1 1 * e 2 0 - e 0 1 * e 1 0 * e 2 2 - e 0 0 * e 1 2 * e 2 1

/-- The signed cofactor C[i][j] as an exact integer (R154); index sums wrap mod 3. -/
def cofactorInt (a : Mat) (i j : Lane) : Int :=
  let e (i j : Lane) : Int := (a.get i j : Int)
  e (i + 1) (j + 1) * e (i + 2) (j + 2) - e (i + 1) (j + 2) * e (i + 2) (j + 1)

/-- `b` is the product inverse of `a` in the field: canonical, and a*b = 1 mod P (R13). -/
abbrev IsInverse (p : Nat) (a : Int) (b : Nat) : Prop := b < p ∧ (a * (b : Int)) % (p : Int) = 1

/-- The product of two matrices mod P is the identity matrix (R158). -/
abbrev ProductIsIdentity (p : Nat) (a b : Mat) : Prop :=
  ∀ i j : Lane, (∑ k : Lane, a.get i k * b.get k j) % p = if i = j then 1 else 0

/-! ### What a command needs and reads, and its first error (30_encoding.md R100, 60_exceptions.md R242,
R243) -/

/-- The commands that need M or MI (R35, R242). -/
def needsMatrix : Instr → Bool
  | .nop => false
  | .vadd _ _ _ => false
  | .vsub _ _ _ => false
  | .vmul _ _ _ => false
  | .vmov _ _ => false
  | .vdot _ _ _ => false
  | .sbox _ _ => false
  | .isbox _ _ => false
  | .mds _ _ => true
  | .imds _ _ => true
  | .addrc _ _ _ => false
  | .addsk _ _ _ => false
  | .subsk _ _ _ => false
  | .mdsgen _ _ => false
  | .krnd _ _ _ => true
  | .ernd _ _ _ => true
  | .drnd _ _ _ => true
  | .ksched _ => true
  | .enc _ _ _ => true
  | .dec _ _ _ => true

/-- The commands that read SK (R37, R242). -/
def needsSubkeys : Instr → Bool
  | .nop => false
  | .vadd _ _ _ => false
  | .vsub _ _ _ => false
  | .vmul _ _ _ => false
  | .vmov _ _ => false
  | .vdot _ _ _ => false
  | .sbox _ _ => false
  | .isbox _ _ => false
  | .mds _ _ => false
  | .imds _ _ => false
  | .addrc _ _ _ => false
  | .addsk _ _ _ => true
  | .subsk _ _ _ => true
  | .mdsgen _ _ => false
  | .krnd _ _ _ => false
  | .ernd _ _ _ => true
  | .drnd _ _ _ => true
  | .ksched _ => false
  | .enc _ _ _ => false
  | .dec _ _ _ => false

/-- The index is legal for the command when the round count is `r` (R100, column "legal IDX"). -/
def indexLegal (r : Nat) : Instr → Bool
  | .nop => true
  | .vadd _ _ _ => true
  | .vsub _ _ _ => true
  | .vmul _ _ _ => true
  | .vmov _ _ => true
  | .vdot _ _ _ => true
  | .sbox _ _ => true
  | .isbox _ _ => true
  | .mds _ _ => true
  | .imds _ _ => true
  | .addrc _ _ i => decide (i < r)
  | .addsk _ _ i => decide (i < r)
  | .subsk _ _ i => decide (i < r)
  | .mdsgen _ _ => true
  | .krnd _ _ i => decide (1 ≤ i ∧ i < r)
  | .ernd _ _ i => decide (1 ≤ i ∧ i < r)
  | .drnd _ _ i => decide (1 ≤ i ∧ i < r)
  | .ksched _ => true
  | .enc _ _ _ => true
  | .dec _ _ _ => true

/-- The raw triples the command reads and checks to be canonical (R23, R100, R121). -/
def checkedReads (x : Regs) : Instr → List Vec
  | .nop => []
  | .vadd _ rs1 rs2 => [x.v[rs1], x.v[rs2]]
  | .vsub _ rs1 rs2 => [x.v[rs1], x.v[rs2]]
  | .vmul _ rs1 rs2 => [x.v[rs1], x.v[rs2]]
  | .vmov _ rs1 => [x.v[rs1]]
  | .vdot _ rs1 rs2 => [x.v[rs1], x.v[rs2]]
  | .sbox _ rs1 => [x.v[rs1]]
  | .isbox _ rs1 => [x.v[rs1]]
  | .mds _ rs1 => [x.v[rs1]]
  | .imds _ rs1 => [x.v[rs1]]
  | .addrc _ rs1 i => [x.v[rs1], tableRow x.rc i]
  | .addsk _ rs1 _ => [x.v[rs1]]
  | .subsk _ rs1 _ => [x.v[rs1]]
  | .mdsgen rs1 rs2 => [x.v[rs1], x.v[rs2]]
  | .krnd _ rs1 i => [x.v[rs1], tableRow x.rc i]
  | .ernd _ rs1 _ => [x.v[rs1]]
  | .drnd _ rs1 _ => [x.v[rs1]]
  | .ksched rs1 => x.v[rs1] :: x.rc.take x.roundCount
  | .enc _ rs1 rs2 => x.v[rs1] :: x.v[rs2] :: x.rc.take x.roundCount
  | .dec _ rs1 rs2 => x.v[rs1] :: x.v[rs2] :: x.rc.take x.roundCount

/-- MDSGEN's operands do not satisfy CauchyVectors; false of every other command (R150, R152). -/
def collides (x : Regs) : Instr → Bool
  | .mdsgen rs1 rs2 => decide (¬ Cauchy x.v[rs1] x.v[rs2])
  | _ => false

/-- The code of the first condition that holds in the order of R243, for a block with valid parameters,
where SINGULAR and CONSTRAINT cannot arise (R155, R172); 0 where none holds. ILLEGAL words decode to no
command. -/
def firstErrorCode (i : Instr) (s : State) : BitVec 8 :=
  let x := s.operands
  if s.fatal then 0x09#8
  else if needsMatrix i && !x.mvalid then 0x03#8
  else if needsSubkeys i && !x.skvalid then 0x04#8
  else if !indexLegal x.roundCount i then 0x05#8
  else if ∃ v ∈ checkedReads x i, ¬ Vec.Below s.cfg.p v then 0x02#8
  else if collides x i then 0x06#8
  else 0x00#8

/-- The element slots the command may write (R100, column "writes"). -/
def writesSlot : Instr → Slot → Prop
  | .nop, _ => False
  | .vadd rd _ _, t => ∃ j, t = .v rd j
  | .vsub rd _ _, t => ∃ j, t = .v rd j
  | .vmul rd _ _, t => ∃ j, t = .v rd j
  | .vmov rd _, t => ∃ j, t = .v rd j
  | .vdot rd _ _, t => ∃ j, t = .v rd j
  | .sbox rd _, t => ∃ j, t = .v rd j
  | .isbox rd _, t => ∃ j, t = .v rd j
  | .mds rd _, t => ∃ j, t = .v rd j
  | .imds rd _, t => ∃ j, t = .v rd j
  | .addrc rd _ _, t => ∃ j, t = .v rd j
  | .addsk rd _ _, t => ∃ j, t = .v rd j
  | .subsk rd _ _, t => ∃ j, t = .v rd j
  | .mdsgen _ _, t => ∃ i j, t = .m i j ∨ t = .mi i j
  | .krnd rd _ _, t => ∃ j, t = .v rd j
  | .ernd rd _ _, t => ∃ j, t = .v rd j
  | .drnd rd _ _, t => ∃ j, t = .v rd j
  | .ksched _, t => ∃ i j, t = .sk i j
  | .enc rd _ _, t => (∃ j, t = .v rd j) ∨ ∃ i j, t = .sk i j
  | .dec rd _ _, t => (∃ j, t = .v rd j) ∨ ∃ i j, t = .sk i j

/-! ### The two ways a command ends (10_state.md R36, 60_exceptions.md R244) -/

/-- `s` after a command that succeeded and left the registers `x`: ERRCODE 0, DONE, BUSY cleared, and
everything else as it was. -/
def completed (s : State) (x : Regs) : State :=
  { s with regs := x, errcode := 0x00#8, done := true, inflight := none }

/-- `s` after a command that raised `code`, which is not CONSTRAINT: ERRCODE, DONE and BUSY written, and
everything else as it was. -/
def failed (s : State) (code : BitVec 8) : State :=
  { s with errcode := code, done := true, inflight := none }

/-- `x` with `V[rd]` replaced. -/
def withV (x : Regs) (rd : VReg) (r : Vec) : Regs := { x with v := x.v.set rd r }

/-- The word `OPC | RD<<8 | RS1<<12 | RS2<<16 | IDX<<20` (R90). -/
def commandWord (opc : Nat) (rd rs1 rs2 : VReg) (idx : Nat) : Word :=
  BitVec.ofNat 32 (opc + rd.val * 2 ^ 8 + rs1.val * 2 ^ 12 + rs2.val * 2 ^ 16 + idx * 2 ^ 20)

/-- ROUNDS is legal and RC has its RMAX rows (R24, R27). -/
abbrev TablesFull (c : Params) (x : Regs) : Prop :=
  1 ≤ x.roundCount ∧ x.roundCount ≤ c.rmax ∧ x.rc.length = c.rmax

/-- The rows RC[0] to RC[R-1] are canonical (R192). -/
abbrev RowsCanonical (c : Params) (x : Regs) : Prop :=
  ∀ i, i < x.roundCount → Vec.Below c.p (tableRow x.rc i)

/-- A slot that the window maps: RC and SK have rows 0 to RMAX-1 (R67 to R71). -/
abbrev SlotExists (c : Params) : Slot → Prop
  | .v _ _ => True
  | .m _ _ => True
  | .mi _ _ => True
  | .pmod => True
  | .einv => True
  | .rc i _ => i < c.rmax
  | .sk i _ => i < c.rmax

/-- The slots no host write changes (R68, R69, R71, R73). -/
abbrev ReadOnlySlot : Slot → Prop
  | .v _ _ => False
  | .m _ _ => True
  | .mi _ _ => True
  | .pmod => True
  | .einv => True
  | .rc _ _ => False
  | .sk _ _ => True

/-- The addresses of the window that nothing is mapped to (R66 to R71). -/
abbrev Unmapped (c : Params) (a : Nat) : Prop :=
  (0x00018 ≤ a ∧ a ≤ 0x00FFF) ∨ (0x01C00 ≤ a ∧ a ≤ 0x01FFF) ∨ (0x02240 ≤ a ∧ a ≤ 0x023FF) ∨
  (0x02640 ≤ a ∧ a ≤ 0x027FF) ∨ (0x02880 ≤ a ∧ a ≤ 0x0FFFF) ∨
  (0x10000 + 0xC0 * c.rmax ≤ a ∧ a ≤ 0x1FFFF) ∨ (0x20000 + 0xC0 * c.rmax ≤ a ∧ a ≤ 0x3FFFF)

/-- Commands run one after the other, each to its completion. -/
def runAll : List Instr → State → Option State
  | [], s => some s
  | i :: is, s =>
    match exec i s with
    | .next t => runAll is t
    | .fault _ => none
    | .refused _ => none

/-- The single-round form of ENC: KSCHED, ADDSK #0, then ERND #1 to ERND #(R-1) (R200). -/
def encSteps (rd rs1 rs2 : VReg) (r : Nat) : List Instr :=
  .ksched rs2 :: .addsk rd rs1 0 :: (List.range' 1 (r - 1)).map fun i => .ernd rd rd i

/-- The decryption rounds DRND #j down to DRND #1, then SUBSK #0, from the vector in `src` (R200). -/
def drndSteps (rd : VReg) : VReg → Nat → List Instr
  | src, 0 => [.subsk rd src 0]
  | src, j + 1 => .drnd rd src (j + 1) :: drndSteps rd rd j

/-- The single-round form of DEC: KSCHED, then the decryption rounds (R200). -/
def decSteps (rd rs1 rs2 : VReg) (r : Nat) : List Instr := .ksched rs2 :: drndSteps rd rs1 (r - 1)

/-- ADDRC #0 on the key, then KRND #1 to KRND #i (R200). -/
def subkeySteps (rd rs1 : VReg) (i : Nat) : List Instr :=
  .addrc rd rs1 0 :: (List.range' 1 i).map fun l => .krnd rd rd l

/-! ### Invariants (10_state.md R23 to R43) -/

/-- The store is in canonical form, ROUNDS is legal (R27), and the snapshot of a command in flight is the
committed state (R40), in a block with valid parameters. -/
structure StoreOk (s : State) : Prop where
  params : s.cfg.Valid
  store : Memory.wf s.cfg s.regs
  rounds : 1 ≤ s.regs.roundCount ∧ s.regs.roundCount ≤ s.cfg.rmax
  snapshot : ∀ f, s.inflight = some f → f.snapshot = s.regs

/-- Whenever MVALID = 1, M and MI undo each other on canonical vectors and M has no zero entry (R42). -/
def MatrixOk (s : State) : Prop :=
  s.regs.mvalid = true →
    (∀ v, Vec.Below s.cfg.p v →
      matvec s.cfg.p s.regs.m (matvec s.cfg.p s.regs.mi v) = v ∧
      matvec s.cfg.p s.regs.mi (matvec s.cfg.p s.regs.m v) = v) ∧
    ∀ i j : Lane, s.regs.m.get i j ≠ 0

/-- Whenever SKVALID = 1, M and the rows RC[0] to RC[R-1] are canonical, and SK is the table derived from
some key under them (R43). -/
def SubkeysOk (s : State) : Prop :=
  s.regs.skvalid = true →
    Mat.Below s.cfg.p s.regs.m ∧
    (∀ i, i < s.regs.roundCount → Vec.Below s.cfg.p (tableRow s.regs.rc i)) ∧
    ∃ key, Vec.Below s.cfg.p key ∧ s.regs.sk = subkeyTable s.cfg s.regs key

/-- The discipline of the status fields. -/
structure StatusOk (s : State) : Prop where
  /-- The reserved codes 0x0A to 0xFF are never produced (R242). -/
  codes : s.errcode.toNat ≤ 9
  /-- BUSY and DONE are never 1 together (R39, R76). -/
  busyNotDone : s.busy = true → s.done = false
  /-- CMDREG holds the command in flight (R28, R76). -/
  cmdreg : ∀ f, s.inflight = some f → s.cmdreg = f.cmd
  /-- Subkeys are valid only where the matrices are (R35, R37). -/
  skvalid : s.regs.skvalid = true → s.regs.mvalid = true
  /-- FATAL is only there with CONSTRAINT or LOCKED as the last code (R244, R245). -/
  fatal : s.fatal = true → s.errcode = 0x08#8 ∨ s.errcode = 0x09#8
  /-- While reset is asserted every piece of state has its reset value (R270). -/
  inReset : s.inReset = true →
    s = { State.resetWith s.cfg with inReset := true, inputs := s.inputs }

end Sys2Proof.Spec
end

