-- ==== Sys2Proof/Certificates/Slice0/Obligations.lean ====
section
/-! DEFINITION. The statements for the provers. `s.operands` is the operand state read at acceptance
(00_scope.md R16, 10_state.md R40); `Spec.completed` and `Spec.failed` are whole states, so each equation
with them also says what does not change. -/

open Sys2Proof Sys2Proof.Machine

/-- NOP (R125). -/
def Obligations.NopRule : Prop :=
  (∀ w, decode w = .ok .nop ↔ w = 0#32) ∧
  (∀ w, opcField w = 0x00#8 → w ≠ 0#32 → ∃ e, decode w = .error e) ∧
  (∀ c, (State.resetWith c).cmdreg = encode .nop) ∧
  ∀ s : State,
    (s.fatal = false → exec .nop s = .next (Spec.completed s s.regs) ∧ (Spec.completed s s.regs).irq = s.ie) ∧
    (s.fatal = true → exec .nop s = .next (Spec.failed s 0x09#8))

/-- VADD (R126). -/
def Obligations.VaddRule : Prop :=
  ∀ rd rs1 rs2 : VReg, decode (Spec.commandWord 0x01 rd rs1 rs2 0) = .ok (.vadd rd rs1 rs2) ∧
    ∀ s : State, s.fatal = false →
      (Vec.Below s.cfg.p s.operands.v[rs1] → Vec.Below s.cfg.p s.operands.v[rs2] →
        exec (.vadd rd rs1 rs2) s = .next (Spec.completed s (Spec.withV s.regs rd
          (Spec.add s.cfg.p s.operands.v[rs1] s.operands.v[rs2])))) ∧
      (¬ (Vec.Below s.cfg.p s.operands.v[rs1] ∧ Vec.Below s.cfg.p s.operands.v[rs2]) →
        exec (.vadd rd rs1 rs2) s = .next (Spec.failed s 0x02#8))

/-- VSUB (R127). -/
def Obligations.VsubRule : Prop :=
  ∀ rd rs1 rs2 : VReg, decode (Spec.commandWord 0x02 rd rs1 rs2 0) = .ok (.vsub rd rs1 rs2) ∧
    ∀ s : State, s.fatal = false →
      (Vec.Below s.cfg.p s.operands.v[rs1] → Vec.Below s.cfg.p s.operands.v[rs2] →
        exec (.vsub rd rs1 rs2) s = .next (Spec.completed s (Spec.withV s.regs rd
          (Spec.sub s.cfg.p s.operands.v[rs1] s.operands.v[rs2])))) ∧
      (¬ (Vec.Below s.cfg.p s.operands.v[rs1] ∧ Vec.Below s.cfg.p s.operands.v[rs2]) →
        exec (.vsub rd rs1 rs2) s = .next (Spec.failed s 0x02#8))

/-- VMUL (R128). -/
def Obligations.VmulRule : Prop :=
  ∀ rd rs1 rs2 : VReg, decode (Spec.commandWord 0x03 rd rs1 rs2 0) = .ok (.vmul rd rs1 rs2) ∧
    ∀ s : State, s.fatal = false →
      (Vec.Below s.cfg.p s.operands.v[rs1] → Vec.Below s.cfg.p s.operands.v[rs2] →
        exec (.vmul rd rs1 rs2) s = .next (Spec.completed s (Spec.withV s.regs rd
          (Spec.mul s.cfg.p s.operands.v[rs1] s.operands.v[rs2])))) ∧
      (¬ (Vec.Below s.cfg.p s.operands.v[rs1] ∧ Vec.Below s.cfg.p s.operands.v[rs2]) →
        exec (.vmul rd rs1 rs2) s = .next (Spec.failed s 0x02#8))

/-- VDOT (R130). -/
def Obligations.VdotRule : Prop :=
  (∀ (p : Nat) (u v : Vec), (Vec.ofFn fun _ => Spec.dot p u v) = Spec.matvec p ⟨u, u, u⟩ v) ∧
  ∀ rd rs1 rs2 : VReg, decode (Spec.commandWord 0x05 rd rs1 rs2 0) = .ok (.vdot rd rs1 rs2) ∧
    ∀ s : State, s.fatal = false →
      (Vec.Below s.cfg.p s.operands.v[rs1] → Vec.Below s.cfg.p s.operands.v[rs2] →
        exec (.vdot rd rs1 rs2) s = .next (Spec.completed s (Spec.withV s.regs rd
          (Vec.ofFn fun _ => Spec.dot s.cfg.p s.operands.v[rs1] s.operands.v[rs2])))) ∧
      (¬ (Vec.Below s.cfg.p s.operands.v[rs1] ∧ Vec.Below s.cfg.p s.operands.v[rs2]) →
        exec (.vdot rd rs1 rs2) s = .next (Spec.failed s 0x02#8))

/-- VMOV (R129). -/
def Obligations.VmovRule : Prop :=
  ∀ rd rs1 : VReg, decode (Spec.commandWord 0x04 rd rs1 0 0) = .ok (.vmov rd rs1) ∧
    ∀ s : State, s.fatal = false →
      (Vec.Below s.cfg.p s.operands.v[rs1] →
        exec (.vmov rd rs1) s = .next (Spec.completed s (Spec.withV s.regs rd s.operands.v[rs1]))) ∧
      (¬ Vec.Below s.cfg.p s.operands.v[rs1] → exec (.vmov rd rs1) s = .next (Spec.failed s 0x02#8))

/-- ADDRC (R131). -/
def Obligations.AddrcRule : Prop :=
  ∀ (rd rs1 : VReg) (i : Nat),
    (i < 256 → decode (Spec.commandWord 0x10 rd rs1 0 i) = .ok (.addrc rd rs1 i)) ∧
    ∀ s : State, s.fatal = false →
      (s.operands.roundCount ≤ i → exec (.addrc rd rs1 i) s = .next (Spec.failed s 0x05#8)) ∧
      (i < s.operands.roundCount →
        (Vec.Below s.cfg.p s.operands.v[rs1] → Vec.Below s.cfg.p (tableRow s.operands.rc i) →
          exec (.addrc rd rs1 i) s = .next (Spec.completed s (Spec.withV s.regs rd
            (Spec.add s.cfg.p s.operands.v[rs1] (tableRow s.operands.rc i))))) ∧
        (¬ (Vec.Below s.cfg.p s.operands.v[rs1] ∧ Vec.Below s.cfg.p (tableRow s.operands.rc i)) →
          exec (.addrc rd rs1 i) s = .next (Spec.failed s 0x02#8)))

/-- ADDSK (R132). -/
def Obligations.AddskRule : Prop :=
  ∀ (rd rs1 : VReg) (i : Nat),
    (i < 256 → decode (Spec.commandWord 0x11 rd rs1 0 i) = .ok (.addsk rd rs1 i)) ∧
    ∀ s : State, s.fatal = false →
      (s.operands.skvalid = false → exec (.addsk rd rs1 i) s = .next (Spec.failed s 0x04#8)) ∧
      (s.operands.skvalid = true →
        (s.operands.roundCount ≤ i → exec (.addsk rd rs1 i) s = .next (Spec.failed s 0x05#8)) ∧
        (i < s.operands.roundCount →
          (Vec.Below s.cfg.p s.operands.v[rs1] →
            exec (.addsk rd rs1 i) s = .next (Spec.completed s (Spec.withV s.regs rd
              (Spec.add s.cfg.p s.operands.v[rs1] (tableRow s.operands.sk i))))) ∧
          (¬ Vec.Below s.cfg.p s.operands.v[rs1] → exec (.addsk rd rs1 i) s = .next (Spec.failed s 0x02#8))))

/-- SUBSK (R133). -/
def Obligations.SubskRule : Prop :=
  ∀ (rd rs1 : VReg) (i : Nat),
    (i < 256 → decode (Spec.commandWord 0x12 rd rs1 0 i) = .ok (.subsk rd rs1 i)) ∧
    (∀ (p : Nat) (u k : Vec), Vec.Below p u → Spec.sub p (Spec.add p u k) k = u) ∧
    ∀ s : State, s.fatal = false →
      (s.operands.skvalid = false → exec (.subsk rd rs1 i) s = .next (Spec.failed s 0x04#8)) ∧
      (s.operands.skvalid = true →
        (s.operands.roundCount ≤ i → exec (.subsk rd rs1 i) s = .next (Spec.failed s 0x05#8)) ∧
        (i < s.operands.roundCount →
          (Vec.Below s.cfg.p s.operands.v[rs1] →
            exec (.subsk rd rs1 i) s = .next (Spec.completed s (Spec.withV s.regs rd
              (Spec.sub s.cfg.p s.operands.v[rs1] (tableRow s.operands.sk i))))) ∧
          (¬ Vec.Below s.cfg.p s.operands.v[rs1] → exec (.subsk rd rs1 i) s = .next (Spec.failed s 0x02#8))))

/-- SBOX (R175). -/
def Obligations.SboxRule : Prop :=
  (∀ c : Params, c.Valid → 0 ^ 5 % c.p = 0 ∧ 1 ^ 5 % c.p = 1 ∧ (c.p - 1) ^ 5 % c.p = c.p - 1) ∧
  ∀ rd rs1 : VReg, decode (Spec.commandWord 0x08 rd rs1 0 0) = .ok (.sbox rd rs1) ∧
    ∀ s : State, s.fatal = false →
      (Vec.Below s.cfg.p s.operands.v[rs1] →
        exec (.sbox rd rs1) s = .next (Spec.completed s (Spec.withV s.regs rd
          (Spec.sbox s.cfg.p s.operands.v[rs1])))) ∧
      (¬ Vec.Below s.cfg.p s.operands.v[rs1] → exec (.sbox rd rs1) s = .next (Spec.failed s 0x02#8))

/-- ISBOX (R176), its self-check included. -/
def Obligations.IsboxRule : Prop :=
  (∀ c : Params, c.Valid →
    (∀ v, Vec.Below c.p v → Spec.sbox c.p (Spec.isbox c v) = v ∧ Spec.isbox c (Spec.sbox c.p v) = v) ∧
    0 ^ c.einv % c.p = 0 ∧ 1 ^ c.einv % c.p = 1 ∧ (c.p - 1) ^ c.einv % c.p = c.p - 1) ∧
  ∀ rd rs1 : VReg, decode (Spec.commandWord 0x09 rd rs1 0 0) = .ok (.isbox rd rs1) ∧
    ∀ s : State, s.fatal = false →
      (¬ Vec.Below s.cfg.p s.operands.v[rs1] → exec (.isbox rd rs1) s = .next (Spec.failed s 0x02#8)) ∧
      (Vec.Below s.cfg.p s.operands.v[rs1] →
        Spec.sbox s.cfg.p (Spec.isbox s.cfg s.operands.v[rs1]) = s.operands.v[rs1] →
        exec (.isbox rd rs1) s = .next (Spec.completed s (Spec.withV s.regs rd
          (Spec.isbox s.cfg s.operands.v[rs1])))) ∧
      (Vec.Below s.cfg.p s.operands.v[rs1] →
        Spec.sbox s.cfg.p (Spec.isbox s.cfg s.operands.v[rs1]) ≠ s.operands.v[rs1] →
        exec (.isbox rd rs1) s = .next { Spec.failed s 0x08#8 with fatal := true })

/-- MDS (R156). -/
def Obligations.MdsRule : Prop :=
  ∀ rd rs1 : VReg, decode (Spec.commandWord 0x0C rd rs1 0 0) = .ok (.mds rd rs1) ∧
    ∀ s : State, s.fatal = false →
      (s.operands.mvalid = false → exec (.mds rd rs1) s = .next (Spec.failed s 0x03#8)) ∧
      (s.operands.mvalid = true →
        (Vec.Below s.cfg.p s.operands.v[rs1] →
          exec (.mds rd rs1) s = .next (Spec.completed s (Spec.withV s.regs rd
            (Spec.matvec s.cfg.p s.operands.m s.operands.v[rs1])))) ∧
        (¬ Vec.Below s.cfg.p s.operands.v[rs1] → exec (.mds rd rs1) s = .next (Spec.failed s 0x02#8)))

/-- IMDS (R157). -/
def Obligations.ImdsRule : Prop :=
  (∀ (p : Nat) (m mi : Mat) (v : Vec), Spec.ProductIsIdentity p mi m → Vec.Below p v →
    Spec.matvec p mi (Spec.matvec p m v) = v) ∧
  ∀ rd rs1 : VReg, decode (Spec.commandWord 0x0D rd rs1 0 0) = .ok (.imds rd rs1) ∧
    ∀ s : State, s.fatal = false →
      (s.operands.mvalid = false → exec (.imds rd rs1) s = .next (Spec.failed s 0x03#8)) ∧
      (s.operands.mvalid = true →
        (Vec.Below s.cfg.p s.operands.v[rs1] →
          exec (.imds rd rs1) s = .next (Spec.completed s (Spec.withV s.regs rd
            (Spec.matvec s.cfg.p s.operands.mi s.operands.v[rs1])))) ∧
        (¬ Vec.Below s.cfg.p s.operands.v[rs1] → exec (.imds rd rs1) s = .next (Spec.failed s 0x02#8)))

/-- MDSGEN (R152) with the matrices of R151, R153 and R154. -/
def Obligations.MdsgenRule : Prop :=
  ∀ rs1 rs2 : VReg, decode (Spec.commandWord 0x18 0 rs1 rs2 0) = .ok (.mdsgen rs1 rs2) ∧
    ∀ s : State, s.cfg.Valid → s.fatal = false →
      (¬ (Vec.Below s.cfg.p s.operands.v[rs1] ∧ Vec.Below s.cfg.p s.operands.v[rs2]) →
        exec (.mdsgen rs1 rs2) s = .next (Spec.failed s 0x02#8)) ∧
      (Vec.Below s.cfg.p s.operands.v[rs1] → Vec.Below s.cfg.p s.operands.v[rs2] →
        (¬ Spec.Cauchy s.operands.v[rs1] s.operands.v[rs2] →
          exec (.mdsgen rs1 rs2) s = .next (Spec.failed s 0x06#8)) ∧
        (Spec.Cauchy s.operands.v[rs1] s.operands.v[rs2] →
          ∃ a b : Mat, exec (.mdsgen rs1 rs2) s =
              .next (Spec.completed s { s.regs with m := a, mi := b, mvalid := true, skvalid := false }) ∧
            (∀ i j : Lane, Spec.IsInverse s.cfg.p
              ((s.operands.v[rs1].get i : Int) - (s.operands.v[rs2].get j : Int)) (a.get i j)) ∧
            ∃ d : Nat, Spec.IsInverse s.cfg.p (Spec.detInt a) d ∧
              ∀ i j : Lane, (b.get j i : Int) = (Spec.cofactorInt a i j * (d : Int)) % (s.cfg.p : Int)))

/-- The inverse law (R158). -/
def Obligations.MdsgenMatricesAreInverse : Prop :=
  ∀ (s t : State) (rs1 rs2 : VReg), s.cfg.Valid → exec (.mdsgen rs1 rs2) s = .next t → t.errcode = 0x00#8 →
    Spec.ProductIsIdentity t.cfg.p t.regs.m t.regs.mi ∧ Spec.ProductIsIdentity t.cfg.p t.regs.mi t.regs.m

/-- KRND (R191). -/
def Obligations.KrndRule : Prop :=
  ∀ (rd rs1 : VReg) (i : Nat),
    (i < 256 → decode (Spec.commandWord 0x20 rd rs1 0 i) = .ok (.krnd rd rs1 i)) ∧
    ∀ s : State, s.fatal = false →
      (s.operands.mvalid = false → exec (.krnd rd rs1 i) s = .next (Spec.failed s 0x03#8)) ∧
      (s.operands.mvalid = true →
        (¬ (1 ≤ i ∧ i < s.operands.roundCount) →
          exec (.krnd rd rs1 i) s = .next (Spec.failed s 0x05#8)) ∧
        (1 ≤ i → i < s.operands.roundCount →
          (¬ (Vec.Below s.cfg.p s.operands.v[rs1] ∧ Vec.Below s.cfg.p (tableRow s.operands.rc i)) →
            exec (.krnd rd rs1 i) s = .next (Spec.failed s 0x02#8)) ∧
          (s.cfg.Valid → Vec.Below s.cfg.p s.operands.v[rs1] → Vec.Below s.cfg.p (tableRow s.operands.rc i) →
            exec (.krnd rd rs1 i) s = .next (Spec.completed s (Spec.withV s.regs rd
              (Spec.round s.cfg s.operands.m i s.operands.v[rs1] (tableRow s.operands.rc i)))))))

/-- ERND (R193). -/
def Obligations.ErndRule : Prop :=
  ∀ (rd rs1 : VReg) (i : Nat),
    (i < 256 → decode (Spec.commandWord 0x21 rd rs1 0 i) = .ok (.ernd rd rs1 i)) ∧
    ∀ s : State, s.fatal = false →
      (s.operands.mvalid = false → exec (.ernd rd rs1 i) s = .next (Spec.failed s 0x03#8)) ∧
      (s.operands.mvalid = true →
        (s.operands.skvalid = false → exec (.ernd rd rs1 i) s = .next (Spec.failed s 0x04#8)) ∧
        (s.operands.skvalid = true → ¬ (1 ≤ i ∧ i < s.operands.roundCount) →
          exec (.ernd rd rs1 i) s = .next (Spec.failed s 0x05#8)) ∧
        (s.operands.skvalid = true → 1 ≤ i → i < s.operands.roundCount →
          (¬ (Vec.Below s.cfg.p s.operands.v[rs1]) →
            exec (.ernd rd rs1 i) s = .next (Spec.failed s 0x02#8)) ∧
          (s.cfg.Valid → Vec.Below s.cfg.p s.operands.v[rs1] →
            exec (.ernd rd rs1 i) s = .next (Spec.completed s (Spec.withV s.regs rd
              (Spec.round s.cfg s.operands.m i s.operands.v[rs1] (tableRow s.operands.sk i)))))))

/-- DRND (R194). -/
def Obligations.DrndRule : Prop :=
  (∀ (c : Params) (m mi : Mat) (i : Nat) (v k : Vec), c.Valid → Spec.ProductIsIdentity c.p mi m →
    Vec.Below c.p v → Spec.unround c mi i (Spec.round c m i v k) k = v) ∧
  ∀ (rd rs1 : VReg) (i : Nat),
    (i < 256 → decode (Spec.commandWord 0x22 rd rs1 0 i) = .ok (.drnd rd rs1 i)) ∧
    ∀ s : State, s.fatal = false →
      (s.operands.mvalid = false → exec (.drnd rd rs1 i) s = .next (Spec.failed s 0x03#8)) ∧
      (s.operands.mvalid = true →
        (s.operands.skvalid = false → exec (.drnd rd rs1 i) s = .next (Spec.failed s 0x04#8)) ∧
        (s.operands.skvalid = true → ¬ (1 ≤ i ∧ i < s.operands.roundCount) →
          exec (.drnd rd rs1 i) s = .next (Spec.failed s 0x05#8)) ∧
        (s.operands.skvalid = true → 1 ≤ i → i < s.operands.roundCount →
          (¬ (Vec.Below s.cfg.p s.operands.v[rs1]) →
            exec (.drnd rd rs1 i) s = .next (Spec.failed s 0x02#8)) ∧
          (s.cfg.Valid → Vec.Below s.cfg.p s.operands.v[rs1] →
            exec (.drnd rd rs1 i) s = .next (Spec.completed s (Spec.withV s.regs rd
              (Spec.unround s.cfg s.operands.mi i s.operands.v[rs1] (tableRow s.operands.sk i)))))))

/-- KSCHED (R192). -/
def Obligations.KschedRule : Prop :=
  ∀ rs1 : VReg, decode (Spec.commandWord 0x28 0 rs1 0 0) = .ok (.ksched rs1) ∧
    ∀ s : State, s.fatal = false →
      (s.operands.mvalid = false → exec (.ksched rs1) s = .next (Spec.failed s 0x03#8)) ∧
      (s.operands.mvalid = true → Spec.TablesFull s.cfg s.operands →
        (¬ (Vec.Below s.cfg.p s.operands.v[rs1] ∧ Spec.RowsCanonical s.cfg s.operands) →
          exec (.ksched rs1) s = .next (Spec.failed s 0x02#8)) ∧
        (s.cfg.Valid → Vec.Below s.cfg.p s.operands.v[rs1] → Spec.RowsCanonical s.cfg s.operands →
          exec (.ksched rs1) s = .next (Spec.completed s
            { s.regs with sk := Spec.subkeyTable s.cfg s.operands s.operands.v[rs1], skvalid := true })))

/-- ENC (R195). -/
def Obligations.EncRule : Prop :=
  ∀ rd rs1 rs2 : VReg, decode (Spec.commandWord 0x29 rd rs1 rs2 0) = .ok (.enc rd rs1 rs2) ∧
    ∀ s : State, s.fatal = false →
      (s.operands.mvalid = false → exec (.enc rd rs1 rs2) s = .next (Spec.failed s 0x03#8)) ∧
      (s.operands.mvalid = true → Spec.TablesFull s.cfg s.operands →
        (¬ (Vec.Below s.cfg.p s.operands.v[rs1] ∧ Vec.Below s.cfg.p s.operands.v[rs2] ∧ Spec.RowsCanonical s.cfg s.operands) →
          exec (.enc rd rs1 rs2) s = .next (Spec.failed s 0x02#8)) ∧
        (s.cfg.Valid → Vec.Below s.cfg.p s.operands.v[rs1] → Vec.Below s.cfg.p s.operands.v[rs2] → Spec.RowsCanonical s.cfg s.operands →
          exec (.enc rd rs1 rs2) s = .next (Spec.completed s
            { Spec.withV s.regs rd (Spec.encrypt s.cfg s.operands s.operands.v[rs1] s.operands.v[rs2]) with
              sk := Spec.subkeyTable s.cfg s.operands s.operands.v[rs2], skvalid := true })))

/-- DEC (R196). -/
def Obligations.DecRule : Prop :=
  ∀ rd rs1 rs2 : VReg, decode (Spec.commandWord 0x2A rd rs1 rs2 0) = .ok (.dec rd rs1 rs2) ∧
    ∀ s : State, s.fatal = false →
      (s.operands.mvalid = false → exec (.dec rd rs1 rs2) s = .next (Spec.failed s 0x03#8)) ∧
      (s.operands.mvalid = true → Spec.TablesFull s.cfg s.operands →
        (¬ (Vec.Below s.cfg.p s.operands.v[rs1] ∧ Vec.Below s.cfg.p s.operands.v[rs2] ∧ Spec.RowsCanonical s.cfg s.operands) →
          exec (.dec rd rs1 rs2) s = .next (Spec.failed s 0x02#8)) ∧
        (s.cfg.Valid → Vec.Below s.cfg.p s.operands.v[rs1] → Vec.Below s.cfg.p s.operands.v[rs2] → Spec.RowsCanonical s.cfg s.operands →
          exec (.dec rd rs1 rs2) s = .next (Spec.completed s
            { Spec.withV s.regs rd (Spec.decrypt s.cfg s.operands s.operands.v[rs1] s.operands.v[rs2]) with
              sk := Spec.subkeyTable s.cfg s.operands s.operands.v[rs2], skvalid := true })))

/-- Decode and encode agree on every well-formed command: no operand bit is dropped. -/
def Obligations.DecodeOfEncode : Prop :=
  ∀ i : Instr, i.WellFormed → decode (encode i) = .ok i

/-- One spelling per command (R93). -/
def Obligations.LegalCommandHasOneSpelling : Prop :=
  ∀ (w : Word) (i : Instr), decode w = .ok i → i.WellFormed ∧ w = encode i

/-- Decoding against spec/opcode_table.json (R101). -/
def Obligations.DecodeMatchesOpcodeTable : Prop :=
  ∀ w : Word,
    (∀ i, decode w = .ok i → w = encode i ∧
      ∃ row ∈ opcodeTable, row.name = i.mnemonic ∧ w &&& row.mask = row.pattern) ∧
    ((∃ row ∈ opcodeTable, w &&& row.mask = row.pattern) → ∃ i, decode w = .ok i) ∧
    (∀ row ∈ opcodeTable, ∀ row' ∈ opcodeTable,
      w &&& row.mask = row.pattern → w &&& row'.mask = row'.pattern → row = row') ∧
    (rsvField w ≠ 0#4 → decode w = .error .reservedBits) ∧
    (rsvField w = 0#4 → (∀ row ∈ opcodeTable, opcField w ≠ opcField row.pattern) →
      decode w = .error .reservedOpcode) ∧
    (rsvField w = 0#4 → (∃ row ∈ opcodeTable, opcField w = opcField row.pattern) →
      (∀ row ∈ opcodeTable, w &&& row.mask ≠ row.pattern) → decode w = .error .unusedField)

/-- The examples of R102. -/
def Obligations.ExampleWordsDecode : Prop :=
  (decode 0x00021301#32 = .ok (.vadd 3 1 2) ∧ asmText (.vadd 3 1 2) = "VADD v3, v1, v2") ∧
  (decode 0x00201110#32 = .ok (.addrc 1 1 2) ∧ asmText (.addrc 1 1 2) = "ADDRC v1, v1, #2") ∧
  (decode 0x00010018#32 = .ok (.mdsgen 0 1) ∧ asmText (.mdsgen 0 1) = "MDSGEN v0, v1") ∧
  (decode 0x00002028#32 = .ok (.ksched 2) ∧ asmText (.ksched 2) = "KSCHED v2") ∧
  (decode 0x00010229#32 = .ok (.enc 2 0 1) ∧ asmText (.enc 2 0 1) = "ENC v2, v0, v1") ∧
  (decode 0x0001232A#32 = .ok (.dec 3 2 1) ∧ asmText (.dec 3 2 1) = "DEC v3, v2, v1") ∧
  (decode 0x00304421#32 = .ok (.ernd 4 4 3) ∧ asmText (.ernd 4 4 3) = "ERND v4, v4, #3")

/-- A step runs the decoded command (R19, R281). The list of moves is the model's choice, notes/assumptions/2.md and 3.md. -/
def Obligations.StepRunsDecodedCommand : Prop :=
  ∀ (s : State) (i : Instr),
    (∀ f, s.inflight = some f → decode f.cmd = .ok i →
      (s.inputs = [] → step s = exec i s) ∧
      (∀ rest, s.inputs = .complete :: rest → step s = exec i { s with inputs := rest })) ∧
    (∀ w : Word, decode w = .ok i →
      step (s.withFetchWord 32 w.toNat) = exec i { acceptCommand s w with inReset := false })

/-- ILLEGAL words (R95). -/
def Obligations.IllegalWordIsAcceptedAndFails : Prop :=
  (∀ w : Word, (opcField w).toNat ∈ [0x06, 0x07, 0x0A, 0x0B, 0x0E, 0x0F] ++ List.range' 0x13 5 ++
      List.range' 0x19 7 ++ List.range' 0x23 5 ++ List.range' 0x2B 213 → ∃ e, decode w = .error e) ∧
  ∀ (w : Word) (e : Reject) (s : State), decode w = .error e → s.busy = false →
    ∃ t, hostAccess (.write .word 0x0000C#18 w) s = t ∧ t.busy = true ∧ t.cmdreg = w ∧
      (s.fatal = false → completeInFlight t = .next (Spec.failed t 0x01#8))

/-- The FATAL lock on commands (R245). -/
def Obligations.LockedCompletesEveryWord : Prop :=
  ∀ s : State, s.fatal = true →
    (∀ i : Instr, exec i s = .next (Spec.failed s 0x09#8)) ∧
    ∀ f e, s.inflight = some f → decode f.cmd = .error e →
      completeInFlight s = .next (Spec.failed s 0x09#8)

/-- Errors are precise (R244). -/
def Obligations.ErrorsWriteStatusOnly : Prop :=
  ∀ (i : Instr) (s t : State), exec i s = .next t → t.errcode ≠ 0x00#8 →
    t = { s with
      errcode := t.errcode, done := true, inflight := none
      fatal := s.fatal || t.errcode == 0x08#8 }

/-- The priority of errors (R243) over the table of causes (R242), with R155 and R172 for SINGULAR and CONSTRAINT. -/
def Obligations.FirstErrorByPriority : Prop :=
  ∀ (i : Instr) (s : State), s.cfg.Valid →
    ∃ t, exec i s = .next t ∧ t.errcode = Spec.firstErrorCode i s

/-- The frame of every command, through the window (R100, column "writes"). -/
def Obligations.CommandFrameThroughWindow : Prop :=
  ∀ (i : Instr) (s t : State), exec i s = .next t →
    ∀ (a : BitVec 18) (g : Target), busTarget s.cfg .word a = some g → g ≠ .status → g ≠ .errcode →
      (∀ slot k, g = .limb slot k → ¬ Spec.writesSlot i slot) →
      busTarget t.cfg .word a = some g ∧ readTarget t g = readTarget s g

/-- The interrupt output (R248). -/
def Obligations.IrqFollowsDoneAndIe : Prop :=
  ∀ s : State,
    (s.irq = true ↔ s.done = true ∧ s.ie = true) ∧
    (∀ i t, exec i s = .next t → t.irq = s.ie) ∧
    (∀ d : Word, s.busy = false →
      (hostAccess (.write .word 0x00008#18 d) s).irq = (s.done && d.getLsbD 16)) ∧
    (∀ d : Word, d.getLsbD 1 = true → (hostAccess (.write .word 0x00010#18 d) s).irq = false) ∧
    (∀ d : Word, s.busy = false → (hostAccess (.write .word 0x0000C#18 d) s).irq = false) ∧
    (∀ level, (resetTo level s).irq = false)

/-- The invariants hold at reset. The parameters are the model's opaque choice, notes/assumptions/1.md. -/
def Obligations.ResetMeetsInvariants : Prop :=
  Spec.StoreOk State.reset ∧ Spec.MatrixOk State.reset ∧ Spec.SubkeysOk State.reset ∧ Spec.StatusOk State.reset

/-- R20, R23, R25 to R27 and R40 as one invariant. -/
def Obligations.StepKeepsStore : Prop :=
  ∀ s t : State, Spec.StoreOk s → step s = .next t → Spec.StoreOk t

/-- R42 as an invariant of every step. -/
def Obligations.StepKeepsMatrixInverse : Prop :=
  ∀ s t : State, Spec.StoreOk s → Spec.MatrixOk s → step s = .next t → Spec.MatrixOk t

/-- R43 as an invariant of every step. -/
def Obligations.StepKeepsSubkeysConsistent : Prop :=
  ∀ s t : State, Spec.StoreOk s → Spec.SubkeysOk s → step s = .next t → Spec.SubkeysOk t

/-- R28, R35, R37, R39, R242, R244, R245 and R270 as one invariant. -/
def Obligations.StepKeepsStatusDiscipline : Prop :=
  ∀ s t : State, Spec.StoreOk s → Spec.StatusOk s → step s = .next t → Spec.StatusOk t

/-- R35 and R38 over every step. A release move while reset is not asserted counts as a reset by the model's choice, notes/assumptions/13.md. -/
def Obligations.FatalAndMvalidTransitions : Prop :=
  ∀ s t : State, step s = .next t →
    ((s.fatal = true ∧ t.fatal = false) ∨ (s.regs.mvalid = true ∧ t.regs.mvalid = false) →
      ∃ rest, s.inputs = .assertReset :: rest ∨ s.inputs = .releaseReset :: rest) ∧
    (s.fatal = false → t.fatal = true → t.errcode = 0x08#8) ∧
    (s.regs.mvalid = false → t.regs.mvalid = true →
      ∃ f rs1 rs2, s.inflight = some f ∧ decode f.cmd = .ok (.mdsgen rs1 rs2) ∧ t.errcode = 0x00#8)

/-- R25, R26 and R199 over every step. A release move while reset is not asserted counts as a reset by the model's choice, notes/assumptions/13.md. -/
def Obligations.MatricesAndSubkeysHaveOneWriter : Prop :=
  ∀ s t : State, step s = .next t →
    (t.regs.m ≠ s.regs.m ∨ t.regs.mi ≠ s.regs.mi →
      (∃ rest, s.inputs = .assertReset :: rest ∨ s.inputs = .releaseReset :: rest) ∨
      ∃ f rs1 rs2, s.inflight = some f ∧ decode f.cmd = .ok (.mdsgen rs1 rs2) ∧ t.errcode = 0x00#8) ∧
    (t.regs.sk ≠ s.regs.sk →
      (∃ rest, s.inputs = .assertReset :: rest ∨ s.inputs = .releaseReset :: rest) ∨
      ∃ f i, s.inflight = some f ∧ decode f.cmd = .ok i ∧ t.errcode = 0x00#8 ∧
        ((∃ rs1, i = .ksched rs1) ∨ (∃ rd rs1 rs2, i = .enc rd rs1 rs2) ∨ ∃ rd rs1 rs2, i = .dec rd rs1 rs2))

/-- R37 over every step. That only a write to an RC limb with storage (`k < s.cfg.limbs`) clears SKVALID is
the model's reading of R64 ("A write that applies to an RC slot") and R37 ("any RC element"),
notes/assumptions/11.md.
A release move while reset is not asserted counts as a reset by the model's choice, notes/assumptions/13.md. -/
def Obligations.SkvalidTransitions : Prop :=
  ∀ s t : State, step s = .next t →
    (s.regs.skvalid = false → t.regs.skvalid = true →
      ∃ f i, s.inflight = some f ∧ decode f.cmd = .ok i ∧ t.errcode = 0x00#8 ∧
        ((∃ rs1, i = .ksched rs1) ∨ (∃ rd rs1 rs2, i = .enc rd rs1 rs2) ∨ ∃ rd rs1 rs2, i = .dec rd rs1 rs2)) ∧
    (s.regs.skvalid = true → t.regs.skvalid = false →
      (∃ f rs1 rs2, s.inflight = some f ∧ decode f.cmd = .ok (.mdsgen rs1 rs2) ∧ t.errcode = 0x00#8) ∨
      (∃ a d rest i j k, s.inputs = .access (.write .word a d) :: rest ∧ s.busy = false ∧
        busTarget s.cfg .word a = some (.limb (.rc i j) k) ∧ k < s.cfg.limbs) ∨
      (∃ d rest, s.inputs = .access (.write .word 0x00008#18 d) :: rest ∧ s.busy = false ∧
        t.regs.rounds ≠ s.regs.rounds) ∨
      ∃ rest, s.inputs = .assertReset :: rest ∨ s.inputs = .releaseReset :: rest)

/-- R240, R247 and R272: nothing else stops the block. The refusal is the reading of R272 in notes/assumptions/12.md. -/
def Obligations.OnlyStopIsAccessDuringReset : Prop :=
  ∀ s : State,
    (s.inReset = true → ∀ a rest, s.inputs = .access a :: rest → step s = .refused .accessDuringReset) ∧
    (¬ (s.inReset = true ∧ ∃ a rest, s.inputs = .access a :: rest) → ∃ t, step s = .next t ∧ t.cfg = s.cfg)

/-- Bus errors (R61, R72, R247). -/
def Obligations.BusErrorHasNoEffect : Prop :=
  ∀ (s : State) (shape : Shape) (a : BitVec 18),
    shape ≠ .word ∨ a.toNat % 4 ≠ 0 ∨ Spec.Unmapped s.cfg a.toNat →
    hostAccess (.read shape a) s = { s with resp := some (.readError 0#32) } ∧
    ∀ d, hostAccess (.write shape a d) s = { s with resp := some .writeError }

/-- The control registers as the host reads them (R27 to R32), and the STATUS write (R29). -/
def Obligations.ControlRegisterReads : Prop :=
  ∀ s : State,
    let rd (a : BitVec 18) (w : Word) : Prop :=
      hostAccess (.read .word a) s = { s with resp := some (.readOkay w) }
    let bit (b : Bool) : Nat := b.toNat
    rd 0x00000#18 0x52455343#32 ∧
    rd 0x00004#18 (BitVec.ofNat 32 (3 + s.cfg.rmax % 256 * 2 ^ 8 + s.cfg.width % 2 ^ 16 * 2 ^ 16)) ∧
    rd 0x00008#18 (BitVec.ofNat 32 (s.regs.rounds.toNat + bit s.ie * 2 ^ 16)) ∧
    rd 0x0000C#18 s.cmdreg ∧
    rd 0x00010#18 (BitVec.ofNat 32 (bit s.busy + bit s.done * 2 + bit (s.errcode != 0x00#8) * 2 ^ 2 +
      bit s.regs.mvalid * 2 ^ 3 + bit s.regs.skvalid * 2 ^ 4 + bit s.fatal * 2 ^ 5 + bit s.lost * 2 ^ 6)) ∧
    rd 0x00014#18 (BitVec.ofNat 32 s.errcode.toNat) ∧
    ∀ d, hostAccess (.write .word 0x00010#18 d) s =
      { s with
        done := s.done && !d.getLsbD 1, lost := s.lost && !d.getLsbD 6
        resp := some .writeOkay }

/-- The element slots of the map (R67 to R71). -/
def Obligations.ElementAddressMap : Prop :=
  ∀ c : Params, c.rmax ≤ 256 →
    (∀ (r : VReg) (i j : Lane) (n : Nat),
      slotBase (.v r j) = 0x01000 + 0xC0 * r.val + 0x40 * j.val ∧
      slotBase (.m i j) = 0x02000 + 0xC0 * i.val + 0x40 * j.val ∧
      slotBase (.mi i j) = 0x02400 + 0xC0 * i.val + 0x40 * j.val ∧
      slotBase .pmod = 0x02800 ∧ slotBase .einv = 0x02840 ∧
      slotBase (.rc n j) = 0x10000 + 0xC0 * n + 0x40 * j.val ∧
      slotBase (.sk n j) = 0x20000 + 0xC0 * n + 0x40 * j.val) ∧
    (∀ (slot : Slot) (k : Nat), Spec.SlotExists c slot → k < 16 →
      slotBase slot + 4 * k < 2 ^ 18 ∧ target c (slotBase slot + 4 * k) = some (.limb slot k)) ∧
    (∀ (a : Nat) (slot : Slot) (k : Nat), a % 4 = 0 → target c a = some (.limb slot k) →
      Spec.SlotExists c slot ∧ k < 16 ∧ a = slotBase slot + 4 * k) ∧
    (∀ a : Nat, Spec.Unmapped c a → target c a = none) ∧
    (∀ (s : State) (a : BitVec 18) (slot : Slot) (k : Nat) (d : Word),
      busTarget s.cfg .word a = some (.limb slot k) → Spec.ReadOnlySlot slot →
      hostAccess (.write .word a d) s = { s with lost := s.lost || s.busy, resp := some .writeOkay })

/-- Reading an element limb (R65). -/
def Obligations.LimbReadBits : Prop :=
  ∀ (s : State) (a : BitVec 18) (slot : Slot) (k : Nat), s.cfg.Valid → Memory.wf s.cfg s.regs →
    busTarget s.cfg .word a = some (.limb slot k) →
    ∃ w : Word, hostAccess (.read .word a) s = { s with resp := some (.readOkay w) } ∧
      (k < s.cfg.limbs → ∀ b, b < 32 →
        w.getLsbD b = (slotElem s.cfg s.regs slot).testBit (32 * k + b) ∧
        (s.cfg.width ≤ 32 * k + b → w.getLsbD b = false)) ∧
      (s.cfg.limbs ≤ k → w = 0#32)

/-- Writing an element limb (R64). That a write to a limb `k >= L` of an RC slot keeps SKVALID is the model's
reading of R64 and R37, notes/assumptions/11.md. -/
def Obligations.LimbWriteBits : Prop :=
  ∀ (s : State) (a : BitVec 18) (slot : Slot) (k : Nat) (d : Word), s.cfg.Valid → Memory.wf s.cfg s.regs →
    busTarget s.cfg .word a = some (.limb slot k) → ¬ Spec.ReadOnlySlot slot →
    (s.busy = true → (hostAccess (.write .word a d) s).regs = s.regs) ∧
    (s.busy = false → s.cfg.limbs ≤ k →
      hostAccess (.write .word a d) s = { s with resp := some .writeOkay }) ∧
    (s.busy = false → k < s.cfg.limbs →
      ∃ x : Regs, hostAccess (.write .word a d) s = { s with regs := x, resp := some .writeOkay } ∧
        (∀ n, (slotElem s.cfg x slot).testBit n =
          (decide (n < s.cfg.width) &&
            if 32 * k ≤ n ∧ n < 32 * k + 32 then d.getLsbD (n - 32 * k)
            else (slotElem s.cfg s.regs slot).testBit n)) ∧
        (∀ other, other ≠ slot → slotElem s.cfg x other = slotElem s.cfg s.regs other) ∧
        x.rounds = s.regs.rounds ∧ x.mvalid = s.regs.mvalid ∧
        (∀ i j, slot = .rc i j → x.skvalid = false) ∧
        (∀ r j, slot = .v r j → x.skvalid = s.regs.skvalid))

/-- CFG (R27). -/
def Obligations.CfgWriteRule : Prop :=
  (∀ c, (State.resetWith c).regs.rounds = 1#9 ∧ (State.resetWith c).ie = false) ∧
  ∀ (s : State) (d : Word),
    hostAccess (.read .word 0x00008#18) s =
      { s with resp := some (.readOkay (BitVec.ofNat 32 (s.regs.rounds.toNat + s.ie.toNat * 2 ^ 16))) } ∧
    (s.busy = false →
      ∃ r : BitVec 9,
        hostAccess (.write .word 0x00008#18 d) s =
          { s with
            regs := { s.regs with rounds := r, skvalid := s.regs.skvalid && r == s.regs.rounds }
            ie := d.getLsbD 16, resp := some .writeOkay } ∧
        (1 ≤ d.toNat % 2 ^ 9 ∧ d.toNat % 2 ^ 9 ≤ s.cfg.rmax → r.toNat = d.toNat % 2 ^ 9) ∧
        (¬ (1 ≤ d.toNat % 2 ^ 9 ∧ d.toNat % 2 ^ 9 ≤ s.cfg.rmax) → r = s.regs.rounds))

/-- CMD (R28) and acceptance (R76). -/
def Obligations.CmdWriteAccepts : Prop :=
  ∀ (s : State) (d : Word),
    (s.busy = false → hostAccess (.write .word 0x0000C#18 d) s =
      { s with
        cmdreg := d, inflight := some { cmd := d, snapshot := s.regs }, done := false
        resp := some .writeOkay }) ∧
    (s.busy = true → hostAccess (.write .word 0x0000C#18 d) s =
      { s with lost := true, resp := some .writeOkay }) ∧
    hostAccess (.read .word 0x0000C#18) s = { s with resp := some (.readOkay s.cmdreg) } ∧
    (∀ t, completeInFlight s = .next t → t.cmdreg = s.cmdreg) ∧
    ∀ c, (State.resetWith c).cmdreg = 0#32 ∧ decode 0#32 = .ok .nop

/-- Writes while a command is in flight (R74). -/
def Obligations.BusyWindowDropsWrites : Prop :=
  ∀ s : State, s.busy = true →
    (∀ (a : BitVec 18) (g : Target) (d : Word), busTarget s.cfg .word a = some g →
      (g ≠ .status → hostAccess (.write .word a d) s = { s with lost := true, resp := some .writeOkay }) ∧
      (g = .status → hostAccess (.write .word a d) s =
        { s with
          done := s.done && !d.getLsbD 1, lost := s.lost && !d.getLsbD 6
          resp := some .writeOkay })) ∧
    (∀ (shape : Shape) (a : BitVec 18) (d : Word), busTarget s.cfg shape a = none →
      hostAccess (.write shape a d) s = { s with resp := some .writeError }) ∧
    ∀ (x : Access), ∃ done lost resp,
      hostAccess x s = { s with done := done, lost := lost, resp := resp }

/-- Both outcomes of the write-while-busy race (93 U8). The list of moves is the model's choice, notes/assumptions/2.md. -/
def Obligations.WriteAndCompletionRace : Prop :=
  ∀ (s t : State) (f : InFlight) (i : Instr) (a : BitVec 18) (g : Target) (d : Word),
    s.inReset = false → s.inflight = some f → decode f.cmd = .ok i →
    busTarget s.cfg .word a = some g → g ≠ .status → exec i { s with inputs := [] } = .next t →
    Host.Core.run core 2 { s with inputs := [.access (.write .word a d), .complete] } =
      .next { t with lost := true, resp := some .writeOkay } ∧
    Host.Core.run core 2 { s with inputs := [.complete, .access (.write .word a d)] } =
      .next (hostAccess (.write .word a d) t) ∧ t.busy = false

/-- The reset input (R270) and what it leaves (R41, R271). That `releaseReset` gives the reset state where reset
is not asserted is the model's choice, notes/assumptions/13.md; `resp := none` is that of 9.md. -/
def Obligations.ResetInputGivesResetState : Prop :=
  ∀ (s : State) (rest : List Event),
    let afterReset (level : Bool) : State :=
      { cfg := s.cfg
        regs :=
          { v := Vector.replicate 16 ⟨0, 0, 0⟩
            rc := List.replicate s.cfg.rmax ⟨0, 0, 0⟩, sk := List.replicate s.cfg.rmax ⟨0, 0, 0⟩
            m := ⟨⟨0, 0, 0⟩, ⟨0, 0, 0⟩, ⟨0, 0, 0⟩⟩, mi := ⟨⟨0, 0, 0⟩, ⟨0, 0, 0⟩, ⟨0, 0, 0⟩⟩
            rounds := 1#9, mvalid := false, skvalid := false }
        ie := false, cmdreg := 0#32, done := false, fatal := false, lost := false, errcode := 0#8
        inflight := none, inReset := level, inputs := rest, resp := none }
    (s.inputs = .assertReset :: rest → step s = .next (afterReset true)) ∧
    (s.inputs = .releaseReset :: rest → step s = .next (afterReset false)) ∧
    ∀ level, (afterReset level).busy = false ∧ (afterReset level).irq = false

/-- Weak fairness of completion (R281): BUSY falls, by a completion or by a reset move that aborts the command
(R271). The list of moves is the model's choice, notes/assumptions/2.md. -/
def Obligations.BlockBecomesIdle : Prop :=
  ∀ s : State, s.inReset = false →
    ∃ n t, n ≤ s.inputs.length + 1 ∧ Host.Core.run core n s = .next t ∧ t.busy = false

/-- The round trip (R197), the primary correctness property of the cipher. -/
def Obligations.DecUndoesEnc : Prop :=
  ∀ (s : State) (rd rs1 rs2 : VReg), Spec.StoreOk s → Spec.MatrixOk s → s.fatal = false →
    s.regs.mvalid = true → Vec.Below s.cfg.p s.regs.v[rs1] → Vec.Below s.cfg.p s.regs.v[rs2] →
    Spec.RowsCanonical s.cfg s.regs →
    ∃ t, exec (.enc rd rs1 rs2) s = .next t ∧ t.errcode = 0x00#8 ∧
      ∀ (rd' k : VReg), t.regs.v[k] = s.regs.v[rs2] →
        ∃ u, exec (.dec rd' rd k) t = .next u ∧ u.errcode = 0x00#8 ∧ u.regs.v[rd'] = s.regs.v[rs1]

/-- ENC as single rounds (R200). -/
def Obligations.EncIsSingleRounds : Prop :=
  ∀ (s : State) (rd rs1 rs2 : VReg), Spec.StoreOk s → s.fatal = false → s.regs.mvalid = true →
    Vec.Below s.cfg.p s.regs.v[rs1] → Vec.Below s.cfg.p s.regs.v[rs2] → Spec.RowsCanonical s.cfg s.regs →
    ∃ t, exec (.enc rd rs1 rs2) s = .next t ∧ t.errcode = 0x00#8 ∧
      Spec.runAll (Spec.encSteps rd rs1 rs2 s.regs.roundCount) s = some t

/-- DEC as single rounds (R200). -/
def Obligations.DecIsSingleRounds : Prop :=
  ∀ (s : State) (rd rs1 rs2 : VReg), Spec.StoreOk s → s.fatal = false → s.regs.mvalid = true →
    Vec.Below s.cfg.p s.regs.v[rs1] → Vec.Below s.cfg.p s.regs.v[rs2] → Spec.RowsCanonical s.cfg s.regs →
    ∃ t, exec (.dec rd rs1 rs2) s = .next t ∧ t.errcode = 0x00#8 ∧
      Spec.runAll (Spec.decSteps rd rs1 rs2 s.regs.roundCount) s = some t

/-- Subkeys as single rounds (R200). -/
def Obligations.SubkeyIsSingleRounds : Prop :=
  ∀ (s : State) (rd rs1 : VReg) (i : Nat), Spec.StoreOk s → s.fatal = false → s.regs.mvalid = true →
    Vec.Below s.cfg.p s.regs.v[rs1] → Spec.RowsCanonical s.cfg s.regs → i < s.regs.roundCount →
    ∃ t u, exec (.ksched rs1) s = .next t ∧ t.errcode = 0x00#8 ∧
      Spec.runAll (Spec.subkeySteps rd rs1 i) s = some u ∧ u.errcode = 0x00#8 ∧
      u.regs.v[rd] = tableRow t.regs.sk i

/-- Determinism of the key schedule and the cipher (R198). -/
def Obligations.ScheduleDependsOnParametersAndKey : Prop :=
  ∀ (s s' : State), s.cfg = s'.cfg → s.fatal = s'.fatal → s.operands.mvalid = s'.operands.mvalid →
    s.operands.m = s'.operands.m → s.operands.mi = s'.operands.mi →
    s.operands.rounds = s'.operands.rounds →
    s.operands.rc.take s.operands.roundCount = s'.operands.rc.take s'.operands.roundCount →
    (∀ (k k' : VReg) (t t' : State), s.operands.v[k] = s'.operands.v[k'] →
      exec (.ksched k) s = .next t → exec (.ksched k') s' = .next t' →
      t.errcode = t'.errcode ∧ (t.errcode = 0x00#8 → t.regs.sk = t'.regs.sk)) ∧
    ∀ (rd rs k rd' rs' k' : VReg) (t t' : State), s.operands.v[k] = s'.operands.v[k'] →
      s.operands.v[rs] = s'.operands.v[rs'] →
      (exec (.enc rd rs k) s = .next t → exec (.enc rd' rs' k') s' = .next t' →
        t.errcode = t'.errcode ∧
        (t.errcode = 0x00#8 → t.regs.sk = t'.regs.sk ∧ t.regs.v[rd] = t'.regs.v[rd'])) ∧
      (exec (.dec rd rs k) s = .next t → exec (.dec rd' rs' k') s' = .next t' →
        t.errcode = t'.errcode ∧
        (t.errcode = 0x00#8 → t.regs.sk = t'.regs.sk ∧ t.regs.v[rd] = t'.regs.v[rd']))
end

