-- ==== Sys2Proof/Laws/Field.lean ====
section
/-! SUPPORT. The arithmetic of the block: each operation is the field operation of GF(P) on canonical
representatives (40_field_alu.md R120), powers by square and multiply are powers (42_sbox.md R173), and
the two S-boxes undo each other (R172). -/

namespace Sys2Proof.Laws

open Sys2Proof.Machine

/-! ### Powers -/

theorem powLoop_eq (p a : Nat) : ∀ fuel k : Nat, k < 2 ^ fuel → powLoop p a fuel k = a ^ k % p
  | 0, k, h => by
    have : k = 0 := by simpa using h
    subst this; simp [powLoop]
  | fuel + 1, k, h => by
    by_cases hk : k = 0
    · subst hk; simp [powLoop]
    · have ih := powLoop_eq p a fuel (k / 2) (by omega)
      have hsq : mulP p (powLoop p a fuel (k / 2)) (powLoop p a fuel (k / 2)) = a ^ (k / 2 + k / 2) % p := by
        rw [ih, mulP, ← Nat.mul_mod, ← pow_add]
      simp only [powLoop, hk, if_false, hsq]
      split
      · rename_i hodd
        rw [mulP, Nat.mod_mul_mod, ← pow_succ]
        congr 2; omega
      · congr 2; omega

/-- `powP(a,k) = a^k mod P` (R13): square and multiply computes the power (R173). -/
theorem powP_eq (p a k : Nat) : powP p a k = a ^ k % p :=
  powLoop_eq p a _ k (Nat.lt_log2_self)

/-! ### Canonical results (R23, R120) -/

theorem addP_lt {p : Nat} (hp : 0 < p) (a b : Nat) : addP p a b < p := Nat.mod_lt _ hp

theorem mulP_lt {p : Nat} (hp : 0 < p) (a b : Nat) : mulP p a b < p := Nat.mod_lt _ hp

theorem subP_lt {p : Nat} (hp : 0 < p) (a b : Nat) : subP p a b < p := by
  have h1 := Int.emod_nonneg ((a : Int) - b) (by omega : (p : Int) ≠ 0)
  have h2 := Int.emod_lt_of_pos ((a : Int) - b) (by omega : (0 : Int) < p)
  unfold subP; omega

theorem powP_lt {p : Nat} (hp : 0 < p) (a k : Nat) : powP p a k < p := by
  rw [powP_eq]; exact Nat.mod_lt _ hp

/-! ### The operations as field operations -/

section ZMod

variable {p : Nat}

theorem addP_cast (a b : Nat) : ((addP p a b : Nat) : ZMod p) = a + b := by
  simp [addP]

theorem mulP_cast (a b : Nat) : ((mulP p a b : Nat) : ZMod p) = a * b := by
  simp [mulP]

theorem subP_cast (hp : 0 < p) (a b : Nat) : ((subP p a b : Nat) : ZMod p) = a - b := by
  have h := Int.emod_nonneg ((a : Int) - b) (by omega : (p : Int) ≠ 0)
  have h2 : (((subP p a b : Nat) : Int) : ZMod p) = (((a : Int) - b : Int) : ZMod p) := by
    rw [subP, Int.toNat_of_nonneg h, ZMod.intCast_mod]
  simpa using h2

theorem powP_cast (a k : Nat) : ((powP p a k : Nat) : ZMod p) = (a : ZMod p) ^ k := by
  rw [powP_eq]; simp

theorem invP_cast (hp : p.Prime) (a : Nat) (ha : (a : ZMod p) ≠ 0) :
    ((invP p a : Nat) : ZMod p) = (a : ZMod p)⁻¹ := by
  have := Fact.mk hp
  rw [invP, powP_cast]
  have h : (a : ZMod p) ^ (p - 2) * a = 1 := by
    rw [← pow_succ, show p - 2 + 1 = p - 1 by have := hp.two_le; omega]
    exact ZMod.pow_card_sub_one_eq_one ha
  exact eq_inv_of_mul_eq_one_left h

/-- Two canonical values that are equal in the field are equal. -/
theorem eq_of_cast {a b : Nat} (ha : a < p) (hb : b < p) (h : (a : ZMod p) = b) : a = b := by
  have := (ZMod.natCast_eq_natCast_iff' a b p).1 h
  rwa [Nat.mod_eq_of_lt ha, Nat.mod_eq_of_lt hb] at this

theorem cast_ne_zero {a : Nat} (ha : a < p) (h0 : a ≠ 0) : (a : ZMod p) ≠ 0 := by
  intro h
  exact h0 (eq_of_cast ha (by omega) (by simpa using h))

end ZMod

/-! ### The S-box pair -/

/-- `v^(5*EINV) = v` in the field, 0 included (R172). -/
theorem pow_five_einv {c : Params} (hc : c.Valid) (a : ZMod c.p) : a ^ (5 * c.einv) = a := by
  obtain ⟨hp, h7, -, -, -, -, he1, -, hinv⟩ := hc
  have := Fact.mk hp
  by_cases ha : a = 0
  · subst ha; rw [zero_pow (by omega)]
  · have hk := Nat.div_add_mod (5 * c.einv) (c.p - 1)
    rw [hinv] at hk
    rw [← hk, pow_succ, pow_mul, ZMod.pow_card_sub_one_eq_one ha, one_pow, one_mul]

/-- `sbox1(isbox1(v)) = v` for canonical v (R172), so the self-check of R174 passes. -/
theorem sbox_of_isbox {c : Params} (hc : c.Valid) {a : Nat} (ha : a < c.p) :
    powP c.p (powP c.p a c.einv) 5 = a := by
  have hp := hc.1.pos
  refine eq_of_cast (powP_lt hp _ _) ha ?_
  rw [powP_cast, powP_cast, ← pow_mul, mul_comm, pow_five_einv hc]

/-- `isbox1(sbox1(v)) = v` for canonical v (R172). -/
theorem isbox_of_sbox {c : Params} (hc : c.Valid) {a : Nat} (ha : a < c.p) :
    powP c.p (powP c.p a 5) c.einv = a := by
  have hp := hc.1.pos
  refine eq_of_cast (powP_lt hp _ _) ha ?_
  rw [powP_cast, powP_cast, ← pow_mul, pow_five_einv hc]

end Sys2Proof.Laws
end

