-- ==== Sys2Proof/Laws/State.lean ====
section
/-! SUPPORT. One lemma per field for each record update of the model, and the small lemmas of vectors and
matrices, so that no later proof unfolds an update. -/

namespace Sys2Proof.Laws

open Sys2Proof.Machine

/-! ### Vectors and matrices -/

@[simp] theorem Vec.get_ofFn (f : Lane → Elem) (j : Lane) : (Vec.ofFn f).get j = f j := by
  fin_cases j <;> rfl

theorem Vec.ext_get {u v : Vec} (h : ∀ j, u.get j = v.get j) : u = v := by
  cases u; cases v
  simpa [Vec.mk.injEq, Vec.get] using And.intro (h 0) (And.intro (h 1) (h 2))

@[simp] theorem Vec.get_set (v : Vec) (j l : Lane) (e : Elem) :
    (v.set j e).get l = if l = j then e else v.get l := by
  simp [Vec.set]

@[simp] theorem Vec.get_zero (j : Lane) : Vec.zero.get j = 0 := by fin_cases j <;> rfl

@[simp] theorem Mat.row_ofFn (f : Lane → Lane → Elem) (i : Lane) : (Mat.ofFn f).row i = Vec.ofFn (f i) := by
  fin_cases i <;> rfl

@[simp] theorem Mat.get_ofFn (f : Lane → Lane → Elem) (i j : Lane) : (Mat.ofFn f).get i j = f i j := by
  simp [Mat.get]

@[simp] theorem Mat.get_zero (i j : Lane) : Mat.zero.get i j = 0 := by fin_cases i <;> fin_cases j <;> rfl

/-! ### Writes of the operand state -/

@[simp] theorem setV_v (x : Regs) (rd : VReg) (r : Vec) : (x.setV rd r).v = x.v.set rd r := rfl
@[simp] theorem setV_rc (x : Regs) (rd : VReg) (r : Vec) : (x.setV rd r).rc = x.rc := rfl
@[simp] theorem setV_sk (x : Regs) (rd : VReg) (r : Vec) : (x.setV rd r).sk = x.sk := rfl
@[simp] theorem setV_m (x : Regs) (rd : VReg) (r : Vec) : (x.setV rd r).m = x.m := rfl
@[simp] theorem setV_mi (x : Regs) (rd : VReg) (r : Vec) : (x.setV rd r).mi = x.mi := rfl
@[simp] theorem setV_rounds (x : Regs) (rd : VReg) (r : Vec) : (x.setV rd r).rounds = x.rounds := rfl
@[simp] theorem setV_mvalid (x : Regs) (rd : VReg) (r : Vec) : (x.setV rd r).mvalid = x.mvalid := rfl
@[simp] theorem setV_skvalid (x : Regs) (rd : VReg) (r : Vec) : (x.setV rd r).skvalid = x.skvalid := rfl

@[simp] theorem setMatrices_v (x : Regs) (a b : Mat) : (x.setMatrices a b).v = x.v := rfl
@[simp] theorem setMatrices_rc (x : Regs) (a b : Mat) : (x.setMatrices a b).rc = x.rc := rfl
@[simp] theorem setMatrices_sk (x : Regs) (a b : Mat) : (x.setMatrices a b).sk = x.sk := rfl
@[simp] theorem setMatrices_m (x : Regs) (a b : Mat) : (x.setMatrices a b).m = a := rfl
@[simp] theorem setMatrices_mi (x : Regs) (a b : Mat) : (x.setMatrices a b).mi = b := rfl
@[simp] theorem setMatrices_rounds (x : Regs) (a b : Mat) : (x.setMatrices a b).rounds = x.rounds := rfl
@[simp] theorem setMatrices_mvalid (x : Regs) (a b : Mat) : (x.setMatrices a b).mvalid = true := rfl
@[simp] theorem setMatrices_skvalid (x : Regs) (a b : Mat) : (x.setMatrices a b).skvalid = false := rfl

@[simp] theorem setSubkeys_v (x : Regs) (t : List Vec) : (x.setSubkeys t).v = x.v := rfl
@[simp] theorem setSubkeys_rc (x : Regs) (t : List Vec) : (x.setSubkeys t).rc = x.rc := rfl
@[simp] theorem setSubkeys_sk (x : Regs) (t : List Vec) : (x.setSubkeys t).sk = t := rfl
@[simp] theorem setSubkeys_m (x : Regs) (t : List Vec) : (x.setSubkeys t).m = x.m := rfl
@[simp] theorem setSubkeys_mi (x : Regs) (t : List Vec) : (x.setSubkeys t).mi = x.mi := rfl
@[simp] theorem setSubkeys_rounds (x : Regs) (t : List Vec) : (x.setSubkeys t).rounds = x.rounds := rfl
@[simp] theorem setSubkeys_mvalid (x : Regs) (t : List Vec) : (x.setSubkeys t).mvalid = x.mvalid := rfl
@[simp] theorem setSubkeys_skvalid (x : Regs) (t : List Vec) : (x.setSubkeys t).skvalid = true := rfl

/-! ### Updates of the state -/

@[simp] theorem commit_cfg (s : State) (e : Effect) : (s.commit e).cfg = s.cfg := rfl
@[simp] theorem commit_regs (s : State) (e : Effect) : (s.commit e).regs = applyEffect e s.regs := rfl
@[simp] theorem commit_ie (s : State) (e : Effect) : (s.commit e).ie = s.ie := rfl
@[simp] theorem commit_cmdreg (s : State) (e : Effect) : (s.commit e).cmdreg = s.cmdreg := rfl
@[simp] theorem commit_done (s : State) (e : Effect) : (s.commit e).done = true := rfl
@[simp] theorem commit_fatal (s : State) (e : Effect) : (s.commit e).fatal = s.fatal := rfl
@[simp] theorem commit_lost (s : State) (e : Effect) : (s.commit e).lost = s.lost := rfl
@[simp] theorem commit_errcode (s : State) (e : Effect) : (s.commit e).errcode = okCode := rfl
@[simp] theorem commit_inflight (s : State) (e : Effect) : (s.commit e).inflight = none := rfl
@[simp] theorem commit_inReset (s : State) (e : Effect) : (s.commit e).inReset = s.inReset := rfl
@[simp] theorem commit_inputs (s : State) (e : Effect) : (s.commit e).inputs = s.inputs := rfl
@[simp] theorem commit_resp (s : State) (e : Effect) : (s.commit e).resp = s.resp := rfl

@[simp] theorem raise_cfg (s : State) (c : ErrCode) : (s.raise c).cfg = s.cfg := rfl
@[simp] theorem raise_regs (s : State) (c : ErrCode) : (s.raise c).regs = s.regs := rfl
@[simp] theorem raise_ie (s : State) (c : ErrCode) : (s.raise c).ie = s.ie := rfl
@[simp] theorem raise_cmdreg (s : State) (c : ErrCode) : (s.raise c).cmdreg = s.cmdreg := rfl
@[simp] theorem raise_done (s : State) (c : ErrCode) : (s.raise c).done = true := rfl
@[simp] theorem raise_fatal (s : State) (c : ErrCode) :
    (s.raise c).fatal = (s.fatal || c == .constraint) := rfl
@[simp] theorem raise_lost (s : State) (c : ErrCode) : (s.raise c).lost = s.lost := rfl
@[simp] theorem raise_errcode (s : State) (c : ErrCode) : (s.raise c).errcode = c.code := rfl
@[simp] theorem raise_inflight (s : State) (c : ErrCode) : (s.raise c).inflight = none := rfl
@[simp] theorem raise_inReset (s : State) (c : ErrCode) : (s.raise c).inReset = s.inReset := rfl
@[simp] theorem raise_inputs (s : State) (c : ErrCode) : (s.raise c).inputs = s.inputs := rfl
@[simp] theorem raise_resp (s : State) (c : ErrCode) : (s.raise c).resp = s.resp := rfl

@[simp] theorem acceptCommand_cfg (s : State) (d : Word) : (acceptCommand s d).cfg = s.cfg := rfl
@[simp] theorem acceptCommand_regs (s : State) (d : Word) : (acceptCommand s d).regs = s.regs := rfl
@[simp] theorem acceptCommand_ie (s : State) (d : Word) : (acceptCommand s d).ie = s.ie := rfl
@[simp] theorem acceptCommand_cmdreg (s : State) (d : Word) : (acceptCommand s d).cmdreg = d := rfl
@[simp] theorem acceptCommand_done (s : State) (d : Word) : (acceptCommand s d).done = false := rfl
@[simp] theorem acceptCommand_fatal (s : State) (d : Word) : (acceptCommand s d).fatal = s.fatal := rfl
@[simp] theorem acceptCommand_lost (s : State) (d : Word) : (acceptCommand s d).lost = s.lost := rfl
@[simp] theorem acceptCommand_errcode (s : State) (d : Word) : (acceptCommand s d).errcode = s.errcode := rfl
@[simp] theorem acceptCommand_inflight (s : State) (d : Word) :
    (acceptCommand s d).inflight = some { cmd := d, snapshot := s.regs } := rfl
@[simp] theorem acceptCommand_inReset (s : State) (d : Word) : (acceptCommand s d).inReset = s.inReset := rfl
@[simp] theorem acceptCommand_inputs (s : State) (d : Word) : (acceptCommand s d).inputs = s.inputs := rfl
@[simp] theorem acceptCommand_resp (s : State) (d : Word) : (acceptCommand s d).resp = s.resp := rfl

@[simp] theorem writeStatus_cfg (s : State) (d : Word) : (s.writeStatus d).cfg = s.cfg := rfl
@[simp] theorem writeStatus_regs (s : State) (d : Word) : (s.writeStatus d).regs = s.regs := rfl
@[simp] theorem writeStatus_ie (s : State) (d : Word) : (s.writeStatus d).ie = s.ie := rfl
@[simp] theorem writeStatus_cmdreg (s : State) (d : Word) : (s.writeStatus d).cmdreg = s.cmdreg := rfl
@[simp] theorem writeStatus_done (s : State) (d : Word) :
    (s.writeStatus d).done = (s.done && !d.getLsbD 1) := rfl
@[simp] theorem writeStatus_fatal (s : State) (d : Word) : (s.writeStatus d).fatal = s.fatal := rfl
@[simp] theorem writeStatus_lost (s : State) (d : Word) :
    (s.writeStatus d).lost = (s.lost && !d.getLsbD 6) := rfl
@[simp] theorem writeStatus_errcode (s : State) (d : Word) : (s.writeStatus d).errcode = s.errcode := rfl
@[simp] theorem writeStatus_inflight (s : State) (d : Word) : (s.writeStatus d).inflight = s.inflight := rfl
@[simp] theorem writeStatus_inReset (s : State) (d : Word) : (s.writeStatus d).inReset = s.inReset := rfl
@[simp] theorem writeStatus_inputs (s : State) (d : Word) : (s.writeStatus d).inputs = s.inputs := rfl
@[simp] theorem writeStatus_resp (s : State) (d : Word) : (s.writeStatus d).resp = s.resp := rfl

@[simp] theorem writeCfg_cfg (s : State) (d : Word) : (s.writeCfg d).cfg = s.cfg := rfl
@[simp] theorem writeCfg_regs (s : State) (d : Word) :
    (s.writeCfg d).regs = { s.regs with rounds := nextRounds s.cfg.rmax s.regs.rounds d, skvalid := s.regs.skvalid && nextRounds s.cfg.rmax s.regs.rounds d == s.regs.rounds } := rfl
@[simp] theorem writeCfg_ie (s : State) (d : Word) : (s.writeCfg d).ie = d.getLsbD 16 := rfl
@[simp] theorem writeCfg_cmdreg (s : State) (d : Word) : (s.writeCfg d).cmdreg = s.cmdreg := rfl
@[simp] theorem writeCfg_done (s : State) (d : Word) : (s.writeCfg d).done = s.done := rfl
@[simp] theorem writeCfg_fatal (s : State) (d : Word) : (s.writeCfg d).fatal = s.fatal := rfl
@[simp] theorem writeCfg_lost (s : State) (d : Word) : (s.writeCfg d).lost = s.lost := rfl
@[simp] theorem writeCfg_errcode (s : State) (d : Word) : (s.writeCfg d).errcode = s.errcode := rfl
@[simp] theorem writeCfg_inflight (s : State) (d : Word) : (s.writeCfg d).inflight = s.inflight := rfl
@[simp] theorem writeCfg_inReset (s : State) (d : Word) : (s.writeCfg d).inReset = s.inReset := rfl
@[simp] theorem writeCfg_inputs (s : State) (d : Word) : (s.writeCfg d).inputs = s.inputs := rfl
@[simp] theorem writeCfg_resp (s : State) (d : Word) : (s.writeCfg d).resp = s.resp := rfl

@[simp] theorem dropWrite_cfg (s : State) : (s.dropWrite).cfg = s.cfg := rfl
@[simp] theorem dropWrite_regs (s : State) : (s.dropWrite).regs = s.regs := rfl
@[simp] theorem dropWrite_ie (s : State) : (s.dropWrite).ie = s.ie := rfl
@[simp] theorem dropWrite_cmdreg (s : State) : (s.dropWrite).cmdreg = s.cmdreg := rfl
@[simp] theorem dropWrite_done (s : State) : (s.dropWrite).done = s.done := rfl
@[simp] theorem dropWrite_fatal (s : State) : (s.dropWrite).fatal = s.fatal := rfl
@[simp] theorem dropWrite_lost (s : State) : (s.dropWrite).lost = true := rfl
@[simp] theorem dropWrite_errcode (s : State) : (s.dropWrite).errcode = s.errcode := rfl
@[simp] theorem dropWrite_inflight (s : State) : (s.dropWrite).inflight = s.inflight := rfl
@[simp] theorem dropWrite_inReset (s : State) : (s.dropWrite).inReset = s.inReset := rfl
@[simp] theorem dropWrite_inputs (s : State) : (s.dropWrite).inputs = s.inputs := rfl
@[simp] theorem dropWrite_resp (s : State) : (s.dropWrite).resp = s.resp := rfl

@[simp] theorem resetTo_cfg (s : State) (level : Bool) : (resetTo level s).cfg = s.cfg := rfl
@[simp] theorem resetTo_regs (s : State) (level : Bool) : (resetTo level s).regs = Regs.reset s.cfg := rfl
@[simp] theorem resetTo_ie (s : State) (level : Bool) : (resetTo level s).ie = false := rfl
@[simp] theorem resetTo_cmdreg (s : State) (level : Bool) : (resetTo level s).cmdreg = 0#32 := rfl
@[simp] theorem resetTo_done (s : State) (level : Bool) : (resetTo level s).done = false := rfl
@[simp] theorem resetTo_fatal (s : State) (level : Bool) : (resetTo level s).fatal = false := rfl
@[simp] theorem resetTo_lost (s : State) (level : Bool) : (resetTo level s).lost = false := rfl
@[simp] theorem resetTo_errcode (s : State) (level : Bool) : (resetTo level s).errcode = 0#8 := rfl
@[simp] theorem resetTo_inflight (s : State) (level : Bool) : (resetTo level s).inflight = none := rfl
@[simp] theorem resetTo_inReset (s : State) (level : Bool) : (resetTo level s).inReset = level := rfl
@[simp] theorem resetTo_inputs (s : State) (level : Bool) : (resetTo level s).inputs = s.inputs := rfl
@[simp] theorem resetTo_resp (s : State) (level : Bool) : (resetTo level s).resp = none := rfl

@[simp] theorem completed_cfg (s : State) (x : Regs) : (Spec.completed s x).cfg = s.cfg := rfl
@[simp] theorem completed_regs (s : State) (x : Regs) : (Spec.completed s x).regs = x := rfl
@[simp] theorem completed_ie (s : State) (x : Regs) : (Spec.completed s x).ie = s.ie := rfl
@[simp] theorem completed_cmdreg (s : State) (x : Regs) : (Spec.completed s x).cmdreg = s.cmdreg := rfl
@[simp] theorem completed_done (s : State) (x : Regs) : (Spec.completed s x).done = true := rfl
@[simp] theorem completed_fatal (s : State) (x : Regs) : (Spec.completed s x).fatal = s.fatal := rfl
@[simp] theorem completed_lost (s : State) (x : Regs) : (Spec.completed s x).lost = s.lost := rfl
@[simp] theorem completed_errcode (s : State) (x : Regs) : (Spec.completed s x).errcode = 0x00#8 := rfl
@[simp] theorem completed_inflight (s : State) (x : Regs) : (Spec.completed s x).inflight = none := rfl
@[simp] theorem completed_inReset (s : State) (x : Regs) : (Spec.completed s x).inReset = s.inReset := rfl
@[simp] theorem completed_inputs (s : State) (x : Regs) : (Spec.completed s x).inputs = s.inputs := rfl
@[simp] theorem completed_resp (s : State) (x : Regs) : (Spec.completed s x).resp = s.resp := rfl

@[simp] theorem failed_cfg (s : State) (code : BitVec 8) : (Spec.failed s code).cfg = s.cfg := rfl
@[simp] theorem failed_regs (s : State) (code : BitVec 8) : (Spec.failed s code).regs = s.regs := rfl
@[simp] theorem failed_ie (s : State) (code : BitVec 8) : (Spec.failed s code).ie = s.ie := rfl
@[simp] theorem failed_cmdreg (s : State) (code : BitVec 8) : (Spec.failed s code).cmdreg = s.cmdreg := rfl
@[simp] theorem failed_done (s : State) (code : BitVec 8) : (Spec.failed s code).done = true := rfl
@[simp] theorem failed_fatal (s : State) (code : BitVec 8) : (Spec.failed s code).fatal = s.fatal := rfl
@[simp] theorem failed_lost (s : State) (code : BitVec 8) : (Spec.failed s code).lost = s.lost := rfl
@[simp] theorem failed_errcode (s : State) (code : BitVec 8) : (Spec.failed s code).errcode = code := rfl
@[simp] theorem failed_inflight (s : State) (code : BitVec 8) : (Spec.failed s code).inflight = none := rfl
@[simp] theorem failed_inReset (s : State) (code : BitVec 8) : (Spec.failed s code).inReset = s.inReset := rfl
@[simp] theorem failed_inputs (s : State) (code : BitVec 8) : (Spec.failed s code).inputs = s.inputs := rfl
@[simp] theorem failed_resp (s : State) (code : BitVec 8) : (Spec.failed s code).resp = s.resp := rfl

end Sys2Proof.Laws
end

