-- ==== Sys2Proof/Laws/Vectors.lean ====
section
/-! SUPPORT. The vector operations are the spec's formulas, their results are canonical (R23), and the
MDS unit's matrices are inverse to each other and never singular (41_mds.md R155, R158). -/

namespace Sys2Proof.Laws

open Sys2Proof.Machine

/-! ### The shared operations and the spec's formulas -/

theorem vaddP_eq (p : Nat) (u v : Vec) : vaddP p u v = Spec.add p u v := rfl

theorem vsubP_eq (p : Nat) (u v : Vec) : vsubP p u v = Spec.sub p u v := rfl

theorem vmulP_eq (p : Nat) (u v : Vec) : vmulP p u v = Spec.mul p u v := rfl

theorem dotP_eq (p : Nat) (u v : Vec) : dotP p u v = Spec.dot p u v := by
  simp only [dotP, Spec.dot, Fin.sum_univ_three]
  rfl

theorem matvec_eq (p : Nat) (a : Mat) (v : Vec) : matvec p a v = Spec.matvec p a v := by
  refine Vec.ext_get fun i => ?_
  simp only [matvec, Spec.matvec, Vec.get_ofFn, Mat.get]
  exact dotP_eq p (a.row i) v

theorem sboxV_eq (p : Nat) (v : Vec) : sboxV p v = Spec.sbox p v := by
  simp only [sboxV, Spec.sbox, powP_eq]

theorem isboxV_eq (c : Params) (v : Vec) : isboxV c v = Spec.isbox c v := by
  simp only [isboxV, Spec.isbox, powP_eq]

/-! ### Canonical results -/

theorem canon_iff (c : Params) (v : Vec) : canon c v = true ↔ Vec.Below c.p v := by
  simp [canon, Vec.Below, Fin.forall_fin_succ, Vec.get, and_assoc]

theorem zero_below {n : Nat} (hn : 0 < n) : Vec.Below n Vec.zero := fun j => by simpa using hn

theorem vaddP_below {p : Nat} (hp : 0 < p) (u v : Vec) : Vec.Below p (vaddP p u v) := fun j => by
  simpa [vaddP] using addP_lt hp _ _

theorem vsubP_below {p : Nat} (hp : 0 < p) (u v : Vec) : Vec.Below p (vsubP p u v) := fun j => by
  simpa [vsubP] using subP_lt hp _ _

theorem vmulP_below {p : Nat} (hp : 0 < p) (u v : Vec) : Vec.Below p (vmulP p u v) := fun j => by
  simpa [vmulP] using mulP_lt hp _ _

theorem dotP_lt {p : Nat} (hp : 0 < p) (u v : Vec) : dotP p u v < p := Nat.mod_lt _ hp

theorem matvec_below {p : Nat} (hp : 0 < p) (a : Mat) (v : Vec) : Vec.Below p (matvec p a v) := fun j => by
  simpa [matvec] using dotP_lt hp _ _

theorem sboxV_below {p : Nat} (hp : 0 < p) (v : Vec) : Vec.Below p (sboxV p v) := fun j => by
  simpa [sboxV] using powP_lt hp _ _

theorem isboxV_below {c : Params} (hp : 0 < c.p) (v : Vec) : Vec.Below c.p (isboxV c v) := fun j => by
  simpa [isboxV] using powP_lt hp _ _

/-! ### The S-box pair on vectors (R172, R174) -/

theorem sboxV_isboxV {c : Params} (hc : c.Valid) {v : Vec} (hv : Vec.Below c.p v) :
    sboxV c.p (isboxV c v) = v :=
  Vec.ext_get fun j => by simpa [sboxV, isboxV] using sbox_of_isbox hc (hv j)

theorem isboxV_sboxV {c : Params} (hc : c.Valid) {v : Vec} (hv : Vec.Below c.p v) :
    isboxV c (sboxV c.p v) = v :=
  Vec.ext_get fun j => by simpa [sboxV, isboxV] using isbox_of_sbox hc (hv j)

/-- With valid parameters the self-check passes on canonical vectors (R174). -/
theorem isboxChecked_ok {c : Params} (hc : c.Valid) {v : Vec} (hv : Vec.Below c.p v) :
    isboxChecked c v = .ok (isboxV c v) := by
  simp [isboxChecked, sboxV_isboxV hc hv]

/-- All that the checked inverse S-box can do. -/
theorem isboxChecked_cases (c : Params) (v : Vec) :
    (sboxV c.p (isboxV c v) = v ∧ isboxChecked c v = .ok (isboxV c v)) ∨
    (sboxV c.p (isboxV c v) ≠ v ∧ isboxChecked c v = .error .constraint) := by
  by_cases h : sboxV c.p (isboxV c v) = v
  · exact .inl ⟨h, by simp [isboxChecked, h]⟩
  · exact .inr ⟨h, by simp [isboxChecked, h]⟩

theorem layer_ok {c : Params} (hc : c.Valid) (i : Nat) {v : Vec} (hv : Vec.Below c.p v) :
    layer c i v = .ok (Spec.layer c i v) := by
  unfold layer Spec.layer
  split
  · rw [sboxV_eq]
  · rw [isboxChecked_ok hc hv, isboxV_eq]

theorem layerInv_ok {c : Params} (hc : c.Valid) (i : Nat) {v : Vec} (hv : Vec.Below c.p v) :
    layerInv c i v = .ok (Spec.layerInv c i v) := by
  unfold layerInv Spec.layerInv
  split
  · rw [isboxChecked_ok hc hv, isboxV_eq]
  · rw [sboxV_eq]

theorem layer_below {c : Params} (hp : 0 < c.p) (i : Nat) (v : Vec) : Vec.Below c.p (Spec.layer c i v) := by
  unfold Spec.layer
  split
  · rw [← sboxV_eq]; exact sboxV_below hp v
  · rw [← isboxV_eq]; exact isboxV_below hp v

theorem layerInv_below {c : Params} (hp : 0 < c.p) (i : Nat) (v : Vec) :
    Vec.Below c.p (Spec.layerInv c i v) := by
  unfold Spec.layerInv
  split
  · rw [← isboxV_eq]; exact isboxV_below hp v
  · rw [← sboxV_eq]; exact sboxV_below hp v

/-- `Sinv_i` undoes `S_i` on canonical vectors (R15, R172). -/
theorem layerInv_layer {c : Params} (hc : c.Valid) (i : Nat) {v : Vec} (hv : Vec.Below c.p v) :
    Spec.layerInv c i (Spec.layer c i v) = v := by
  unfold Spec.layerInv Spec.layer
  split
  · rw [← isboxV_eq, ← sboxV_eq, isboxV_sboxV hc hv]
  · rw [← isboxV_eq, ← sboxV_eq, sboxV_isboxV hc hv]

/-- `S_i` undoes `Sinv_i` on canonical vectors (R15, R172). -/
theorem layer_layerInv {c : Params} (hc : c.Valid) (i : Nat) {v : Vec} (hv : Vec.Below c.p v) :
    Spec.layer c i (Spec.layerInv c i v) = v := by
  unfold Spec.layerInv Spec.layer
  split
  · rw [← isboxV_eq, ← sboxV_eq, sboxV_isboxV hc hv]
  · rw [← isboxV_eq, ← sboxV_eq, isboxV_sboxV hc hv]

/-! ### Addition and subtraction undo each other (R120) -/

theorem subP_addP {p a b : Nat} (ha : a < p) : subP p (addP p a b) b = a := by
  have hp : 0 < p := by omega
  refine eq_of_cast (subP_lt hp _ _) ha ?_
  rw [subP_cast hp, addP_cast]; ring

theorem addP_subP {p a b : Nat} (ha : a < p) : addP p (subP p a b) b = a := by
  have hp : 0 < p := by omega
  refine eq_of_cast (addP_lt hp _ _) ha ?_
  rw [addP_cast, subP_cast hp]; ring

theorem sub_add {p : Nat} {u : Vec} (hu : Vec.Below p u) (v : Vec) : Spec.sub p (Spec.add p u v) v = u :=
  Vec.ext_get fun j => by
    rw [← vaddP_eq, ← vsubP_eq]
    simpa [vaddP, vsubP] using subP_addP (b := v.get j) (hu j)

theorem add_sub {p : Nat} {u : Vec} (hu : Vec.Below p u) (v : Vec) : Spec.add p (Spec.sub p u v) v = u :=
  Vec.ext_get fun j => by
    rw [← vaddP_eq, ← vsubP_eq]
    simpa [vaddP, vsubP] using addP_subP (b := v.get j) (hu j)

/-! ### The MDS unit -/

section Matrix

variable {p : Nat}

theorem det_lt (hp : 0 < p) (a : Mat) : det p a < p := subP_lt hp _ _

theorem det_cast (hp : 0 < p) (a : Mat) : ((det p a : Nat) : ZMod p) = (Spec.detInt a : Int) := by
  simp only [det, mul3, subP_cast hp, addP_cast, mulP_cast, Spec.detInt]
  push_cast; ring

theorem cofactor_cast (hp : 0 < p) (a : Mat) (i j : Lane) :
    ((cofactor p a i j : Nat) : ZMod p) = (Spec.cofactorInt a i j : Int) := by
  simp only [cofactor, subP_cast hp, mulP_cast, Spec.cofactorInt]
  push_cast; ring

theorem minv_cast (hp : p.Prime) (a : Mat) (hd : ((det p a : Nat) : ZMod p) ≠ 0) (i j : Lane) :
    (((minv p a).get j i : Nat) : ZMod p) = (Spec.cofactorInt a i j : Int) * ((Spec.detInt a : Int) : ZMod p)⁻¹ := by
  rw [minv, Mat.get_ofFn, divP, mulP_cast, cofactor_cast hp.pos, invP_cast hp _ hd, det_cast hp.pos]

theorem minv_below (hp : 0 < p) (a : Mat) : Mat.Below p (minv p a) := fun i j => by
  simpa [minv, divP] using mulP_lt hp _ _

theorem cauchy_below (hp : 0 < p) (x y : Vec) : Mat.Below p (cauchy p x y) := fun i j => by
  simpa [cauchy, invP] using powP_lt hp _ _

/-- A natural number that is `n` in the field is `n` after reduction. -/
theorem mod_eq_of_cast {a n : Nat} (hn : n < p) (h : (a : ZMod p) = n) : a % p = n := by
  rw [(ZMod.natCast_eq_natCast_iff' a n p).1 h, Nat.mod_eq_of_lt hn]

/-- `A * minv(A)` is the identity where the determinant is not 0 (R154, R158). -/
theorem mul_minv (hp : p.Prime) (a : Mat) (hd : ((det p a : Nat) : ZMod p) ≠ 0) :
    Spec.ProductIsIdentity p a (minv p a) := by
  have := Fact.mk hp
  have hd' : ((Spec.detInt a : Int) : ZMod p) ≠ 0 := by rwa [det_cast hp.pos] at hd
  intro i j
  have h1 : (if i = j then (1 : Nat) else 0) < p := by have := hp.two_le; split <;> omega
  refine mod_eq_of_cast h1 ?_
  push_cast
  simp only [minv_cast hp a hd, Fin.sum_univ_three, ← mul_assoc, ← add_mul]
  rw [mul_inv_eq_iff_eq_mul₀ hd']
  simp only [Spec.detInt, Spec.cofactorInt]
  fin_cases i <;> fin_cases j <;> simp <;> ring

/-- `minv(A) * A` is the identity where the determinant is not 0 (R154, R158). -/
theorem minv_mul (hp : p.Prime) (a : Mat) (hd : ((det p a : Nat) : ZMod p) ≠ 0) :
    Spec.ProductIsIdentity p (minv p a) a := by
  have := Fact.mk hp
  have hd' : ((Spec.detInt a : Int) : ZMod p) ≠ 0 := by rwa [det_cast hp.pos] at hd
  intro i j
  have h1 : (if i = j then (1 : Nat) else 0) < p := by have := hp.two_le; split <;> omega
  refine mod_eq_of_cast h1 ?_
  push_cast
  simp only [minv_cast hp a hd, Fin.sum_univ_three]
  rw [show ∀ a b c d x y z : ZMod p, a * d * x + b * d * y + c * d * z = (a * x + b * y + c * z) * d by
    intros; ring, mul_inv_eq_iff_eq_mul₀ hd']
  simp only [Spec.detInt, Spec.cofactorInt]
  fin_cases i <;> fin_cases j <;> simp <;> ring

/-- Matrices whose product is the identity undo each other on canonical vectors. -/
theorem matvec_matvec {a b : Mat} (h : Spec.ProductIsIdentity p a b) {v : Vec} (hv : Vec.Below p v) :
    Spec.matvec p a (Spec.matvec p b v) = v := by
  refine Vec.ext_get fun i => ?_
  have hp : 0 < p := Nat.zero_lt_of_lt (hv 0)
  have hc : ∀ j : Lane, (∑ k : Lane, (a.get i k : ZMod p) * (b.get k j : ZMod p)) = if i = j then 1 else 0 := by
    intro j
    have := congrArg (Nat.cast (R := ZMod p)) (h i j)
    simpa using this
  simp only [Spec.matvec, Vec.get_ofFn]
  refine mod_eq_of_cast (hv i) ?_
  push_cast
  simp only [ZMod.natCast_mod]
  push_cast
  have e : ∀ k : Lane, (a.get i k : ZMod p) * ∑ j : Lane, (b.get k j : ZMod p) * (v.get j : ZMod p) =
      ∑ j : Lane, (a.get i k : ZMod p) * (b.get k j : ZMod p) * (v.get j : ZMod p) := by
    intro k; rw [Finset.mul_sum]; exact Finset.sum_congr rfl fun _ _ => by ring
  simp only [e]
  rw [Finset.sum_comm]
  simp only [← Finset.sum_mul, hc]
  simp

theorem cauchyOk_iff (x y : Vec) : cauchyOk x y = true ↔ Spec.Cauchy x y := by
  simp [cauchyOk, distinct, Spec.Cauchy, Fin.forall_fin_succ, Vec.get]
  tauto

theorem cauchy_entry (hp : p.Prime) {x y : Vec} (hx : Vec.Below p x) (hy : Vec.Below p y)
    (h : Spec.Cauchy x y) (i j : Lane) :
    (((cauchy p x y).get i j : Nat) : ZMod p) = ((x.get i : ZMod p) - (y.get j : ZMod p))⁻¹ ∧
    (x.get i : ZMod p) - (y.get j : ZMod p) ≠ 0 := by
  have hne : (x.get i : ZMod p) - (y.get j : ZMod p) ≠ 0 := fun h0 =>
    h.2.2 i j (eq_of_cast (hx i) (hy j) (sub_eq_zero.1 h0))
  refine ⟨?_, hne⟩
  rw [cauchy, Mat.get_ofFn, invP_cast hp _ (by rwa [subP_cast hp.pos]), subP_cast hp.pos]

/-- The Cauchy matrix is never singular, so MDSGEN never raises SINGULAR (R155). -/
theorem det_cauchy_ne_zero (hp : p.Prime) {x y : Vec} (hx : Vec.Below p x) (hy : Vec.Below p y)
    (h : Spec.Cauchy x y) : ((det p (cauchy p x y) : Nat) : ZMod p) ≠ 0 := by
  have := Fact.mk hp
  have hxx : ∀ i j : Lane, i ≠ j → (x.get i : ZMod p) - (x.get j : ZMod p) ≠ 0 := fun i j hij h0 =>
    h.1 i j hij (eq_of_cast (hx i) (hx j) (sub_eq_zero.1 h0))
  have hyy : ∀ i j : Lane, i ≠ j → (y.get i : ZMod p) - (y.get j : ZMod p) ≠ 0 := fun i j hij h0 =>
    h.2.1 i j hij (eq_of_cast (hy i) (hy j) (sub_eq_zero.1 h0))
  have hxy := fun i j => (cauchy_entry hp hx hy h i j).2
  have key : ((det p (cauchy p x y) : Nat) : ZMod p) *
      (((x.get 0 : ZMod p) - y.get 0) * (x.get 0 - y.get 1) * (x.get 0 - y.get 2) *
       ((x.get 1 - y.get 0) * (x.get 1 - y.get 1) * (x.get 1 - y.get 2)) *
       ((x.get 2 - y.get 0) * (x.get 2 - y.get 1) * (x.get 2 - y.get 2))) =
      (x.get 1 - x.get 0) * (x.get 2 - x.get 0) * (x.get 2 - x.get 1) *
      ((y.get 0 - y.get 1) * (y.get 0 - y.get 2) * (y.get 1 - y.get 2)) := by
    rw [det_cast hp.pos]
    simp only [Spec.detInt]
    push_cast
    simp only [(cauchy_entry hp hx hy h _ _).1]
    have := hxy 0 0; have := hxy 0 1; have := hxy 0 2
    have := hxy 1 0; have := hxy 1 1; have := hxy 1 2
    have := hxy 2 0; have := hxy 2 1; have := hxy 2 2
    field_simp
    ring
  intro h0
  rw [h0, zero_mul] at key
  have := hxx 1 0 (by decide); have := hxx 2 0 (by decide); have := hxx 2 1 (by decide)
  have := hyy 0 1 (by decide); have := hyy 0 2 (by decide); have := hyy 1 2 (by decide)
  simp_all

end Matrix

end Sys2Proof.Laws
end

