-- ==== Sys2Proof/Laws/Ops.lean ====
section
/-! SUPPORT. What each shared operation can do: the checks, the operand reads, the two ways a command
completes, and one inversion lemma for every command. -/

namespace Sys2Proof.Laws

open Sys2Proof.Machine

/-! ### Sequencing of checks -/

@[simp] theorem ok_bind {α β : Type} (a : α) (f : α → Except ErrCode β) : (Except.ok a >>= f) = f a := rfl

@[simp] theorem error_bind {α β : Type} (e : ErrCode) (f : α → Except ErrCode β) :
    ((Except.error e : Except ErrCode α) >>= f) = .error e := rfl

@[simp] theorem pure_ok {α : Type} (a : α) : (pure a : Except ErrCode α) = .ok a := rfl

@[simp] theorem require_true (e : ErrCode) : require true e = .ok () := rfl

@[simp] theorem require_false (e : ErrCode) : require false e = .error e := rfl

/-- A sequence of checks succeeds exactly when each of its parts does. -/
theorem bind_eq_ok {α β : Type} {x : Except ErrCode α} {f : α → Except ErrCode β} {r : β} :
    x >>= f = .ok r ↔ ∃ a, x = .ok a ∧ f a = .ok r := by
  cases x <;> simp

/-- What a check can do (R16). -/
theorem require_cases (b : Bool) (e : ErrCode) :
    (b = true ∧ require b e = .ok ()) ∨ (b = false ∧ require b e = .error e) := by
  cases b <;> simp

/-- A check that passed says that its condition holds. -/
theorem require_eq_ok {b : Bool} {e : ErrCode} {u : Unit} (h : require b e = .ok u) : b = true := by
  rcases require_cases b e with ⟨h1, h2⟩ | ⟨h1, h2⟩
  · exact h1
  · rw [h2] at h; cases h

/-! ### Operand reads -/

theorem readCanon_ok {c : Params} {v : Vec} (h : Vec.Below c.p v) : readCanon c v = .ok v := by
  rw [readCanon, (canon_iff c v).2 h]; rfl

theorem readCanon_error {c : Params} {v : Vec} (h : ¬ Vec.Below c.p v) :
    readCanon c v = .error .noncanonical := by
  rw [readCanon, Bool.eq_false_iff.2 (mt (canon_iff c v).1 h)]; rfl

/-- What reading an operand can do (R121). -/
theorem readCanon_cases (c : Params) (v : Vec) :
    (Vec.Below c.p v ∧ readCanon c v = .ok v) ∨
    (¬ Vec.Below c.p v ∧ readCanon c v = .error .noncanonical) := by
  by_cases h : Vec.Below c.p v
  · exact .inl ⟨h, readCanon_ok h⟩
  · exact .inr ⟨h, readCanon_error h⟩

/-- An operand that was read is the raw triple, and it is canonical (R121). -/
theorem readCanon_eq_ok {c : Params} {v w : Vec} (h : readCanon c v = .ok w) : w = v ∧ Vec.Below c.p v := by
  rcases readCanon_cases c v with ⟨h1, e⟩ | ⟨h1, e⟩ <;> rw [e] at h
  · injection h with h; exact ⟨h.symm, h1⟩
  · cases h

theorem readV_ok {c : Params} {x : Regs} {r : VReg} (h : Vec.Below c.p x.v[r]) :
    readV c x r = .ok x.v[r] := readCanon_ok h

theorem readV_error {c : Params} {x : Regs} {r : VReg} (h : ¬ Vec.Below c.p x.v[r]) :
    readV c x r = .error .noncanonical := readCanon_error h

theorem readRc_ok {c : Params} {x : Regs} {i : Nat} (h : Vec.Below c.p (tableRow x.rc i)) :
    readRc c x i = .ok (tableRow x.rc i) := readCanon_ok h

theorem readRc_error {c : Params} {x : Regs} {i : Nat} (h : ¬ Vec.Below c.p (tableRow x.rc i)) :
    readRc c x i = .error .noncanonical := readCanon_error h

theorem readRcRows_ok {c : Params} {x : Regs} (h : ∀ v ∈ x.rc.take x.roundCount, Vec.Below c.p v) :
    readRcRows c x = .ok (x.rc.take x.roundCount) := by
  have : (x.rc.take x.roundCount).all (canon c) = true :=
    List.all_eq_true.2 fun v hv => (canon_iff c v).2 (h v hv)
  simp only [readRcRows, this]; rfl

theorem readRcRows_error {c : Params} {x : Regs} (h : ∃ v ∈ x.rc.take x.roundCount, ¬ Vec.Below c.p v) :
    readRcRows c x = .error .noncanonical := by
  have : (x.rc.take x.roundCount).all (canon c) = false := by
    obtain ⟨v, hv, hb⟩ := h
    exact List.all_eq_false.2 ⟨v, hv, mt (canon_iff c v).1 hb⟩
  simp only [readRcRows, this]; rfl

theorem needMatrix_ok {x : Regs} (h : x.mvalid = true) : needMatrix x = .ok () := by simp [needMatrix, h]

theorem needMatrix_error {x : Regs} (h : x.mvalid = false) : needMatrix x = .error .noMds := by
  simp [needMatrix, h]

theorem needSubkeys_ok {x : Regs} (h : x.skvalid = true) : needSubkeys x = .ok () := by
  simp [needSubkeys, h]

theorem needSubkeys_error {x : Regs} (h : x.skvalid = false) : needSubkeys x = .error .noSubkeys := by
  simp [needSubkeys, h]

theorem needRound_ok {lo : Nat} {x : Regs} {i : Nat} (h1 : lo ≤ i) (h2 : i < x.roundCount) :
    needRound lo x i = .ok () := by simp [needRound, h1, h2]

theorem needRound_error {lo : Nat} {x : Regs} {i : Nat} (h : ¬ (lo ≤ i ∧ i < x.roundCount)) :
    needRound lo x i = .error .roundRange := by
  have : (decide (lo ≤ i) && decide (i < x.roundCount)) = false := by
    rw [← Bool.decide_and]; exact decide_eq_false h
  simp [needRound, this]

/-! ### Completion -/

theorem commit_eq_completed (s : State) (e : Effect) : s.commit e = Spec.completed s (applyEffect e s.regs) := rfl

theorem raise_eq_failed (s : State) {c : ErrCode} (h : c ≠ .constraint) : s.raise c = Spec.failed s c.code := by
  cases c <;> simp_all [State.raise, Spec.failed]

/-- A command while FATAL = 1 (R245). -/
theorem runCommand_locked {s : State} (h : s.fatal = true) (body : Params → Regs → Except ErrCode Effect) :
    runCommand s body = .next (Spec.failed s 0x09#8) := by
  have hr : s.raise .locked = Spec.failed s 0x09#8 := raise_eq_failed s (by decide)
  simp [runCommand, h, State.finish, hr]

/-- A command whose compute phase succeeds (R36). -/
theorem runCommand_ok {s : State} {body : Params → Regs → Except ErrCode Effect} {e : Effect}
    (h : s.fatal = false) (hb : body s.cfg s.operands = .ok e) :
    runCommand s body = .next (Spec.completed s (applyEffect e s.regs)) := by
  simp [runCommand, h, hb, State.finish, commit_eq_completed]

/-- A command that raises an error (R241, R244). -/
theorem runCommand_error {s : State} {body : Params → Regs → Except ErrCode Effect} {c : ErrCode}
    (h : s.fatal = false) (hb : body s.cfg s.operands = .error c) :
    runCommand s body = .next (s.raise c) := by
  simp [runCommand, h, hb, State.finish]

/-- All that a command can do: LOCKED, success with its effect, or one of its own errors. -/
theorem runCommand_cases {s t : State} {body : Params → Regs → Except ErrCode Effect}
    (h : runCommand s body = .next t) :
    (s.fatal = true ∧ t = s.raise .locked) ∨
    (∃ e, s.fatal = false ∧ body s.cfg s.operands = .ok e ∧ t = s.commit e) ∨
    (∃ c, s.fatal = false ∧ body s.cfg s.operands = .error c ∧ t = s.raise c) := by
  simp only [runCommand, Host.Outcome.next.injEq] at h
  cases hf : s.fatal with
  | true => exact .inl ⟨rfl, by simpa [hf, State.finish] using h.symm⟩
  | false =>
    cases hb : body s.cfg s.operands with
    | ok e => exact .inr (.inl ⟨e, rfl, rfl, by simpa [hf, hb, State.finish] using h.symm⟩)
    | error c => exact .inr (.inr ⟨c, rfl, rfl, by simpa [hf, hb, State.finish] using h.symm⟩)

/-- A command either raises or commits an effect that its compute phase gives, with FATAL = 0. -/
theorem runCommand_facts {s t : State} {body : Params → Regs → Except ErrCode Effect} {P : Effect → Prop}
    (hb : ∀ e, body s.cfg s.operands = .ok e → P e) (h : runCommand s body = .next t) :
    (∃ c, t = s.raise c) ∨ ∃ e, s.fatal = false ∧ P e ∧ t = s.commit e := by
  rcases runCommand_cases h with ⟨_, rfl⟩ | ⟨e, hf, he, rfl⟩ | ⟨c, _, _, rfl⟩
  · exact .inl ⟨_, rfl⟩
  · exact .inr ⟨e, hf, hb e he, rfl⟩
  · exact .inl ⟨_, rfl⟩

/-- Every command is one run of its own check and compute phases. -/
theorem exec_is_runCommand (i : Instr) :
    ∃ body : Params → Regs → Except ErrCode Effect, ∀ s, exec i s = runCommand s body := by
  cases i <;>
    (refine ⟨?_, fun s => ?_⟩
     rotate_left
     · simp only [exec, execNop, execVadd, execVsub, execVmul, execVmov, execVdot, execSbox, execIsbox, execMds,
         execImds, execAddrc, execAddsk, execSubsk, execMdsgen, execKrnd, execErnd, execDrnd, execKsched,
         execEnc, execDec]
       rfl)

/-- Every command ends in a next state: no command stops the block (R240). -/
theorem exec_next (i : Instr) (s : State) : ∃ t, exec i s = .next t := by
  obtain ⟨body, h⟩ := exec_is_runCommand i
  exact ⟨_, h s⟩

/-! ### The register file and the tables -/

@[simp] theorem getElem_setV_self (x : Regs) (rd : VReg) (r : Vec) : (x.setV rd r).v[rd] = r := by
  simp [Regs.setV]

theorem getElem_setV_of_ne (x : Regs) {rd q : VReg} (r : Vec) (h : q ≠ rd) :
    (x.setV rd r).v[q] = x.v[q] := by
  have : (rd : Nat) ≠ (q : Nat) := fun e => h (Fin.ext e.symm)
  simp [Regs.setV, Vector.getElem_set_ne, this]

theorem tableRow_of_lt {t : List Vec} {i : Nat} (h : i < t.length) : tableRow t i = t[i] := by
  simp [tableRow, h]

theorem tableRow_mem {t : List Vec} {i : Nat} (h : i < t.length) : tableRow t i ∈ t := by
  rw [tableRow_of_lt h]; exact List.getElem_mem h

/-- The rows below R are canonical, as a statement of indices and as one of the list KSCHED reads (R192). -/
theorem rowsCanonical_iff {c : Params} {x : Regs} (h : x.roundCount ≤ x.rc.length) :
   Spec.RowsCanonical c x ↔ ∀ v ∈ x.rc.take x.roundCount, Vec.Below c.p v := by
  constructor
  · intro hr v hv
    obtain ⟨i, hi, rfl⟩ := List.mem_iff_getElem.1 hv
    have hi' : i < x.roundCount := by simp at hi; omega
    have := hr i hi'
    rw [tableRow_of_lt (by omega)] at this
    rwa [List.getElem_take]
  · intro hr i hi
    rw [tableRow_of_lt (by omega)]
    exact hr _ (List.mem_take_iff_getElem.2 ⟨i, by omega, rfl⟩)

theorem readRcRows_not_canonical {c : Params} {x : Regs} (h : x.roundCount ≤ x.rc.length)
    (hr : ¬ Spec.RowsCanonical c x) :
    readRcRows c x = .error .noncanonical := by
  rw [rowsCanonical_iff h] at hr
  push Not at hr
  apply readRcRows_error
  obtain ⟨v, hv, hj⟩ := hr
  exact ⟨v, hv, hj⟩

/-- What reading the rows below R gives when it succeeds (R192). -/
theorem readRcRows_eq_ok {c : Params} {x : Regs} {rows : List Vec} (hT : Spec.TablesFull c x)
    (h : readRcRows c x = .ok rows) :
    Spec.RowsCanonical c x ∧ rows = x.rc.take x.roundCount := by
  by_cases hr : Spec.RowsCanonical c x
  · rw [readRcRows_ok ((rowsCanonical_iff (by obtain ⟨_, _, _⟩ := hT; omega)).1 hr)] at h
    injection h with h; exact ⟨hr, h.symm⟩
  · rw [readRcRows_not_canonical (by obtain ⟨_, _, _⟩ := hT; omega) hr] at h; cases h

end Sys2Proof.Laws
end

