-- ==== Sys2Proof/Laws/Cipher.lean ====
section
/-! SUPPORT. With valid parameters the key schedule, encryption and decryption compute the spec's formulas
(43_keysched_round.md R191 to R196), and a round and its inverse undo each other (R194). -/

namespace Sys2Proof.Laws

open Sys2Proof.Machine

variable {c : Params}

/-! ### Single rounds -/

theorem roundStep_ok (hc : c.Valid) (m : Mat) (i : Nat) (v k : Vec) :
    roundStep c m i v k = .ok (Spec.round c m i v k) := by
  rw [roundStep, layer_ok hc i (matvec_below hc.1.pos m v), matvec_eq]; rfl

theorem unroundStep_ok (hc : c.Valid) (mi : Mat) (i : Nat) (v k : Vec) :
    unroundStep c mi i v k = .ok (Spec.unround c mi i v k) := by
  rw [unroundStep, layerInv_ok hc i (vsubP_below hc.1.pos v k), ok_bind, matvec_eq]; rfl

theorem round_below (hp : 0 < c.p) (m : Mat) (i : Nat) (v k : Vec) :
    Vec.Below c.p (Spec.round c m i v k) := vaddP_below hp _ _

/-- The inverse of round i undoes round i where MI undoes M (R194). -/
theorem unround_round (hc : c.Valid) {m mi : Mat} (h : Spec.ProductIsIdentity c.p mi m) (i : Nat) {v : Vec}
    (hv : Vec.Below c.p v) (k : Vec) : Spec.unround c mi i (Spec.round c m i v k) k = v := by
  rw [Spec.unround, Spec.round, sub_add (layer_below hc.1.pos _ _),
    layerInv_layer hc i (by rw [← matvec_eq]; exact matvec_below hc.1.pos m v), matvec_matvec h hv]

/-! ### The key schedule -/

theorem subkeysFrom_ok (hc : c.Valid) (m : Mat) (rc : List Vec) (key : Vec) :
    ∀ (rows : List Vec) (i : Nat), (∀ t, t < rows.length → tableRow rows t = tableRow rc (i + 1 + t)) →
    subkeysFrom c m (i + 1) (Spec.subkey c m rc key i) rows =
      .ok ((List.range rows.length).map fun t => Spec.subkey c m rc key (i + 1 + t))
  | [], i, _ => rfl
  | k :: rows, i, h => by
    have hk : k = tableRow rc (i + 1) := h 0 (by simp)
    have ih := subkeysFrom_ok hc m rc key rows (i + 1) fun t ht => by
      have := h (t + 1) (by simpa using ht)
      rw [show i + 1 + 1 + t = i + 1 + (t + 1) by omega, ← this]; rfl
    rw [subkeysFrom, roundStep_ok hc, ok_bind, hk]
    change (subkeysFrom c m (i + 1 + 1) (Spec.subkey c m rc key (i + 1)) rows >>= _) = _
    rw [ih, ok_bind, pure_ok, List.length_cons, List.range_succ_eq_map, List.map_cons, List.map_map]
    congr 2
    exact List.map_congr_left fun t _ => by simp only [Function.comp]; congr 1; omega

/-- The derivation of the first `r` subkeys, where the table of round constants has that many rows (R192). -/
theorem deriveSubkeys_ok (hc : c.Valid) (m : Mat) (rc : List Vec) (key : Vec) {r : Nat} (h1 : 1 ≤ r)
    (hr : r ≤ rc.length) :
    deriveSubkeys c m key (rc.take r) = .ok ((List.range r).map (Spec.subkey c m rc key)) := by
  obtain ⟨r, rfl⟩ : ∃ n, r = n + 1 := ⟨r - 1, by omega⟩
  match rc, hr with
  | k0 :: rest, hr =>
    have hlen : (rest.take r).length = r := by simp at hr ⊢; omega
    have key' := subkeysFrom_ok hc m (k0 :: rest) key (rest.take r) 0 fun t ht => by
      have ht' : t < r := by omega
      rw [show 0 + 1 + t = t + 1 by omega]
      simp [tableRow, ht']
    rw [List.take_succ_cons, deriveSubkeys]
    change (subkeysFrom c m (0 + 1) (Spec.subkey c m (k0 :: rest) key 0) (rest.take r) >>= _) = _
    rw [key', ok_bind, pure_ok, hlen, List.range_succ_eq_map, List.map_cons, List.map_map]
    congr 2
    exact List.map_congr_left fun t _ => by simp only [Function.comp]; congr 1; omega

/-- The table a derivation writes (R199). -/
theorem padSubkeys_eq (x : Regs) (key : Vec) (hr : x.roundCount ≤ c.rmax) :
    padSubkeys c ((List.range x.roundCount).map (Spec.subkey c x.m x.rc key)) = Spec.subkeyTable c x key := by
  refine List.ext_getElem (by simp [padSubkeys, Spec.subkeyTable]; omega) fun i h1 h2 => ?_
  simp only [padSubkeys, Spec.subkeyTable, List.getElem_append, List.length_map, List.length_range,
    List.getElem_map, List.getElem_range, List.getElem_replicate, dite_eq_ite]

/-! ### Encryption -/

theorem encRounds_ok (hc : c.Valid) (m : Mat) (sk : Nat → Vec) (pt : Vec) :
    ∀ (sks : List Vec) (i : Nat), (∀ t, t < sks.length → tableRow sks t = sk (i + 1 + t)) →
    encRounds c m (i + 1) (Spec.encState c m sk pt i) sks = .ok (Spec.encState c m sk pt (i + sks.length))
  | [], i, _ => rfl
  | k :: sks, i, h => by
    have hk : k = sk (i + 1) := h 0 (by simp)
    have ih := encRounds_ok hc m sk pt sks (i + 1) fun t ht => by
      have := h (t + 1) (by simpa using ht)
      rw [show i + 1 + 1 + t = i + 1 + (t + 1) by omega, ← this]; rfl
    rw [encRounds, roundStep_ok hc, ok_bind, hk]
    change encRounds c m (i + 1 + 1) (Spec.encState c m sk pt (i + 1)) sks = _
    rw [ih, List.length_cons]
    congr 2; omega

theorem encryptWith_ok (hc : c.Valid) (m : Mat) (sk : Nat → Vec) (pt : Vec) {r : Nat} (h1 : 1 ≤ r) :
    encryptWith c m pt ((List.range r).map sk) = .ok (Spec.encState c m sk pt (r - 1)) := by
  obtain ⟨r, rfl⟩ : ∃ n, r = n + 1 := ⟨r - 1, by omega⟩
  rw [List.range_succ_eq_map, List.map_cons, encryptWith]
  change encRounds c m (0 + 1) (Spec.encState c m sk pt 0) _ = _
  rw [encRounds_ok hc m sk pt _ 0 fun t ht => ?_]
  · simp
  · have ht' : t < r := by simpa using ht
    simp [tableRow, ht', Nat.add_comm]

/-! ### Decryption -/

theorem decState_below (hp : 0 < c.p) (mi : Mat) (sk : Nat → Vec) (r : Nat) (ct : Vec) :
    ∀ t, Vec.Below c.p (Spec.decState c mi sk r ct t)
  | 0 => vsubP_below hp _ _
  | _ + 1 => vsubP_below hp _ _

theorem decRounds_ok (hc : c.Valid) (mi : Mat) (sk : Nat → Vec) (sks : List Vec) (r : Nat) (ct : Vec)
    (hsk : ∀ i, i < r → tableRow sks i = sk i) :
    ∀ (j t : Nat), t + j = r - 1 →
    decRounds c mi sks j (Spec.decState c mi sk r ct t) = .ok (Spec.decState c mi sk r ct (r - 1))
  | 0, t, h => by rw [decRounds, ← h]; rfl
  | j + 1, t, h => by
    rw [decRounds, layerInv_ok hc _ (decState_below hc.1.pos mi sk r ct t), ok_bind, hsk j (by omega),
      ← decRounds_ok hc mi sk sks r ct hsk j (t + 1) (by omega), matvec_eq]
    simp only [Spec.decState, vsubP_eq]
    rw [show r - (t + 1) = j + 1 by omega, show r - 1 - (t + 1) = j by omega]

theorem decryptWith_ok (hc : c.Valid) (mi : Mat) (sk : Nat → Vec) (ct : Vec) {r : Nat} (h1 : 1 ≤ r) :
    decryptWith c mi ((List.range r).map sk) ct = .ok (Spec.decState c mi sk r ct (r - 1)) := by
  have hsk : ∀ i, i < r → tableRow ((List.range r).map sk) i = sk i := fun i hi => by simp [tableRow, hi]
  rw [decryptWith, List.length_map, List.length_range, hsk _ (by omega)]
  exact decRounds_ok hc mi sk _ r ct hsk (r - 1) 0 (by omega)

end Sys2Proof.Laws
end

