-- ==== Sys2Proof/Laws/Window.lean ====
section
/-! SUPPORT. The canonical form of the store (`Memory.wf`): reset has it, and every write of the window
and every effect of a command keeps it. -/

namespace Sys2Proof.Laws

open Sys2Proof.Machine

/-- P is below 2^W, so a canonical element fits its storage (R7, R13). -/
theorem p_lt_two_pow_width (c : Params) : c.p < 2 ^ c.width := Nat.lt_log2_self

theorem Vec.Below.mono {m n : Nat} {v : Vec} (h : Vec.Below m v) (hmn : m ≤ n) : Vec.Below n v :=
  fun j => (h j).trans_le hmn

theorem below_width {c : Params} {v : Vec} (h : Vec.Below c.p v) : Vec.Below (2 ^ c.width) v :=
  Vec.Below.mono h (p_lt_two_pow_width c).le

/-- A limb write leaves a W-bit pattern (R64). -/
theorem setLimb_lt (c : Params) (e : Elem) (k : Nat) (d : Word) : setLimb c e k d < 2 ^ c.width :=
  Nat.mod_lt _ (by positivity)

theorem set_below {n : Nat} {v : Vec} (h : Vec.Below n v) (j : Lane) {e : Elem} (he : e < n) :
    Vec.Below n (v.set j e) := fun l => by
  rw [Vec.get_set]; split
  · exact he
  · exact h l

theorem getElem_below_set {n : Nat} {x : Vector Vec 16} (h : ∀ q : VReg, Vec.Below n x[q]) (rd : VReg)
    {r : Vec} (hr : Vec.Below n r) (q : VReg) : Vec.Below n (x.set rd r)[q] := by
  have e : (x.set rd r)[q] = if (rd : Nat) = q then r else x[q] := Vector.getElem_set ..
  rw [e]; split
  · exact hr
  · exact h q

theorem tableRow_below {n : Nat} (hn : 0 < n) {t : List Vec} (h : ∀ row ∈ t, Vec.Below n row) (i : Nat) :
    Vec.Below n (tableRow t i) := by
  by_cases hi : i < t.length
  · exact h _ (tableRow_mem hi)
  · rw [tableRow, List.getD_eq_default _ _ (by omega)]; exact zero_below hn

/-- The store after reset is in canonical form (R41). -/
theorem reset_wf {c : Params} (hp : 0 < c.p) : Memory.wf c (Regs.reset c) := by
  have hw : (0 : Nat) < 2 ^ c.width := by positivity
  refine ⟨by simp [Regs.reset], by simp [Regs.reset], fun r => ?_, fun row hrow => ?_, fun row hrow => ?_, ?_, ?_⟩
  · have : (Regs.reset c).v[r] = Vec.zero := by simp [Regs.reset]
    rw [this]; exact zero_below hw
  · rw [(List.mem_replicate.1 hrow).2]; exact zero_below hw
  · rw [(List.mem_replicate.1 hrow).2]; exact zero_below hp
  · intro i j; simpa [Regs.reset] using hp
  · intro i j; simpa [Regs.reset] using hp

/-- A host write of an element limb keeps the canonical form (R64). -/
theorem writeSlot_wf {c : Params} {x : Regs} (h : Memory.wf c x) (slot : Slot) (k : Nat) (d : Word) :
    Memory.wf c (writeSlot c x slot k d) := by
  obtain ⟨hrc, hsk, hv, hrcb, hskb, hm, hmi⟩ := h
  have hw : (0 : Nat) < 2 ^ c.width := by positivity
  cases slot with
  | v r j =>
    simp only [writeSlot, writeVLimb]
    split
    · exact ⟨hrc, hsk, getElem_below_set hv r (set_below (hv r) j (setLimb_lt ..)), hrcb, hskb, hm, hmi⟩
    · exact ⟨hrc, hsk, hv, hrcb, hskb, hm, hmi⟩
  | rc i j =>
    simp only [writeSlot, writeRcLimb]
    split
    · refine ⟨by simpa using hrc, hsk, hv, fun row hrow => ?_, hskb, hm, hmi⟩
      rcases List.mem_or_eq_of_mem_set hrow with h | rfl
      · exact hrcb row h
      · exact set_below (tableRow_below hw hrcb i) j (setLimb_lt ..)
    · exact ⟨hrc, hsk, hv, hrcb, hskb, hm, hmi⟩
  | m i j => exact ⟨hrc, hsk, hv, hrcb, hskb, hm, hmi⟩
  | mi i j => exact ⟨hrc, hsk, hv, hrcb, hskb, hm, hmi⟩
  | pmod => exact ⟨hrc, hsk, hv, hrcb, hskb, hm, hmi⟩
  | einv => exact ⟨hrc, hsk, hv, hrcb, hskb, hm, hmi⟩
  | sk i j => exact ⟨hrc, hsk, hv, hrcb, hskb, hm, hmi⟩

/-- What an effect must be for the store to stay in canonical form: all its elements canonical (R23) and
its subkey table complete (R199). -/
abbrev EffectCanonical (c : Params) : Effect → Prop
  | .nothing => True
  | .writeV _ r => Vec.Below c.p r
  | .writeMatrices a b => Mat.Below c.p a ∧ Mat.Below c.p b
  | .writeSubkeys t => t.length = c.rmax ∧ ∀ row ∈ t, Vec.Below c.p row
  | .writeBoth _ r t => Vec.Below c.p r ∧ t.length = c.rmax ∧ ∀ row ∈ t, Vec.Below c.p row

/-- A command's writes keep the canonical form (R23, R36). -/
theorem applyEffect_wf {c : Params} {x : Regs} (h : Memory.wf c x) {e : Effect} (he : EffectCanonical c e) :
    Memory.wf c (applyEffect e x) := by
  obtain ⟨hrc, hsk, hv, hrcb, hskb, hm, hmi⟩ := h
  cases e with
  | nothing => exact ⟨hrc, hsk, hv, hrcb, hskb, hm, hmi⟩
  | writeV rd r => exact ⟨hrc, hsk, getElem_below_set hv rd (below_width he), hrcb, hskb, hm, hmi⟩
  | writeMatrices a b => exact ⟨hrc, hsk, hv, hrcb, hskb, he.1, he.2⟩
  | writeSubkeys t => exact ⟨hrc, he.1, hv, hrcb, he.2, hm, hmi⟩
  | writeBoth rd r t =>
    exact ⟨hrc, he.2.1, getElem_below_set hv rd (below_width he.1), hrcb, he.2.2, hm, hmi⟩

/-! ### The bits and the elements a limb write changes (R64) -/

theorem setLimb_testBit (c : Params) (e : Elem) (k : Nat) (d : Word) (n : Nat) :
    (setLimb c e k d).testBit n = (decide (n < c.width) &&
      if 32 * k ≤ n ∧ n < 32 * k + 32 then d.getLsbD (n - 32 * k) else e.testBit n) := by
  rw [setLimb, Nat.testBit_mod_two_pow]
  congr 1
  generalize 32 * k = b
  have hd := d.isLt
  have h1 : e % 2 ^ b < 2 ^ b := Nat.mod_lt _ (by positivity)
  have h2 : d.toNat * 2 ^ b + e % 2 ^ b < 2 ^ (b + 32) := by
    have : (d.toNat + 1) * 2 ^ b ≤ 2 ^ 32 * 2 ^ b := Nat.mul_le_mul_right _ hd
    rw [pow_add, Nat.mul_comm (2 ^ b)]
    rw [Nat.add_mul] at this
    omega
  rw [show e % 2 ^ b + d.toNat * 2 ^ b + e / 2 ^ (b + 32) * 2 ^ (b + 32) =
    2 ^ (b + 32) * (e / 2 ^ (b + 32)) + (2 ^ b * d.toNat + e % 2 ^ b) by ring]
  rw [show d.toNat * 2 ^ b = 2 ^ b * d.toNat by ring] at h2
  rw [Nat.testBit_two_pow_mul_add _ h2, Nat.testBit_two_pow_mul_add _ h1, Nat.testBit_mod_two_pow,
    Nat.testBit_div_two_pow]
  by_cases a1 : b ≤ n
  · by_cases a2 : n < b + 32
    · rw [if_pos a2, if_neg (by omega), if_pos ⟨a1, a2⟩]; rfl
    · rw [if_neg a2, if_neg (by omega)]; congr 1; omega
  · rw [if_pos (by omega), if_pos (by omega), if_neg (by omega)]; simp; omega

theorem getElem_set_v (x : Vector Vec 16) (r q : VReg) (v : Vec) : (x.set r v)[q] = if r = q then v else x[q] := by
  have e : (x.set r v)[q] = if (r : Nat) = q then v else x[q] := Vector.getElem_set ..
  rw [e]; simp only [Fin.ext_iff]

theorem tableRow_set (t : List Vec) (i : Nat) (v : Vec) (hi : i < t.length) (l : Nat) :
    tableRow (t.set i v) l = if i = l then v else tableRow t l := by
  simp only [tableRow, List.getD_eq_getElem?_getD, List.getElem?_set]
  split
  · subst_vars; simp
  · rfl

end Sys2Proof.Laws
end

