-- ==== Sys2Proof/Laws/Commands.lean ====
section
/-! SUPPORT. What the effect of a successful command is: its form for every state, and its contents in a
block with valid parameters and full tables (30_encoding.md R100). -/

namespace Sys2Proof.Laws

open Sys2Proof.Machine

/-! ### MDSGEN's matrices (R152) -/

theorem genMatrices_ok {c : Params} (hc : c.Valid) {x y : Vec} (hx : Vec.Below c.p x)
    (hy : Vec.Below c.p y) (h : Spec.Cauchy x y) :
    genMatrices c x y = .ok (cauchy c.p x y, minv c.p (cauchy c.p x y)) := by
  have hd := det_cauchy_ne_zero hc.1 hx hy h
  have : (det c.p (cauchy c.p x y) != 0) = true := bne_iff_ne.2 fun e => hd (by rw [e]; simp)
  simp only [genMatrices, (cauchyOk_iff x y).2 h, this, require_true, ok_bind, pure_ok]

theorem genMatrices_error {c : Params} {x y : Vec} (h : ¬ Spec.Cauchy x y) :
    genMatrices c x y = .error .cauchyCollision := by
  simp [genMatrices, Bool.eq_false_iff.2 (mt (cauchyOk_iff x y).1 h)]

/-- The Cauchy matrix has no zero entry (R151). -/
theorem cauchy_ne_zero {c : Params} (hc : c.Valid) {x y : Vec} (hx : Vec.Below c.p x) (hy : Vec.Below c.p y)
    (h : Spec.Cauchy x y) (i j : Lane) : (cauchy c.p x y).get i j ≠ 0 := by
  have := Fact.mk hc.1
  intro h0
  have := cauchy_entry hc.1 hx hy h i j
  rw [h0] at this
  exact inv_ne_zero this.2 (by simpa using this.1.symm)

/-! ### The form of an effect -/

/-- The form of the effect of a successful command (R100, column "writes"). -/
def EffectShape : Instr → Effect → Prop
  | .nop, e => e = .nothing
  | .vadd rd _ _, e => ∃ r, e = .writeV rd r
  | .vsub rd _ _, e => ∃ r, e = .writeV rd r
  | .vmul rd _ _, e => ∃ r, e = .writeV rd r
  | .vmov rd _, e => ∃ r, e = .writeV rd r
  | .vdot rd _ _, e => ∃ r, e = .writeV rd r
  | .sbox rd _, e => ∃ r, e = .writeV rd r
  | .isbox rd _, e => ∃ r, e = .writeV rd r
  | .mds rd _, e => ∃ r, e = .writeV rd r
  | .imds rd _, e => ∃ r, e = .writeV rd r
  | .addrc rd _ _, e => ∃ r, e = .writeV rd r
  | .addsk rd _ _, e => ∃ r, e = .writeV rd r
  | .subsk rd _ _, e => ∃ r, e = .writeV rd r
  | .mdsgen _ _, e => ∃ a b, e = .writeMatrices a b
  | .krnd rd _ _, e => ∃ r, e = .writeV rd r
  | .ernd rd _ _, e => ∃ r, e = .writeV rd r
  | .drnd rd _ _, e => ∃ r, e = .writeV rd r
  | .ksched _, e => ∃ t, e = .writeSubkeys t
  | .enc rd _ _, e => ∃ r t, e = .writeBoth rd r t
  | .dec rd _ _, e => ∃ r t, e = .writeBoth rd r t

/-- A command either raises, or commits an effect of its own form. -/
theorem exec_shape {i : Instr} {s t : State} (h : exec i s = .next t) :
    (∃ c, t = s.raise c) ∨ ∃ e, EffectShape i e ∧ t = s.commit e := by
  cases i
  all_goals
    simp only [exec, execNop, execVadd, execVsub, execVmul, execVmov, execVdot, execSbox, execIsbox, execMds,
      execImds, execAddrc, execAddsk, execSubsk, execMdsgen, execKrnd, execErnd, execDrnd, execKsched,
      execEnc, execDec] at h
    refine (runCommand_facts (P := EffectShape _) (fun e hb => ?_) h).imp id fun ⟨e, _, he, ht⟩ => ⟨e, he, ht⟩
    simp only [bind_eq_ok, pure_ok, Except.ok.injEq] at hb
  case nop => exact hb.symm
  case vmov => obtain ⟨_, _, rfl⟩ := hb; exact ⟨_, rfl⟩
  case sbox => obtain ⟨_, _, rfl⟩ := hb; exact ⟨_, rfl⟩
  case vadd => obtain ⟨_, _, _, _, rfl⟩ := hb; exact ⟨_, rfl⟩
  case vsub => obtain ⟨_, _, _, _, rfl⟩ := hb; exact ⟨_, rfl⟩
  case vmul => obtain ⟨_, _, _, _, rfl⟩ := hb; exact ⟨_, rfl⟩
  case vdot => obtain ⟨_, _, _, _, rfl⟩ := hb; exact ⟨_, rfl⟩
  case isbox => obtain ⟨_, _, _, _, rfl⟩ := hb; exact ⟨_, rfl⟩
  case mds => obtain ⟨_, _, _, _, rfl⟩ := hb; exact ⟨_, rfl⟩
  case imds => obtain ⟨_, _, _, _, rfl⟩ := hb; exact ⟨_, rfl⟩
  case addrc => obtain ⟨_, _, _, _, _, _, rfl⟩ := hb; exact ⟨_, rfl⟩
  case addsk => obtain ⟨_, _, _, _, _, _, rfl⟩ := hb; exact ⟨_, rfl⟩
  case subsk => obtain ⟨_, _, _, _, _, _, rfl⟩ := hb; exact ⟨_, rfl⟩
  case mdsgen => obtain ⟨_, _, _, _, _, _, rfl⟩ := hb; exact ⟨_, _, rfl⟩
  case krnd => obtain ⟨_, _, _, _, _, _, _, _, _, _, rfl⟩ := hb; exact ⟨_, rfl⟩
  case ernd => obtain ⟨_, _, _, _, _, _, _, _, _, _, rfl⟩ := hb; exact ⟨_, rfl⟩
  case drnd => obtain ⟨_, _, _, _, _, _, _, _, _, _, rfl⟩ := hb; exact ⟨_, rfl⟩
  case ksched => obtain ⟨_, _, _, _, _, _, _, _, rfl⟩ := hb; exact ⟨_, rfl⟩
  case enc => obtain ⟨_, _, _, _, _, _, _, _, _, _, _, _, rfl⟩ := hb; exact ⟨_, _, rfl⟩
  case dec => obtain ⟨_, _, _, _, _, _, _, _, _, _, _, _, rfl⟩ := hb; exact ⟨_, _, rfl⟩

/-! ### The contents of an effect -/

theorem encState_below {c : Params} (hp : 0 < c.p) (m : Mat) (sk : Nat → Vec) (pt : Vec) :
    ∀ t, Vec.Below c.p (Spec.encState c m sk pt t)
  | 0 => vaddP_below hp _ _
  | _ + 1 => vaddP_below hp _ _

theorem subkey_congr {c : Params} {m : Mat} {rc rc' : List Vec} {key : Vec} :
    ∀ i, (∀ l, l ≤ i → tableRow rc l = tableRow rc' l) →
      Spec.subkey c m rc key i = Spec.subkey c m rc' key i
  | 0, h => by simp only [Spec.subkey, h 0 (Nat.le_refl _)]
  | i + 1, h => by simp only [Spec.subkey, h (i+1) (Nat.le_refl _), subkey_congr i fun l hl => h l (by omega)]

theorem subkey_below {c : Params} (hp : 0 < c.p) (m : Mat) (rc : List Vec) (key : Vec) :
    ∀ i, Vec.Below c.p (Spec.subkey c m rc key i)
  | 0 => vaddP_below hp _ _
  | _ + 1 => vaddP_below hp _ _

theorem subkeyTable_below {c : Params} (hp : 0 < c.p) (x : Regs) (key : Vec) :
   (Spec.subkeyTable c x key).length = c.rmax ∧ ∀ row ∈ Spec.subkeyTable c x key, Vec.Below c.p row := by
  refine ⟨by simp [Spec.subkeyTable], fun row hr => ?_⟩
  simp only [Spec.subkeyTable, List.mem_map] at hr
  obtain ⟨i, _, rfl⟩ := hr
  split
  · exact subkey_below hp _ _ _ _
  · exact zero_below hp

theorem isboxChecked_below {c : Params} (hp : 0 < c.p) {v w : Vec} (h : isboxChecked c v = .ok w) :
    Vec.Below c.p w := by
  rcases isboxChecked_cases c v with ⟨_, e⟩ | ⟨_, e⟩ <;> rw [e] at h
  · injection h with h; rw [← h]; exact isboxV_below hp v
  · cases h

theorem roundStep_below {c : Params} (hp : 0 < c.p) {m : Mat} {i : Nat} {v k w : Vec}
    (h : roundStep c m i v k = .ok w) : Vec.Below c.p w := by
  simp only [roundStep, bind_eq_ok, pure_ok, Except.ok.injEq] at h
  obtain ⟨_, _, rfl⟩ := h; exact vaddP_below hp _ _

theorem unroundStep_below {c : Params} (hp : 0 < c.p) {m : Mat} {i : Nat} {v k w : Vec}
    (h : unroundStep c m i v k = .ok w) : Vec.Below c.p w := by
  simp only [unroundStep, bind_eq_ok, pure_ok, Except.ok.injEq] at h
  obtain ⟨_, _, rfl⟩ := h; exact matvec_below hp _ _

/-- The effect of a successful command on the operands `x`, with all that its checks have established. -/
def EffectFacts (c : Params) (x : Regs) : Instr → Effect → Prop
  | .nop, e => e = .nothing
  | .vadd rd _ _, e => ∃ r, Vec.Below c.p r ∧ e = .writeV rd r
  | .vsub rd _ _, e => ∃ r, Vec.Below c.p r ∧ e = .writeV rd r
  | .vmul rd _ _, e => ∃ r, Vec.Below c.p r ∧ e = .writeV rd r
  | .vmov rd _, e => ∃ r, Vec.Below c.p r ∧ e = .writeV rd r
  | .vdot rd _ _, e => ∃ r, Vec.Below c.p r ∧ e = .writeV rd r
  | .sbox rd _, e => ∃ r, Vec.Below c.p r ∧ e = .writeV rd r
  | .isbox rd _, e => ∃ r, Vec.Below c.p r ∧ e = .writeV rd r
  | .mds rd _, e => ∃ r, Vec.Below c.p r ∧ e = .writeV rd r
  | .imds rd _, e => ∃ r, Vec.Below c.p r ∧ e = .writeV rd r
  | .addrc rd _ _, e => ∃ r, Vec.Below c.p r ∧ e = .writeV rd r
  | .addsk rd _ _, e => ∃ r, Vec.Below c.p r ∧ e = .writeV rd r
  | .subsk rd _ _, e => ∃ r, Vec.Below c.p r ∧ e = .writeV rd r
  | .mdsgen r1 r2, e => Vec.Below c.p x.v[r1] ∧ Vec.Below c.p x.v[r2] ∧ Spec.Cauchy x.v[r1] x.v[r2] ∧
    e = .writeMatrices (cauchy c.p x.v[r1] x.v[r2]) (minv c.p (cauchy c.p x.v[r1] x.v[r2]))
  | .krnd rd _ _, e => ∃ r, Vec.Below c.p r ∧ e = .writeV rd r
  | .ernd rd _ _, e => ∃ r, Vec.Below c.p r ∧ e = .writeV rd r
  | .drnd rd _ _, e => ∃ r, Vec.Below c.p r ∧ e = .writeV rd r
  | .ksched k, e => x.mvalid = true ∧ Vec.Below c.p x.v[k] ∧ Spec.RowsCanonical c x ∧
    e = .writeSubkeys (Spec.subkeyTable c x x.v[k])
  | .enc rd _ k, e => x.mvalid = true ∧ Vec.Below c.p x.v[k] ∧ Spec.RowsCanonical c x ∧
    ∃ r, Vec.Below c.p r ∧ e = .writeBoth rd r (Spec.subkeyTable c x x.v[k])
  | .dec rd _ k, e => x.mvalid = true ∧ Vec.Below c.p x.v[k] ∧ Spec.RowsCanonical c x ∧
    ∃ r, Vec.Below c.p r ∧ e = .writeBoth rd r (Spec.subkeyTable c x x.v[k])

/-- A command in a block with valid parameters and full tables either raises, or has FATAL = 0 and commits
the effect of `EffectFacts`. -/
theorem exec_facts {i : Instr} {s t : State} (hv : s.cfg.Valid) (hT : Spec.TablesFull s.cfg s.operands)
    (h : exec i s = .next t) :
    (∃ c, t = s.raise c) ∨ ∃ e, s.fatal = false ∧ EffectFacts s.cfg s.operands i e ∧ t = s.commit e := by
  have hp := hv.1.pos
  cases i
  all_goals
    simp only [exec, execNop, execVadd, execVsub, execVmul, execVmov, execVdot, execSbox, execIsbox, execMds,
      execImds, execAddrc, execAddsk, execSubsk, execMdsgen, execKrnd, execErnd, execDrnd, execKsched,
      execEnc, execDec] at h
    refine runCommand_facts (P := EffectFacts s.cfg s.operands _) (fun e hb => ?_) h
    simp only [bind_eq_ok, pure_ok, Except.ok.injEq] at hb
  case nop =>
    exact hb.symm
  case vadd =>
    obtain ⟨_, _, _, _, rfl⟩ := hb; exact ⟨_, vaddP_below hp _ _, rfl⟩
  case vsub =>
    obtain ⟨_, _, _, _, rfl⟩ := hb; exact ⟨_, vsubP_below hp _ _, rfl⟩
  case vmul =>
    obtain ⟨_, _, _, _, rfl⟩ := hb; exact ⟨_, vmulP_below hp _ _, rfl⟩
  case vmov =>
    obtain ⟨a, ha, rfl⟩ := hb; obtain ⟨rfl, ha'⟩ := readCanon_eq_ok ha; exact ⟨_, ha', rfl⟩
  case vdot =>
    obtain ⟨_, _, _, _, rfl⟩ := hb; exact ⟨_, fun j => by simpa using dotP_lt hp _ _, rfl⟩
  case sbox =>
    obtain ⟨_, _, rfl⟩ := hb; exact ⟨_, sboxV_below hp _, rfl⟩
  case isbox =>
    obtain ⟨_, _, _, h, rfl⟩ := hb; exact ⟨_, isboxChecked_below hp h, rfl⟩
  case mds =>
    obtain ⟨_, _, _, _, rfl⟩ := hb; exact ⟨_, matvec_below hp _ _, rfl⟩
  case imds =>
    obtain ⟨_, _, _, _, rfl⟩ := hb; exact ⟨_, matvec_below hp _ _, rfl⟩
  case addrc =>
    obtain ⟨_, _, _, _, _, _, rfl⟩ := hb; exact ⟨_, vaddP_below hp _ _, rfl⟩
  case addsk =>
    obtain ⟨_, _, _, _, _, _, rfl⟩ := hb; exact ⟨_, vaddP_below hp _ _, rfl⟩
  case subsk =>
    obtain ⟨_, _, _, _, _, _, rfl⟩ := hb; exact ⟨_, vsubP_below hp _ _, rfl⟩
  case mdsgen rs1 rs2 =>
    obtain ⟨x, hx, y, hy, ab, hab, rfl⟩ := hb
    obtain ⟨rfl, h1⟩ := readCanon_eq_ok hx
    obtain ⟨rfl, h2⟩ := readCanon_eq_ok hy
    by_cases hc : Spec.Cauchy s.operands.v[rs1] s.operands.v[rs2]
    · rw [genMatrices_ok hv h1 h2 hc] at hab
      injection hab with hab; subst hab
      exact ⟨h1, h2, hc, rfl⟩
    · rw [genMatrices_error hc] at hab; cases hab
  case krnd =>
    obtain ⟨_, _, _, _, _, _, _, _, _, h, rfl⟩ := hb; exact ⟨_, roundStep_below hp h, rfl⟩
  case ernd =>
    obtain ⟨_, _, _, _, _, _, _, _, _, h, rfl⟩ := hb; exact ⟨_, roundStep_below hp h, rfl⟩
  case drnd =>
    obtain ⟨_, _, _, _, _, _, _, _, _, h, rfl⟩ := hb; exact ⟨_, unroundStep_below hp h, rfl⟩
  case ksched k =>
    obtain ⟨_, hm, key, hk, rows, hr, sks, hs, rfl⟩ := hb
    obtain ⟨rfl, hk'⟩ := readCanon_eq_ok hk
    obtain ⟨hR, rfl⟩ := readRcRows_eq_ok hT hr
    obtain ⟨a, b, d⟩ := hT
    rw [deriveSubkeys_ok hv _ _ _ a (by omega)] at hs
    injection hs with hs; subst hs
    exact ⟨require_eq_ok hm, hk', hR, by rw [padSubkeys_eq _ _ b]⟩
  case enc rd rs k =>
    obtain ⟨_, hm, pt, hp', key, hk, rows, hr, sks, hs, ct, hct, rfl⟩ := hb
    obtain ⟨rfl, hk'⟩ := readCanon_eq_ok hk
    obtain ⟨hR, rfl⟩ := readRcRows_eq_ok hT hr
    obtain ⟨a, b, d⟩ := hT
    rw [deriveSubkeys_ok hv _ _ _ a (by omega)] at hs
    injection hs with hs; subst hs
    rw [encryptWith_ok hv _ _ _ a] at hct
    injection hct with hct; subst hct
    exact ⟨require_eq_ok hm, hk', hR, _, encState_below hp _ _ _ _, by rw [padSubkeys_eq _ _ b]⟩
  case dec rd rs k =>
    obtain ⟨_, hm, pt, hp', key, hk, rows, hr, sks, hs, ct, hct, rfl⟩ := hb
    obtain ⟨rfl, hk'⟩ := readCanon_eq_ok hk
    obtain ⟨hR, rfl⟩ := readRcRows_eq_ok hT hr
    obtain ⟨a, b, d⟩ := hT
    rw [deriveSubkeys_ok hv _ _ _ a (by omega)] at hs
    injection hs with hs; subst hs
    rw [decryptWith_ok hv _ _ _ a] at hct
    injection hct with hct; subst hct
    exact ⟨require_eq_ok hm, hk', hR, _, decState_below hp _ _ _ _ _, by rw [padSubkeys_eq _ _ b]⟩

/-- The effect of a successful command keeps the store canonical (R23). -/
theorem effectFacts_canonical {c : Params} (hp : 0 < c.p) {x : Regs} {i : Instr} {e : Effect}
    (h : EffectFacts c x i e) : EffectCanonical c e := by
  cases i <;> simp only [EffectFacts] at h
  case nop => subst h; trivial
  case mdsgen => obtain ⟨_, _, _, rfl⟩ := h; exact ⟨cauchy_below hp _ _, minv_below hp _⟩
  case ksched => obtain ⟨_, _, _, rfl⟩ := h; exact subkeyTable_below hp _ _
  case enc => obtain ⟨_, _, _, r, hr, rfl⟩ := h; exact ⟨hr, subkeyTable_below hp _ _⟩
  case dec => obtain ⟨_, _, _, r, hr, rfl⟩ := h; exact ⟨hr, subkeyTable_below hp _ _⟩
  all_goals obtain ⟨r, hr, rfl⟩ := h; exact hr

end Sys2Proof.Laws
end

