-- ==== Sys2Proof/Laws/Encoding.lean ====
section
/-! SUPPORT. The bits and the fields of a packed command word (30_encoding.md R90). -/

namespace Sys2Proof.Laws

variable (opc : BitVec 8) (rd rs1 rs2 : VReg) (idx : Nat)

/-- The bits of a packed word, field by field from the lowest (R90). -/
theorem getLsbD_packWord (i : Nat) : (packWord opc rd rs1 rs2 idx).getLsbD i =
    if i < 8 then opc.getLsbD i
    else if i - 8 < 4 then (BitVec.ofFin (w := 4) rd).getLsbD (i - 8)
    else if i - 8 - 4 < 4 then (BitVec.ofFin (w := 4) rs1).getLsbD (i - 8 - 4)
    else if i - 8 - 4 - 4 < 4 then (BitVec.ofFin (w := 4) rs2).getLsbD (i - 8 - 4 - 4)
    else if i - 8 - 4 - 4 - 4 < 8 then (BitVec.ofNat 8 idx).getLsbD (i - 8 - 4 - 4 - 4)
    else (0#4).getLsbD (i - 8 - 4 - 4 - 4 - 8) := by
  refine (BitVec.getLsbD_append (x := 0#4 ++ BitVec.ofNat 8 idx ++ BitVec.ofFin (w := 4) rs2 ++
    BitVec.ofFin (w := 4) rs1 ++ BitVec.ofFin (w := 4) rd) (y := opc) (i := i)).trans ?_
  simp only [BitVec.getLsbD_append]

theorem opcField_packWord : opcField (packWord opc rd rs1 rs2 idx) = opc := by
  apply BitVec.eq_of_getLsbD_eq; intro i hi
  simp only [opcField, BitVec.getLsbD_extractLsb', getLsbD_packWord]
  interval_cases i <;> rfl

theorem rdField_packWord : rdField (packWord opc rd rs1 rs2 idx) = BitVec.ofFin (w := 4) rd := by
  apply BitVec.eq_of_getLsbD_eq; intro i hi
  simp only [rdField, BitVec.getLsbD_extractLsb', getLsbD_packWord]
  interval_cases i <;> rfl

theorem rs1Field_packWord : rs1Field (packWord opc rd rs1 rs2 idx) = BitVec.ofFin (w := 4) rs1 := by
  apply BitVec.eq_of_getLsbD_eq; intro i hi
  simp only [rs1Field, BitVec.getLsbD_extractLsb', getLsbD_packWord]
  interval_cases i <;> rfl

theorem rs2Field_packWord : rs2Field (packWord opc rd rs1 rs2 idx) = BitVec.ofFin (w := 4) rs2 := by
  apply BitVec.eq_of_getLsbD_eq; intro i hi
  simp only [rs2Field, BitVec.getLsbD_extractLsb', getLsbD_packWord]
  interval_cases i <;> rfl

theorem idxField_packWord : idxField (packWord opc rd rs1 rs2 idx) = BitVec.ofNat 8 idx := by
  apply BitVec.eq_of_getLsbD_eq; intro i hi
  simp only [idxField, BitVec.getLsbD_extractLsb', getLsbD_packWord]
  interval_cases i <;> rfl

theorem rsvField_packWord : rsvField (packWord opc rd rs1 rs2 idx) = 0#4 := by
  apply BitVec.eq_of_getLsbD_eq; intro i hi
  simp only [rsvField, BitVec.getLsbD_extractLsb', getLsbD_packWord]
  interval_cases i <;> rfl

/-- A packed word is the sum of its shifted fields, as R90 writes it. -/
theorem packWord_eq_commandWord {idx : Nat} (h : idx < 256) :
    packWord opc rd rs1 rs2 idx = Spec.commandWord opc.toNat rd rs1 rs2 idx := by
  apply BitVec.eq_of_toNat_eq
  simp only [packWord, Spec.commandWord, BitVec.toNat_append, BitVec.toNat_ofNat, BitVec.toNat_ofFin]
  have e {a b n : Nat} (h : b < 2 ^ n) : a <<< n ||| b = a * 2 ^ n + b := by
    rw [← Nat.shiftLeft_add_eq_or_of_lt h, Nat.shiftLeft_eq]
  rw [e opc.isLt, e (n := 4) rd.isLt, e (n := 4) rs1.isLt, e (n := 4) rs2.isLt,
    e (n := 8) (Nat.mod_lt _ (by decide))]
  have := rd.isLt; have := rs1.isLt; have := rs2.isLt; have := opc.isLt
  omega

theorem vreg_ofFin (r : VReg) : vreg (BitVec.ofFin (w := 4) r) = r := rfl

/-- A word is determined by its six fields (R90). -/
theorem word_ext {w w' : Word} (h0 : opcField w = opcField w') (h1 : rdField w = rdField w')
    (h2 : rs1Field w = rs1Field w') (h3 : rs2Field w = rs2Field w') (h4 : idxField w = idxField w')
    (h5 : rsvField w = rsvField w') : w = w' := by
  apply BitVec.eq_of_getLsbD_eq; intro i hi
  have bit {n : Nat} (lo : Nat) (hlo : lo ≤ i) (hn : i < lo + n)
      (h : w.extractLsb' lo n = w'.extractLsb' lo n) : w.getLsbD i = w'.getLsbD i := by
    have := congrArg (fun b => b.getLsbD (i - lo)) h
    simpa [BitVec.getLsbD_extractLsb', show i - lo < n by omega, show lo + (i - lo) = i by omega] using this
  by_cases a : i < 8
  · exact bit 0 (by omega) (by omega) h0
  by_cases a : i < 12
  · exact bit 8 (by omega) (by omega) h1
  by_cases a : i < 16
  · exact bit 12 (by omega) (by omega) h2
  by_cases a : i < 20
  · exact bit 16 (by omega) (by omega) h3
  by_cases a : i < 28
  · exact bit 20 (by omega) (by omega) h4
  · exact bit 28 (by omega) (by omega) h5

end Sys2Proof.Laws
end

