-- ==== Sys2Proof/Laws/PerInstr.lean ====
section
/-! SUPPORT. Per instruction: the word of a well-formed command matches the command's own row of the opcode
table (30_encoding.md R101). -/

namespace Sys2Proof.Laws

/-- The word of the command matches the row of the opcode table that has its mnemonic (R101). -/
def MatchesRow.Statement (i : Instr) : Prop :=
  i.WellFormed → ∃ row ∈ opcodeTable, row.name = i.mnemonic ∧ encode i &&& row.mask = row.pattern

/-- A row of the table and the bitwise comparison settle the statement for one command. -/
theorem matchesRow_of_getElem {i : Instr} (n : Nat) (hn : n < opcodeTable.length)
    (hname : opcodeTable[n].name = i.mnemonic)
    (hw : encode i &&& opcodeTable[n].mask = opcodeTable[n].pattern) : MatchesRow.Statement i :=
  fun _ => ⟨opcodeTable[n], List.getElem_mem hn, hname, hw⟩

theorem MatchesRow.nop : MatchesRow.Statement .nop :=
  matchesRow_of_getElem 0 (by decide) rfl (by decide)

theorem MatchesRow.vadd (rd rs1 rs2 : VReg) : MatchesRow.Statement (.vadd rd rs1 rs2) :=
  matchesRow_of_getElem 1 (by decide) rfl <| BitVec.eq_of_getLsbD_eq fun i hi => by
    simp only [encode, BitVec.getLsbD_and, getLsbD_packWord]
    interval_cases i <;> simp [opcodeTable]

theorem MatchesRow.vsub (rd rs1 rs2 : VReg) : MatchesRow.Statement (.vsub rd rs1 rs2) :=
  matchesRow_of_getElem 2 (by decide) rfl <| BitVec.eq_of_getLsbD_eq fun i hi => by
    simp only [encode, BitVec.getLsbD_and, getLsbD_packWord]
    interval_cases i <;> simp [opcodeTable]

theorem MatchesRow.vmul (rd rs1 rs2 : VReg) : MatchesRow.Statement (.vmul rd rs1 rs2) :=
  matchesRow_of_getElem 3 (by decide) rfl <| BitVec.eq_of_getLsbD_eq fun i hi => by
    simp only [encode, BitVec.getLsbD_and, getLsbD_packWord]
    interval_cases i <;> simp [opcodeTable]

theorem MatchesRow.vmov (rd rs1 : VReg) : MatchesRow.Statement (.vmov rd rs1) :=
  matchesRow_of_getElem 4 (by decide) rfl <| BitVec.eq_of_getLsbD_eq fun i hi => by
    simp only [encode, BitVec.getLsbD_and, getLsbD_packWord]
    interval_cases i <;> simp [opcodeTable]

theorem MatchesRow.vdot (rd rs1 rs2 : VReg) : MatchesRow.Statement (.vdot rd rs1 rs2) :=
  matchesRow_of_getElem 5 (by decide) rfl <| BitVec.eq_of_getLsbD_eq fun i hi => by
    simp only [encode, BitVec.getLsbD_and, getLsbD_packWord]
    interval_cases i <;> simp [opcodeTable]

theorem MatchesRow.sbox (rd rs1 : VReg) : MatchesRow.Statement (.sbox rd rs1) :=
  matchesRow_of_getElem 6 (by decide) rfl <| BitVec.eq_of_getLsbD_eq fun i hi => by
    simp only [encode, BitVec.getLsbD_and, getLsbD_packWord]
    interval_cases i <;> simp [opcodeTable]

theorem MatchesRow.isbox (rd rs1 : VReg) : MatchesRow.Statement (.isbox rd rs1) :=
  matchesRow_of_getElem 7 (by decide) rfl <| BitVec.eq_of_getLsbD_eq fun i hi => by
    simp only [encode, BitVec.getLsbD_and, getLsbD_packWord]
    interval_cases i <;> simp [opcodeTable]

theorem MatchesRow.mds (rd rs1 : VReg) : MatchesRow.Statement (.mds rd rs1) :=
  matchesRow_of_getElem 8 (by decide) rfl <| BitVec.eq_of_getLsbD_eq fun i hi => by
    simp only [encode, BitVec.getLsbD_and, getLsbD_packWord]
    interval_cases i <;> simp [opcodeTable]

theorem MatchesRow.imds (rd rs1 : VReg) : MatchesRow.Statement (.imds rd rs1) :=
  matchesRow_of_getElem 9 (by decide) rfl <| BitVec.eq_of_getLsbD_eq fun i hi => by
    simp only [encode, BitVec.getLsbD_and, getLsbD_packWord]
    interval_cases i <;> simp [opcodeTable]

theorem MatchesRow.addrc (rd rs1 : VReg) (idx : Nat) : MatchesRow.Statement (.addrc rd rs1 idx) :=
  matchesRow_of_getElem 10 (by decide) rfl <| BitVec.eq_of_getLsbD_eq fun i hi => by
    simp only [encode, BitVec.getLsbD_and, getLsbD_packWord]
    interval_cases i <;> simp [opcodeTable]

theorem MatchesRow.addsk (rd rs1 : VReg) (idx : Nat) : MatchesRow.Statement (.addsk rd rs1 idx) :=
  matchesRow_of_getElem 11 (by decide) rfl <| BitVec.eq_of_getLsbD_eq fun i hi => by
    simp only [encode, BitVec.getLsbD_and, getLsbD_packWord]
    interval_cases i <;> simp [opcodeTable]

theorem MatchesRow.subsk (rd rs1 : VReg) (idx : Nat) : MatchesRow.Statement (.subsk rd rs1 idx) :=
  matchesRow_of_getElem 12 (by decide) rfl <| BitVec.eq_of_getLsbD_eq fun i hi => by
    simp only [encode, BitVec.getLsbD_and, getLsbD_packWord]
    interval_cases i <;> simp [opcodeTable]

theorem MatchesRow.mdsgen (rs1 rs2 : VReg) : MatchesRow.Statement (.mdsgen rs1 rs2) :=
  matchesRow_of_getElem 13 (by decide) rfl <| BitVec.eq_of_getLsbD_eq fun i hi => by
    simp only [encode, BitVec.getLsbD_and, getLsbD_packWord]
    interval_cases i <;> simp [opcodeTable]

theorem MatchesRow.krnd (rd rs1 : VReg) (idx : Nat) : MatchesRow.Statement (.krnd rd rs1 idx) :=
  matchesRow_of_getElem 14 (by decide) rfl <| BitVec.eq_of_getLsbD_eq fun i hi => by
    simp only [encode, BitVec.getLsbD_and, getLsbD_packWord]
    interval_cases i <;> simp [opcodeTable]

theorem MatchesRow.ernd (rd rs1 : VReg) (idx : Nat) : MatchesRow.Statement (.ernd rd rs1 idx) :=
  matchesRow_of_getElem 15 (by decide) rfl <| BitVec.eq_of_getLsbD_eq fun i hi => by
    simp only [encode, BitVec.getLsbD_and, getLsbD_packWord]
    interval_cases i <;> simp [opcodeTable]

theorem MatchesRow.drnd (rd rs1 : VReg) (idx : Nat) : MatchesRow.Statement (.drnd rd rs1 idx) :=
  matchesRow_of_getElem 16 (by decide) rfl <| BitVec.eq_of_getLsbD_eq fun i hi => by
    simp only [encode, BitVec.getLsbD_and, getLsbD_packWord]
    interval_cases i <;> simp [opcodeTable]

theorem MatchesRow.ksched (rs1 : VReg) : MatchesRow.Statement (.ksched rs1) :=
  matchesRow_of_getElem 17 (by decide) rfl <| BitVec.eq_of_getLsbD_eq fun i hi => by
    simp only [encode, BitVec.getLsbD_and, getLsbD_packWord]
    interval_cases i <;> simp [opcodeTable]

theorem MatchesRow.enc (rd rs1 rs2 : VReg) : MatchesRow.Statement (.enc rd rs1 rs2) :=
  matchesRow_of_getElem 18 (by decide) rfl <| BitVec.eq_of_getLsbD_eq fun i hi => by
    simp only [encode, BitVec.getLsbD_and, getLsbD_packWord]
    interval_cases i <;> simp [opcodeTable]

theorem MatchesRow.dec (rd rs1 rs2 : VReg) : MatchesRow.Statement (.dec rd rs1 rs2) :=
  matchesRow_of_getElem 19 (by decide) rfl <| BitVec.eq_of_getLsbD_eq fun i hi => by
    simp only [encode, BitVec.getLsbD_and, getLsbD_packWord]
    interval_cases i <;> simp [opcodeTable]

end Sys2Proof.Laws
end

