-- ==== Sys2Proof/Laws/Step.lean ====
section
/-! SUPPORT. All that a step and a host access can do, once each; the later proofs cite these lemmas and
unfold neither. -/

namespace Sys2Proof.Laws

open Sys2Proof.Machine

/-- All that a step which answers a next state can be: the move is taken from the list, and then nothing is
in flight, a command completes, a word that is no command completes, the host accesses the window, or the
reset input changes. -/
theorem step_cases {s t : State} (h : step s = .next t) :
    let s' : State := { s with inputs := s.inputs.tail }
    (s.inflight = none ∧ t = s') ∨
    (∃ f i, s.inflight = some f ∧ decode f.cmd = .ok i ∧ exec i s' = .next t) ∨
    (∃ f e, s.inflight = some f ∧ decode f.cmd = .error e ∧ t = completeIllegal s') ∨
    (∃ a rest, s.inputs = .access a :: rest ∧ s.inReset = false ∧ t = hostAccess a s') ∨
    ∃ level rest, (s.inputs = .assertReset :: rest ∨ s.inputs = .releaseReset :: rest) ∧
      t = resetTo level s' := by
  intro s'
  have hc (h : completeInFlight s' = .next t) :
      (s.inflight = none ∧ t = s') ∨
      (∃ f i, s.inflight = some f ∧ decode f.cmd = .ok i ∧ exec i s' = .next t) ∨
      ∃ f e, s.inflight = some f ∧ decode f.cmd = .error e ∧ t = completeIllegal s' := by
    unfold completeInFlight at h
    split at h
    · rename_i hn; injection h with h; exact .inl ⟨hn, h.symm⟩
    · rename_i f hf
      split at h
      · rename_i i hi; exact .inr (.inl ⟨f, i, hf, hi, h⟩)
      · rename_i e hi; injection h with h; exact .inr (.inr ⟨f, e, hf, hi, h.symm⟩)
  cases hi : s.inputs with
  | nil =>
    have e : s' = s := by simp only [s', hi, List.tail_nil]; cases s; simp_all
    simp only [step, nextMove, hi] at h
    rw [← e] at h
    rcases hc h with h | h | h
    · exact .inl h
    · exact .inr (.inl h)
    · exact .inr (.inr (.inl h))
  | cons e rest =>
    have hs : s' = { s with inputs := rest } := by simp only [s', hi, List.tail_cons]
    simp only [step, nextMove, hi] at h
    rw [← hs] at h
    cases e with
    | complete =>
      rcases hc h with h | h | h
      · exact .inl h
      · exact .inr (.inl h)
      · exact .inr (.inr (.inl h))
    | assertReset => injection h with h; exact .inr (.inr (.inr (.inr ⟨_, rest, .inl rfl, h.symm⟩)))
    | releaseReset => injection h with h; exact .inr (.inr (.inr (.inr ⟨_, rest, .inr rfl, h.symm⟩)))
    | access a =>
      simp only [takeEvent] at h
      split at h
      · cases h
      · rename_i hr; injection h with h
        exact .inr (.inr (.inr (.inl ⟨a, rest, rfl, by simpa [s'] using hr, h.symm⟩)))

/-- All that a host access can do to the state, its response aside. -/
theorem hostAccess_cases (a : Access) (s : State) :
    ∃ resp,
      hostAccess a s = { s with resp := resp } ∨
      (∃ addr d, a = .write .word addr d ∧ busTarget s.cfg .word addr = some .status ∧
        hostAccess a s = { s.writeStatus d with resp := resp }) ∨
      (∃ addr g d, a = .write .word addr d ∧ s.busy = true ∧ busTarget s.cfg .word addr = some g ∧
        g ≠ .status ∧ hostAccess a s = { s with lost := true, resp := resp }) ∨
      (∃ addr d, a = .write .word addr d ∧ s.busy = false ∧ busTarget s.cfg .word addr = some .cfg ∧
        hostAccess a s = { s.writeCfg d with resp := resp }) ∨
      (∃ addr d, a = .write .word addr d ∧ s.busy = false ∧ busTarget s.cfg .word addr = some .cmd ∧
        hostAccess a s = { acceptCommand s d with resp := resp }) ∨
      ∃ addr slot k d, a = .write .word addr d ∧ s.busy = false ∧
        busTarget s.cfg .word addr = some (.limb slot k) ∧
        hostAccess a s = { s with regs := writeSlot s.cfg s.regs slot k d, resp := resp } := by
  cases a with
  | read shape addr =>
    simp only [hostAccess]; split <;> exact ⟨_, .inl rfl⟩
  | write shape addr d =>
    cases hg : busTarget s.cfg shape addr with
    | none => exact ⟨some .writeError, .inl (by simp only [hostAccess, hg])⟩
    | some g =>
      obtain rfl : shape = .word := by
        by_contra hne
        simp [busTarget, hne] at hg
      have he : hostAccess (.write .word addr d) s = { writeTarget s g d with resp := some .writeOkay } := by
        simp only [hostAccess, hg]
      refine ⟨some .writeOkay, ?_⟩
      rw [he]
      by_cases hst : g = .status
      · subst hst; exact .inr (.inl ⟨addr, d, rfl, hg, rfl⟩)
      cases hb : s.busy with
      | true =>
        refine .inr (.inr (.inl ⟨addr, g, d, rfl, rfl, hg, hst, ?_⟩))
        cases g <;> simp_all [writeTarget, State.dropWrite]
      | false =>
        cases g with
        | id => exact .inl (by simp [writeTarget, hb])
        | cap => exact .inl (by simp [writeTarget, hb])
        | errcode => exact .inl (by simp [writeTarget, hb])
        | status => exact absurd rfl hst
        | cfg => exact .inr (.inr (.inr (.inl ⟨addr, d, rfl, rfl, hg, by simp [writeTarget, hb]⟩)))
        | cmd => exact .inr (.inr (.inr (.inr (.inl ⟨addr, d, rfl, rfl, hg, by simp [writeTarget, hb]⟩))))
        | limb slot k =>
          exact .inr (.inr (.inr (.inr (.inr ⟨addr, slot, k, d, rfl, rfl, hg, by simp [writeTarget, hb]⟩))))

/-- A run of one step more takes the step first. -/
theorem run_succ {s t : State} (n : Nat) (h : step s = .next t) :
    Host.Core.run core (n + 1) s = Host.Core.run core n t := by
  simp only [Host.Core.run, core, h]

/-- The operands of a command are the committed registers where the snapshot is (R40). -/
theorem operands_eq_regs {s : State} (hs : Spec.StoreOk s) : s.operands = s.regs := by
  unfold State.operands
  split
  · rename_i f hf; exact hs.snapshot f hf
  · rfl

theorem tablesFull_of_storeOk {s : State} (hs : Spec.StoreOk s) : Spec.TablesFull s.cfg s.operands := by
  rw [operands_eq_regs hs]; exact ⟨hs.rounds.1, hs.rounds.2, hs.store.1⟩

end Sys2Proof.Laws
end

