-- ==== Sys2Proof/Machine/HostSide.lean ====
section
/-! DEFINITION. The host's notation (30_encoding.md R103): its primitives and pseudo-instructions as the
accesses they expand to, and the boot sequence (70_reset_and_hazards.md R275). Waiting, branching and the
host's variables are the host's own (entry 20). -/

namespace Sys2Proof.Machine

/-- `wr ADDR, DATA`, that is MemWrite(ADDR, 4, DATA) (R103). -/
def hostWr (addr : Nat) (d : Word) : Event := .access (.write .word (BitVec.ofNat 18 addr) d)

/-- `rd ADDR`, that is MemRead(ADDR, 4) (R103). -/
def hostRd (addr : Nat) : Event := .access (.read .word (BitVec.ofNat 18 addr))

/-- `limb_k(x) = (x >> 32k) & 0xFFFFFFFF` (R103). -/
def hostLimb (x k : Nat) : Word := BitVec.ofNat 32 (x >>> (32 * k))

/-- `cmd TEXT` for the command that TEXT names (R102, R103). -/
def hostCmd (i : Instr) : List Event := [hostWr 0x0000C (encode i)]

/-- The writes of one element, limb by limb (R103). -/
def hostElem (c : Params) (slot : Slot) (x : Nat) : List Event :=
  (List.range c.limbs).map fun k => hostWr (slotBase slot + 4 * k) (hostLimb x k)

/-- `ldv vR, (a, b, c)` (R103). -/
def hostLdv (c : Params) (r : VReg) (x : Vec) : List Event :=
  hostElem c (.v r 0) x.e0 ++ hostElem c (.v r 1) x.e1 ++ hostElem c (.v r 2) x.e2

/-- `ldrc #i, (a, b, c)` (R103). -/
def hostLdrc (c : Params) (i : Nat) (x : Vec) : List Event :=
  hostElem c (.rc i 0) x.e0 ++ hostElem c (.rc i 1) x.e1 ++ hostElem c (.rc i 2) x.e2

/-- `rdv vR`: the 3L reads of V[R]'s limbs (R103). -/
def hostRdv (c : Params) (r : VReg) : List Event :=
  ([0, 1, 2] : List Lane).flatMap fun j =>
    (List.range c.limbs).map fun k => hostRd (slotBase (.v r j) + 4 * k)

/-- `setr n` (R103). -/
def hostSetr (n : Nat) : List Event := [hostWr 0x00008 (BitVec.ofNat 32 n)]

/-- `run TEXT` where the completion falls before the host's first poll: the command, its completion, one
poll of STATUS and the read of ERRCODE (R103). Other interleavings are other lists of moves. -/
def hostRun (i : Instr) : List Event := hostCmd i ++ [.complete, hostRd 0x00010, hostRd 0x00014]

/-- The boot sequence for the round constants `rcs` and the Cauchy vectors X and Y (R275). -/
def hostBoot (c : Params) (rcs : List Vec) (x y : Vec) : List Event :=
  hostSetr rcs.length ++ (rcs.zipIdx.flatMap fun (row, i) => hostLdrc c i row) ++
    hostLdv c 0 x ++ hostLdv c 1 y ++ hostRun (.mdsgen 0 1)

end Sys2Proof.Machine
end

