-- ==== Sys2Proof/Tests/Slice0.lean ====
section
/-! SUPPORT. The model's own tests: the form check, one written-out word for every command, the spec's
example values (95_test_vectors.md), and for each statement with hypotheses a state that meets them. -/

namespace Sys2Proof.Tests

open Sys2Proof.Machine

/-! ### Helpers: parameter set T1 and small states -/

/-- The round constants of T1 (95 section 2), the last row zero. -/
def t1Rows : List Vec :=
  [⟨1, 2, 3⟩, ⟨4, 5, 6⟩, ⟨7, 8, 9⟩, ⟨10, 11, 12⟩, ⟨13, 14, 15⟩, ⟨16, 17, 18⟩, ⟨19, 20, 21⟩, ⟨0, 0, 0⟩]

/-- The matrix of vector X1. -/
def x1M : Mat := ⟨⟨15, 17, 9⟩, ⟨11, 15, 17⟩, ⟨22, 11, 15⟩⟩

/-- The inverse matrix of vector X1. -/
def x1MI : Mat := ⟨⟨16, 13, 14⟩, ⟨19, 15, 13⟩, ⟨4, 19, 16⟩⟩

/-- The subkeys of vector K1, padded with zero rows. -/
def k1Rows : List Vec :=
  [⟨8, 13, 16⟩, ⟨13, 18, 0⟩, ⟨19, 7, 10⟩, ⟨15, 12, 13⟩] ++ List.replicate 4 ⟨0, 0, 0⟩

/-- `s` with `V[r]` loaded, no command in flight. -/
def ld (r : VReg) (v : Vec) (s : State) : State := { s with regs := s.regs.setV r v }

/-- A block with T1 right after reset. -/
def fresh : State := State.resetWith Params.t1

/-- The block after K1: M and MI of X1, R = 4, the subkeys of key (7, 11, 13); V0 = (1, 2, 3),
V1 = (7, 11, 13), V2 = (P, 0, 0), V3 = (P-1, P-1, P-1), V4 = (9, 15, 19), V5 = (9, 2, 17),
V6 = (4, 5, 6). -/
def ready : State :=
  ld 0 ⟨1, 2, 3⟩ <| ld 1 ⟨7, 11, 13⟩ <| ld 2 ⟨23, 0, 0⟩ <| ld 3 ⟨22, 22, 22⟩ <| ld 4 ⟨9, 15, 19⟩ <|
  ld 5 ⟨9, 2, 17⟩ <| ld 6 ⟨4, 5, 6⟩
    { fresh with
      regs :=
        { fresh.regs with
          rc := t1Rows, sk := k1Rows, m := x1M, mi := x1MI, rounds := 4#9, mvalid := true, skvalid := true }
      done := true }

/-- `ready` with another round count. -/
def withRounds (r : BitVec 9) (s : State) : State := { s with regs := { s.regs with rounds := r } }

/-- `ready` with the flags as given. -/
def flags (mvalid skvalid : Bool) (s : State) : State :=
  { s with regs := { s.regs with mvalid := mvalid, skvalid := skvalid } }

/-- `ready` with RC[3], the last row below R = 4, not canonical. -/
def badRow : State := { ready with regs := { ready.regs with rc := t1Rows.set 3 ⟨23, 0, 0⟩ } }

/-- `ready` with FATAL set, as CONSTRAINT leaves it. -/
def fatal : State := { ready with fatal := true, errcode := 0x08#8 }

/-- `ready` with a wrong EINV (95 section 6: fault injection, EINV = 3). -/
def faulty : State := { ready with cfg := { Params.t1 with einv := 3 } }

/-- `s` with the word of vector Q1 in flight, accepted from `s`. -/
def busyWith (word : Word) (s : State) : State := acceptCommand s word

/-- The register `r` and ERRCODE after a command. -/
def after (i : Instr) (s : State) (r : VReg) : Option (Vec × BitVec 8) :=
  match exec i s with
  | .next t => some (t.regs.v[r], t.errcode)
  | .fault _ => none
  | .refused _ => none

/-- STATUS and ERRCODE after a command. -/
def statusAfter (i : Instr) (s : State) : Option (Word × BitVec 8) :=
  match exec i s with
  | .next t => some (t.statusWord, t.errcode)
  | .fault _ => none
  | .refused _ => none

/-- The state after a step, `s` itself where the step stops. -/
def stepped (s : State) : State :=
  match step s with
  | .next t => t
  | .fault _ => s
  | .refused _ => s

/-- The response to a read of `addr`. -/
def rd (addr : BitVec 18) (s : State) : Option Response := (hostAccess (.read .word addr) s).resp

/-- The state after a write of `d` to `addr`. -/
def wr (addr : BitVec 18) (d : Word) (s : State) : State := hostAccess (.write .word addr d) s

/-! ### WellFormed: an index that does not fit 8 bits is refused (R90, R91) -/

theorem test_wf_addrc : ¬ (Instr.addrc 0 0 256).WellFormed ∧ (Instr.addrc 15 15 255).WellFormed := by decide

theorem test_wf_addsk : ¬ (Instr.addsk 0 0 256).WellFormed ∧ (Instr.addsk 15 15 255).WellFormed := by decide

theorem test_wf_subsk : ¬ (Instr.subsk 0 0 256).WellFormed ∧ (Instr.subsk 15 15 255).WellFormed := by decide

theorem test_wf_krnd : ¬ (Instr.krnd 0 0 256).WellFormed ∧ (Instr.krnd 15 15 255).WellFormed := by decide

theorem test_wf_ernd : ¬ (Instr.ernd 0 0 256).WellFormed ∧ (Instr.ernd 15 15 255).WellFormed := by decide

theorem test_wf_drnd : ¬ (Instr.drnd 0 0 256).WellFormed ∧ (Instr.drnd 15 15 255).WellFormed := by decide

/-! ### Decoding: for every command a word written out from R90 and R94, `RSV IDX RS2 RS1 RD OPC` from bit 31 -/

theorem test_decode_nop : decode 0b0000_00000000_0000_0000_0000_00000000#32 = .ok (.nop) := by decide

theorem test_decode_vadd : decode 0b0000_00000000_0010_0001_0011_00000001#32 = .ok (.vadd 3 1 2) := by decide

theorem test_decode_vsub : decode 0b0000_00000000_1111_0001_0011_00000010#32 = .ok (.vsub 3 1 15) := by decide

theorem test_decode_vmul : decode 0b0000_00000000_0001_0001_0001_00000011#32 = .ok (.vmul 1 1 1) := by decide

theorem test_decode_vmov : decode 0b0000_00000000_0000_0101_0110_00000100#32 = .ok (.vmov 6 5) := by decide

theorem test_decode_vdot : decode 0b0000_00000000_0010_0001_0011_00000101#32 = .ok (.vdot 3 1 2) := by decide

theorem test_decode_sbox : decode 0b0000_00000000_0000_0000_0001_00001000#32 = .ok (.sbox 1 0) := by decide

theorem test_decode_isbox : decode 0b0000_00000000_0000_0001_0010_00001001#32 = .ok (.isbox 2 1) := by decide

theorem test_decode_mds : decode 0b0000_00000000_0000_0010_0100_00001100#32 = .ok (.mds 4 2) := by decide

theorem test_decode_imds : decode 0b0000_00000000_0000_0001_0010_00001101#32 = .ok (.imds 2 1) := by decide

theorem test_decode_addrc : decode 0b0000_00000010_0000_0001_0001_00010000#32 = .ok (.addrc 1 1 2) := by decide

theorem test_decode_addsk : decode 0b0000_00000000_0000_0000_0100_00010001#32 = .ok (.addsk 4 0 0) := by decide

theorem test_decode_subsk : decode 0b0000_00000000_0000_0101_0101_00010010#32 = .ok (.subsk 5 5 0) := by decide

theorem test_decode_mdsgen : decode 0b0000_00000000_0001_0000_0000_00011000#32 = .ok (.mdsgen 0 1) := by decide

theorem test_decode_krnd : decode 0b0000_00000001_0000_0001_0001_00100000#32 = .ok (.krnd 1 1 1) := by decide

theorem test_decode_ernd : decode 0b0000_11111111_0000_0100_0100_00100001#32 = .ok (.ernd 4 4 255) := by decide

theorem test_decode_drnd : decode 0b0000_00000011_0000_0100_0101_00100010#32 = .ok (.drnd 5 4 3) := by decide

theorem test_decode_ksched : decode 0b0000_00000000_0000_0010_0000_00101000#32 = .ok (.ksched 2) := by decide

theorem test_decode_enc : decode 0b0000_00000000_0001_0000_0010_00101001#32 = .ok (.enc 2 0 1) := by decide

theorem test_decode_dec : decode 0b0000_00000000_0001_0010_0011_00101010#32 = .ok (.dec 3 2 1) := by decide

/-- E13 to E21: the words that are ILLEGAL. -/
theorem test_illegal_words :
    decode 0x000000FF#32 = .error .reservedOpcode ∧ decode 0x00000006#32 = .error .reservedOpcode ∧
    decode 0x10000000#32 = .error .reservedBits ∧ decode 0x00000100#32 = .error .unusedField ∧
    decode 0x00010004#32 = .error .unusedField ∧ decode 0x00100001#32 = .error .unusedField ∧
    decode 0x00010118#32 = .error .unusedField ∧ decode 0x00012028#32 = .error .unusedField ∧
    decode 0xF0304421#32 = .error .reservedBits := by decide

theorem test_table_word :
    decodeTableWord 32 0x1230A2A = none ∧ decodeTableWord 32 0x1232A = some (.dec 3 2 1) ∧
    decodeTableWord 8 0x1232A = some (.dec 0 0 0) := by decide

/-! ### One step of each command: the examples of the rules and of 95 sections 5 to 9 -/

/-- R125's example: STATUS = 2. -/
theorem test_nop : statusAfter .nop fresh = some (2#32, 0#8) := by decide

/-- E13: an ILLEGAL word from reset leaves STATUS = 6. -/
theorem test_illegal :
    (stepped (fresh.withFetchWord 32 0xFF)).statusWord = 6#32 ∧
    (stepped (fresh.withFetchWord 32 0xFF)).errcode = 1#8 := by decide

/-- A1. -/
theorem test_vadd : after (.vadd 3 1 2) (ld 1 ⟨22, 22, 0⟩ (ld 2 ⟨1, 22, 0⟩ fresh)) 3 = some (⟨0, 21, 0⟩, 0#8) := by decide

/-- A2. -/
theorem test_vsub : after (.vsub 3 1 2) (ld 1 ⟨0, 1, 5⟩ (ld 2 ⟨1, 22, 5⟩ fresh)) 3 = some (⟨22, 2, 0⟩, 0#8) := by decide

/-- A3. -/
theorem test_vmul : after (.vmul 3 1 2) (ld 1 ⟨22, 22, 5⟩ (ld 2 ⟨22, 0, 14⟩ fresh)) 3 = some (⟨1, 0, 1⟩, 0#8) := by decide

/-- A7. -/
theorem test_vmul_same : after (.vmul 1 1 1) (ld 1 ⟨3, 4, 5⟩ fresh) 1 = some (⟨9, 16, 2⟩, 0#8) := by decide

/-- A4. -/
theorem test_vdot : after (.vdot 3 1 2) (ld 1 ⟨1, 2, 3⟩ (ld 2 ⟨4, 5, 6⟩ fresh)) 3 = some (⟨9, 9, 9⟩, 0#8) := by decide

/-- A6. -/
theorem test_vmov : after (.vmov 3 1) (ld 1 ⟨5, 6, 7⟩ fresh) 3 = some (⟨5, 6, 7⟩, 0#8) := by decide

/-- W15. -/
theorem test_vmov_noncanonical : after (.vmov 1 0) (ld 0 ⟨23, 0, 0⟩ (ld 1 ⟨5, 6, 7⟩ fresh)) 1 = some (⟨5, 6, 7⟩, 2#8) := by decide

/-- A13. -/
theorem test_addrc : after (.addrc 1 0 2) ready 1 = some (⟨8, 10, 12⟩, 0#8) := by decide

/-- A15. -/
theorem test_addrc_range : after (.addrc 1 0 1) fresh 1 = some (⟨0, 0, 0⟩, 5#8) := by decide

/-- A16. -/
theorem test_addsk : after (.addsk 7 0 0) ready 7 = some (⟨9, 15, 19⟩, 0#8) := by decide

/-- A18. -/
theorem test_addsk_reset : after (.addsk 4 0 0) fresh 4 = some (⟨0, 0, 0⟩, 4#8) := by decide

/-- A17. -/
theorem test_subsk : after (.subsk 7 4 0) ready 7 = some (⟨1, 2, 3⟩, 0#8) := by decide

/-- B2. -/
theorem test_sbox : after (.sbox 1 0) (ld 0 ⟨2, 3, 22⟩ fresh) 1 = some (⟨9, 13, 22⟩, 0#8) := by decide

/-- B3. -/
theorem test_isbox : after (.isbox 2 1) (ld 1 ⟨9, 13, 22⟩ fresh) 2 = some (⟨2, 3, 22⟩, 0#8) := by decide

/-- 95 section 6. -/
theorem test_isbox_constraint : after (.isbox 2 1) (ld 1 ⟨2, 0, 0⟩ faulty) 2 = some (⟨23, 0, 0⟩, 8#8) := by decide

/-- X8. -/
theorem test_mds : after (.mds 7 0) ready 7 = some (⟨7, 0, 20⟩, 0#8) := by decide

/-- X9. -/
theorem test_imds : after (.imds 2 1) (ld 1 ⟨7, 0, 20⟩ ready) 2 = some (⟨1, 2, 3⟩, 0#8) := by decide

/-- X11. -/
theorem test_imds_reset : after (.imds 2 1) fresh 2 = some (⟨0, 0, 0⟩, 3#8) := by decide

/-- K3. -/
theorem test_krnd : after (.krnd 1 1 1) (ld 1 ⟨8, 13, 16⟩ ready) 1 = some (⟨13, 18, 0⟩, 0#8) := by decide

/-- K4. -/
theorem test_ernd : after (.ernd 4 4 1) ready 4 = some (⟨21, 8, 12⟩, 0#8) := by decide

/-- K4. -/
theorem test_ernd_even : after (.ernd 4 4 2) (ld 4 ⟨21, 8, 12⟩ ready) 4 = some (⟨11, 2, 17⟩, 0#8) := by decide

/-- K5. -/
theorem test_drnd : after (.drnd 4 4 1) (ld 4 ⟨21, 8, 12⟩ ready) 4 = some (⟨9, 15, 19⟩, 0#8) := by decide

/-- K17. -/
theorem test_drnd_range : after (.drnd 4 4 4) ready 4 = some (⟨9, 15, 19⟩, 5#8) := by decide

/-- K6. -/
theorem test_enc : after (.enc 2 0 1) ready 2 = some (⟨9, 2, 17⟩, 0#8) := by decide

/-- K7. -/
theorem test_enc_r7 : after (.enc 2 0 1) (withRounds 7#9 ready) 2 = some (⟨20, 1, 15⟩, 0#8) := by decide

/-- K6. -/
theorem test_dec : after (.dec 7 5 1) ready 7 = some (⟨1, 2, 3⟩, 0#8) := by decide

/-- K10, K20: R = 5. -/
theorem test_dec_odd_r : after (.dec 7 6 1) (withRounds 5#9 (ld 6 ⟨20, 2, 9⟩ ready)) 7 = some (⟨1, 2, 3⟩, 0#8) := by decide

/-- The matrices after a command. -/
def matricesAfter (i : Instr) (s : State) : Option (Mat × Mat × Word) :=
  match exec i s with
  | .next t => some (t.regs.m, t.regs.mi, t.statusWord)
  | .fault _ => none
  | .refused _ => none

/-- X1. -/
theorem test_mdsgen :
    matricesAfter (.mdsgen 0 1) (ld 0 ⟨1, 2, 3⟩ (ld 1 ⟨4, 5, 6⟩ fresh)) = some (x1M, x1MI, 0x0A#32) := by decide

/-- X4, X6: rs1 = rs2 collides, and a non-canonical X is reported first. -/
theorem test_mdsgen_errors :
    statusAfter (.mdsgen 0 0) fresh = some (6#32, 6#8) ∧
    statusAfter (.mdsgen 0 0) (ld 0 ⟨23, 2, 3⟩ fresh) = some (6#32, 2#8) := by decide

/-- The subkey table and STATUS after a command. -/
def subkeysAfter (i : Instr) (s : State) : Option (List Vec × Word) :=
  match exec i s with
  | .next t => some (t.regs.sk, t.statusWord)
  | .fault _ => none
  | .refused _ => none

/-- K1. -/
theorem test_ksched : subkeysAfter (.ksched 1) (flags true false ready) = some (k1Rows, 0x1A#32) := by decide

/-- K19: a non-canonical row below R, nothing written. -/
theorem test_ksched_noncanonical : subkeysAfter (.ksched 1) badRow = some (k1Rows, 0x1E#32) := by decide

/-- P1, P2, P3, P6: the priority of errors. -/
theorem test_priority :
    (statusAfter (.ernd 4 4 0) fresh).map Prod.snd = some 3#8 ∧
    (statusAfter (.ernd 2 2 1) (withRounds 1#9 (flags true false ready))).map Prod.snd = some 4#8 ∧
    (statusAfter (.ernd 2 2 4) ready).map Prod.snd = some 5#8 ∧
    (statusAfter .nop fatal).map Prod.snd = some 9#8 := by decide

/-- 95 section 6: CONSTRAINT sets FATAL. -/
theorem test_constraint_sets_fatal :
    statusAfter (.isbox 2 1) (ld 1 ⟨2, 0, 0⟩ faulty) = some (0x3E#32, 8#8) := by decide

/-! ### The register window (95 section 4) -/

/-- W1 to W4, W11, W12. -/
theorem test_window_reads :
    rd 0x00000 fresh = some (.readOkay 0x52455343) ∧ rd 0x00004 fresh = some (.readOkay 0x00050803) ∧
    rd 0x00008 fresh = some (.readOkay 1) ∧ rd 0x00010 fresh = some (.readOkay 0) ∧
    rd 0x02800 fresh = some (.readOkay 23) ∧ rd 0x02840 fresh = some (.readOkay 9) := by decide

/-- W5, W6, W8, W9, W10, and the last word of V and of RC. -/
theorem test_window_edges :
    rd 0x00018 fresh = some (.readError 0) ∧ rd 0x00002 fresh = some (.readError 0) ∧
    rd 0x01004 fresh = some (.readOkay 0) ∧ rd 0x01C00 fresh = some (.readError 0) ∧
    rd 0x10600 fresh = some (.readError 0) ∧ rd 0x105FC ready = some (.readOkay 0) ∧
    rd 0x01BFC ready = some (.readOkay 0) ∧ rd 0x10240 ready = some (.readOkay 10) := by decide

/-- W7, W13, W21, W22. -/
theorem test_window_writes :
    (hostAccess (.write .word 0x01001 5) fresh).resp = some .writeError ∧
    rd 0x01000 (wr 0x01000 0xFFFFFFFF fresh) = some (.readOkay 0x1F) ∧
    rd 0x20000 (wr 0x20000 5 fresh) = some (.readOkay 0) ∧
    rd 0x00000 (wr 0x00000 1 fresh) = some (.readOkay 0x52455343) := by decide

/-- W17 to W20. -/
theorem test_cfg_writes :
    (wr 0x00008 0 fresh).cfgWord = 1 ∧ (wr 0x00008 9 fresh).cfgWord = 1 ∧
    (wr 0x00008 0x00010004 fresh).cfgWord = 0x00010004 ∧
    (wr 0x00008 0xFFFFFFFF (wr 0x00008 0x00010004 fresh)).cfgWord = 0x00010004 := by decide

/-- P9, P10, P11, P8: which writes clear SKVALID. -/
theorem test_skvalid_writes :
    (wr 0x00008 4 ready).regs.skvalid = true ∧ (wr 0x00008 5 ready).regs.skvalid = false ∧
    (wr 0x10540 1 ready).regs.skvalid = false ∧ (wr 0x010C0 5 ready).regs.skvalid = true := by decide

/-- T3's limbs: limb 7 of V4[0] takes bits 254:224 only (95 section 4). -/
theorem test_limb_t3 :
    limbOf { p := 2 ^ 254 + 1, rmax := 8, einv := 1 }
      (setLimb { p := 2 ^ 254 + 1, rmax := 8, einv := 1 } 0x299d7d48 7 0xFFFFFFFF) 7 = 0x7FFFFFFF ∧
    limbOf { p := 2 ^ 254 + 1, rmax := 8, einv := 1 }
      (setLimb { p := 2 ^ 254 + 1, rmax := 8, einv := 1 } 0x299d7d48 7 0xFFFFFFFF) 0 = 0x299d7d48 := by decide

/-- Q1, steps 1 to 5: the busy window. -/
theorem test_busy_window :
    let s := wr 0x0000C 0x00010229 ready
    s.statusWord = 0x19 ∧ (wr 0x01000 9 s).statusWord = 0x59 ∧ (wr 0x01000 9 s).regs = ready.regs ∧
    (wr 0x0000C 0 s).cmdreg = 0x00010229 ∧ (wr 0x00010 2 (wr 0x01000 9 s)).statusWord = 0x59 := by decide

/-- Q1, steps 6 and 7. -/
theorem test_busy_completion :
    let s := stepped (wr 0x01000 9 (wr 0x0000C 0x00010229 ready))
    s.statusWord = 0x5A ∧ s.regs.v[(2 : VReg)] = ⟨9, 2, 17⟩ ∧ s.regs.sk = k1Rows ∧
    (wr 0x00010 0x42 s).statusWord = 0x18 := by decide

/-- The IRQ vectors of 95 section 9. -/
theorem test_irq :
    let s := wr 0x00008 0x00010004 ready
    s.irq = true ∧ (wr 0x0000C 0x00000108 s).irq = false ∧ (stepped (wr 0x0000C 0x00000108 s)).irq = true ∧
    (wr 0x00010 2 s).irq = false := by decide

/-- R272 and R271: an access during reset is refused, and reset loses the command in flight. -/
theorem test_reset :
    stepped { busyWith 0x00010229 ready with inputs := [.assertReset] } = { fresh with inReset := true } ∧
    stepped { fresh with inReset := true, inputs := [.releaseReset] } = fresh := by decide

theorem test_access_during_reset :
    step { fresh with inReset := true, inputs := [hostRd 0x00010] } = .refused .accessDuringReset := rfl

/-- R103: `ldv v1, (7, 11, 13)` and `run NOP` with L = 1, as program 1 writes them. -/
theorem test_host_notation :
    hostLdv Params.t1 1 ⟨7, 11, 13⟩ = [hostWr 0x010C0 7, hostWr 0x01100 11, hostWr 0x01140 13] ∧
    hostRun .nop = [hostWr 0x0000C 0, .complete, hostRd 0x00010, hostRd 0x00014] := by decide

/-! ### Witnesses: for each statement with hypotheses, states and operands that meet them, clause by clause -/

/-- MDSGEN of vector X1 in flight. -/
def generating : State := busyWith 0x00010018 (ld 0 ⟨1, 2, 3⟩ (ld 1 ⟨4, 5, 6⟩ fresh))

/-- KSCHED of V1 in flight, SKVALID = 0. -/
def scheduling : State := busyWith 0x00001028 (flags true false ready)

/-- The register holds a canonical operand. -/
abbrev Canon (s : State) (r : VReg) : Prop := Vec.Below s.cfg.p s.operands.v[r]

theorem witness_NopRule :
    opcField 0x100#32 = 0x00#8 ∧ 0x100#32 ≠ 0#32 ∧ ready.fatal = false ∧ fatal.fatal = true := by decide

theorem witness_VaddRule :
    ready.fatal = false ∧ (Canon ready 3 ∧ Canon ready 0) ∧ ¬ (Canon ready 0 ∧ Canon ready 2) ∧
      ¬ (Canon ready 2 ∧ Canon ready 0) := by decide

theorem witness_VsubRule :
    ready.fatal = false ∧ (Canon ready 3 ∧ Canon ready 0) ∧ ¬ (Canon ready 0 ∧ Canon ready 2) ∧
      ¬ (Canon ready 2 ∧ Canon ready 0) := by decide

theorem witness_VmulRule :
    ready.fatal = false ∧ (Canon ready 3 ∧ Canon ready 0) ∧ ¬ (Canon ready 0 ∧ Canon ready 2) ∧
      ¬ (Canon ready 2 ∧ Canon ready 0) := by decide

theorem witness_VdotRule :
    ready.fatal = false ∧ (Canon ready 3 ∧ Canon ready 0) ∧ ¬ (Canon ready 0 ∧ Canon ready 2) ∧
      ¬ (Canon ready 2 ∧ Canon ready 0) := by decide

theorem witness_VmovRule :
    ready.fatal = false ∧ Canon ready 3 ∧ ¬ Canon ready 2 := by decide

theorem witness_SboxRule :
    Params.t1.Valid ∧ ready.fatal = false ∧ Canon ready 3 ∧ ¬ Canon ready 2 := ⟨Params.t1_valid, by decide⟩

theorem witness_AddrcRule :
    (3 : Nat) < 256 ∧ ready.fatal = false ∧ ready.operands.roundCount ≤ 4 ∧ 3 < ready.operands.roundCount ∧
      (Canon ready 3 ∧ Vec.Below ready.cfg.p (tableRow ready.operands.rc 3)) ∧
      3 < badRow.operands.roundCount ∧ badRow.fatal = false ∧
      ¬ (Canon badRow 3 ∧ Vec.Below badRow.cfg.p (tableRow badRow.operands.rc 3)) := by decide

theorem witness_AddskRule :
    (255 : Nat) < 256 ∧ (flags true false ready).fatal = false ∧ (flags true false ready).operands.skvalid = false ∧
      ready.fatal = false ∧ ready.operands.skvalid = true ∧ ready.operands.roundCount ≤ 4 ∧
      3 < ready.operands.roundCount ∧ Canon ready 3 ∧ ¬ Canon ready 2 := by decide

theorem witness_SubskRule :
    (255 : Nat) < 256 ∧ (flags true false ready).fatal = false ∧ (flags true false ready).operands.skvalid = false ∧
      ready.fatal = false ∧ ready.operands.skvalid = true ∧ ready.operands.roundCount ≤ 4 ∧
      3 < ready.operands.roundCount ∧ Canon ready 3 ∧ ¬ Canon ready 2 ∧
      Vec.Below 23 ⟨22, 0, 1⟩ := by decide

theorem witness_IsboxRule :
    Params.t1.Valid ∧ Vec.Below Params.t1.p ⟨22, 1, 0⟩ ∧ (ready.fatal = false ∧ ¬ Canon ready 2) ∧
      (Canon ready 3 ∧ Spec.sbox ready.cfg.p (Spec.isbox ready.cfg ready.operands.v[(3 : VReg)]) =
        ready.operands.v[(3 : VReg)]) ∧
      (faulty.fatal = false ∧ Canon faulty 0 ∧
        Spec.sbox faulty.cfg.p (Spec.isbox faulty.cfg faulty.operands.v[(0 : VReg)]) ≠
          faulty.operands.v[(0 : VReg)]) := ⟨Params.t1_valid, by decide⟩

theorem witness_MdsRule :
    (fresh.fatal = false ∧ fresh.operands.mvalid = false) ∧
      (ready.fatal = false ∧ ready.operands.mvalid = true ∧ Canon ready 3 ∧ ¬ Canon ready 2) := by decide

theorem witness_ImdsRule :
    (fresh.fatal = false ∧ fresh.operands.mvalid = false) ∧
      (ready.fatal = false ∧ ready.operands.mvalid = true ∧ Canon ready 3 ∧ ¬ Canon ready 2) ∧
      Spec.ProductIsIdentity 23 x1MI x1M ∧ Vec.Below 23 ⟨22, 0, 1⟩ := by decide

theorem witness_MdsgenRule :
    ready.cfg.Valid ∧ ready.fatal = false ∧ ¬ (Canon ready 0 ∧ Canon ready 2) ∧
      (Canon ready 0 ∧ ¬ Spec.Cauchy ready.operands.v[(0 : VReg)] ready.operands.v[(0 : VReg)]) ∧
      (Canon ready 0 ∧ Canon ready 6 ∧
        Spec.Cauchy ready.operands.v[(0 : VReg)] ready.operands.v[(6 : VReg)]) := ⟨Params.t1_valid, by decide⟩

theorem witness_MdsgenMatricesAreInverse :
    ready.cfg.Valid ∧ ∃ t, exec (.mdsgen 0 6) ready = .next t ∧ t.errcode = 0x00#8 := ⟨Params.t1_valid, _, rfl, by decide⟩

theorem witness_KrndRule :
    (255 : Nat) < 256 ∧ (fresh.fatal = false ∧ fresh.operands.mvalid = false) ∧ ready.cfg.Valid ∧
      (ready.fatal = false ∧ ready.operands.mvalid = true ∧
        (¬ (1 ≤ 0 ∧ 0 < ready.operands.roundCount) ∧ ¬ (1 ≤ 4 ∧ 4 < ready.operands.roundCount)) ∧
        (1 ≤ 1 ∧ 1 < ready.operands.roundCount) ∧ (1 ≤ 3 ∧ 3 < ready.operands.roundCount) ∧
        (Canon ready 3 ∧ Vec.Below ready.cfg.p (tableRow ready.operands.rc 3)) ∧
        ¬ (Canon ready 2 ∧ Vec.Below ready.cfg.p (tableRow ready.operands.rc 3))) := ⟨by decide, by decide, Params.t1_valid, by decide⟩

theorem witness_ErndRule :
    (255 : Nat) < 256 ∧ (flags true false ready).operands.mvalid = true ∧
      (flags true false ready).operands.skvalid = false ∧ (fresh.fatal = false ∧ fresh.operands.mvalid = false) ∧ ready.cfg.Valid ∧
      (ready.fatal = false ∧ ready.operands.mvalid = true ∧ ready.operands.skvalid = true ∧
        (¬ (1 ≤ 0 ∧ 0 < ready.operands.roundCount) ∧ ¬ (1 ≤ 4 ∧ 4 < ready.operands.roundCount)) ∧
        (1 ≤ 1 ∧ 1 < ready.operands.roundCount) ∧ (1 ≤ 3 ∧ 3 < ready.operands.roundCount) ∧
        Canon ready 3 ∧ ¬ Canon ready 2) := ⟨by decide, by decide, by decide, by decide, Params.t1_valid, by decide⟩

theorem witness_DrndRule :
    (Spec.ProductIsIdentity Params.t1.p x1MI x1M ∧ Vec.Below Params.t1.p ⟨22, 0, 1⟩) ∧
      (255 : Nat) < 256 ∧ (flags true false ready).operands.mvalid = true ∧
      (flags true false ready).operands.skvalid = false ∧ (fresh.fatal = false ∧ fresh.operands.mvalid = false) ∧ ready.cfg.Valid ∧
      (ready.fatal = false ∧ ready.operands.mvalid = true ∧ ready.operands.skvalid = true ∧
        (¬ (1 ≤ 0 ∧ 0 < ready.operands.roundCount) ∧ ¬ (1 ≤ 4 ∧ 4 < ready.operands.roundCount)) ∧
        (1 ≤ 1 ∧ 1 < ready.operands.roundCount) ∧ (1 ≤ 3 ∧ 3 < ready.operands.roundCount) ∧
        Canon ready 3 ∧ ¬ Canon ready 2) := ⟨by decide, by decide, by decide, by decide, by decide, Params.t1_valid, by decide⟩

theorem witness_KschedRule :
    (fresh.fatal = false ∧ fresh.operands.mvalid = false) ∧
      (badRow.fatal = false ∧ badRow.operands.mvalid = true ∧ Spec.TablesFull badRow.cfg badRow.operands ∧
        ¬ (Canon badRow 1 ∧ Spec.RowsCanonical badRow.cfg badRow.operands)) ∧
      ready.cfg.Valid ∧
      (ready.fatal = false ∧ ready.operands.mvalid = true ∧ Spec.TablesFull ready.cfg ready.operands ∧
        Canon ready 1 ∧ Canon ready 3 ∧ Spec.RowsCanonical ready.cfg ready.operands) := ⟨by decide, by decide, Params.t1_valid, by decide⟩

theorem witness_EncRule :
    (fresh.fatal = false ∧ fresh.operands.mvalid = false) ∧
      (badRow.fatal = false ∧ badRow.operands.mvalid = true ∧ Spec.TablesFull badRow.cfg badRow.operands ∧
        ¬ (Canon badRow 1 ∧ Spec.RowsCanonical badRow.cfg badRow.operands)) ∧
      ready.cfg.Valid ∧
      (ready.fatal = false ∧ ready.operands.mvalid = true ∧ Spec.TablesFull ready.cfg ready.operands ∧
        Canon ready 1 ∧ Canon ready 3 ∧ Spec.RowsCanonical ready.cfg ready.operands) := ⟨by decide, by decide, Params.t1_valid, by decide⟩

theorem witness_DecRule :
    (fresh.fatal = false ∧ fresh.operands.mvalid = false) ∧
      (badRow.fatal = false ∧ badRow.operands.mvalid = true ∧ Spec.TablesFull badRow.cfg badRow.operands ∧
        ¬ (Canon badRow 1 ∧ Spec.RowsCanonical badRow.cfg badRow.operands)) ∧
      ready.cfg.Valid ∧
      (ready.fatal = false ∧ ready.operands.mvalid = true ∧ Spec.TablesFull ready.cfg ready.operands ∧
        Canon ready 1 ∧ Canon ready 3 ∧ Spec.RowsCanonical ready.cfg ready.operands) := ⟨by decide, by decide, Params.t1_valid, by decide⟩

theorem witness_DecodeOfEncode :
    (Instr.ernd 15 15 255).WellFormed ∧ (Instr.dec 15 15 15).WellFormed := by decide

theorem witness_LegalCommandHasOneSpelling :
    decode 0x0FF0FF21#32 = .ok (.ernd 15 15 255) := by decide

theorem witness_DecodeMatchesOpcodeTable :
    (∃ i, decode 0x00304421#32 = .ok i) ∧ (∃ row ∈ opcodeTable, 0x00304421#32 &&& row.mask = row.pattern) ∧
      rsvField 0xF0304421#32 ≠ 0#4 ∧
      (rsvField 0x00000006#32 = 0#4 ∧ ∀ row ∈ opcodeTable, opcField 0x00000006#32 ≠ opcField row.pattern) ∧
      (rsvField 0x00010004#32 = 0#4 ∧ (∃ row ∈ opcodeTable, opcField 0x00010004#32 = opcField row.pattern) ∧
        ∀ row ∈ opcodeTable, 0x00010004#32 &&& row.mask ≠ row.pattern) := ⟨⟨_, rfl⟩, by decide⟩

theorem witness_StepRunsDecodedCommand :
    (∃ f, (busyWith 0x00010229 ready).inflight = some f ∧ decode f.cmd = .ok (.enc 2 0 1)) ∧
      (busyWith 0x00010229 ready).inputs = [] ∧
      (∃ rest, ({ busyWith 0x00010229 ready with inputs := [.complete] } : State).inputs = .complete :: rest) ∧
      decode 0x00010229#32 = .ok (.enc 2 0 1) := ⟨⟨_, rfl, by decide⟩, by decide, ⟨_, rfl⟩, by decide⟩

theorem witness_IllegalWordIsAcceptedAndFails :
    (opcField 0xFF#32).toNat ∈ List.range' 0x2B 213 ∧ (∃ e, decode 0x10000000#32 = .error e) ∧
      ready.busy = false ∧ ready.fatal = false := ⟨by decide, ⟨_, rfl⟩, by decide⟩

theorem witness_LockedCompletesEveryWord :
    fatal.fatal = true ∧ ∃ f e, (busyWith 0x10000000 fatal).inflight = some f ∧ decode f.cmd = .error e := ⟨by decide, _, _, rfl, rfl⟩

theorem witness_ErrorsWriteStatusOnly :
    (∃ t, exec (.ernd 4 4 0) ready = .next t ∧ t.errcode ≠ 0x00#8) ∧
      ∃ t, exec (.isbox 2 1) (ld 1 ⟨2, 0, 0⟩ faulty) = .next t ∧ t.errcode = 0x08#8 := ⟨⟨_, rfl, by decide⟩, _, rfl, by decide⟩

theorem witness_FirstErrorByPriority :
    ready.cfg.Valid ∧ Spec.firstErrorCode .nop fatal = 0x09#8 ∧ Spec.firstErrorCode (.ernd 2 2 4) ready = 0x05#8 ∧
      Spec.firstErrorCode (.dec 7 5 1) ready = 0x00#8 := ⟨Params.t1_valid, by decide⟩

theorem witness_CommandFrameThroughWindow :
    ∃ t, exec (.enc 2 0 1) ready = .next t ∧ busTarget ready.cfg .word 0x105FC = some (.limb (.rc 7 2) 15) ∧
      ¬ Spec.writesSlot (.enc 2 0 1) (.rc 7 2) := ⟨_, rfl, by decide, by rintro (⟨_, h⟩ | ⟨_, _, h⟩) <;> cases h⟩

theorem witness_IrqFollowsDoneAndIe :
    (∃ t, exec .nop ready = .next t) ∧ ready.busy = false ∧ (0x42#32).getLsbD 1 = true := ⟨⟨_, rfl⟩, by decide⟩

/-- The state after K1 meets the store invariant. -/
theorem ready_storeOk : Spec.StoreOk ready :=
  ⟨Params.t1_valid, by decide, by decide, fun f h => by cases h⟩

/-- With ENC in flight it does too. -/
theorem busy_storeOk : Spec.StoreOk (busyWith 0x00010229 ready) :=
  ⟨Params.t1_valid, by decide, by decide, fun f h => by cases h; rfl⟩

theorem ready_matrixOk : Spec.MatrixOk ready := fun _ =>
  ⟨fun v hv => ⟨Laws.matvec_matvec (by decide) hv, Laws.matvec_matvec (by decide) hv⟩, by decide⟩

theorem ready_subkeysOk : Spec.SubkeysOk ready := fun _ => ⟨by decide, by decide, ⟨7, 11, 13⟩, by decide, by decide⟩

theorem ready_statusOk : Spec.StatusOk ready :=
  ⟨by decide, by decide, (fun f h => by cases h), by decide, by decide, (fun h => by cases h)⟩

theorem busy_statusOk : Spec.StatusOk (busyWith 0x00010229 ready) :=
  ⟨by decide, by decide, (fun f h => by cases h; rfl), by decide, by decide, (fun h => by cases h)⟩

theorem witness_StepKeepsStore :
    Spec.StoreOk (busyWith 0x00010229 ready) ∧ ∃ t, step (busyWith 0x00010229 ready) = .next t := ⟨busy_storeOk, _, rfl⟩

theorem witness_StepKeepsMatrixInverse :
    Spec.StoreOk (busyWith 0x00010229 ready) ∧ Spec.MatrixOk (busyWith 0x00010229 ready) ∧
      ∃ t, step (busyWith 0x00010229 ready) = .next t := ⟨busy_storeOk, ready_matrixOk, _, rfl⟩

theorem witness_StepKeepsSubkeysConsistent :
    Spec.StoreOk (busyWith 0x00010229 ready) ∧ Spec.SubkeysOk (busyWith 0x00010229 ready) ∧
      ∃ t, step (busyWith 0x00010229 ready) = .next t := ⟨busy_storeOk, ready_subkeysOk, _, rfl⟩

theorem witness_StepKeepsStatusDiscipline :
    Spec.StoreOk (busyWith 0x00010229 ready) ∧ Spec.StatusOk (busyWith 0x00010229 ready) ∧
      ∃ t, step (busyWith 0x00010229 ready) = .next t := ⟨busy_storeOk, busy_statusOk, _, rfl⟩

theorem witness_FatalAndMvalidTransitions :
    (fatal.fatal = true ∧ (stepped { fatal with inputs := [.assertReset] }).fatal = false) ∧
      (∃ t, step (busyWith 0x00001209 (ld 1 ⟨2, 0, 0⟩ faulty)) = .next t ∧ t.fatal = true) ∧
      generating.regs.mvalid = false ∧ ∃ t, step generating = .next t ∧ t.regs.mvalid = true := ⟨by decide, ⟨_, rfl, by decide⟩, by decide, _, rfl, by decide⟩

theorem witness_MatricesAndSubkeysHaveOneWriter :
    (∃ t, step generating = .next t ∧ t.regs.m ≠ generating.regs.m) ∧
      ∃ t, step (busyWith 0x00000028 ready) = .next t ∧ t.regs.sk ≠ ready.regs.sk := ⟨⟨_, rfl, by decide⟩, _, rfl, by decide⟩

theorem witness_SkvalidTransitions :
    (scheduling.regs.skvalid = false ∧ ∃ t, step scheduling = .next t ∧ t.regs.skvalid = true) ∧
      ready.regs.skvalid = true ∧
      (∃ t, step { ready with inputs := [hostWr 0x10540 1] } = .next t ∧ t.regs.skvalid = false) ∧
      ∃ t, step { ready with inputs := [hostWr 0x00008 5] } = .next t ∧ t.regs.skvalid = false := ⟨⟨by decide, _, rfl, by decide⟩, by decide, ⟨_, rfl, by decide⟩, _, rfl, by decide⟩

theorem witness_OnlyStopIsAccessDuringReset :
    (∃ a rest, ({ fresh with inReset := true, inputs := [hostRd 0] } : State).inputs = .access a :: rest) ∧
      ¬ (ready.inReset = true ∧ ∃ a rest, ready.inputs = .access a :: rest) := ⟨⟨_, _, rfl⟩, fun h => by cases h.1⟩

theorem witness_BusErrorHasNoEffect :
    Shape.burst ≠ .word ∧ (0x01001#18).toNat % 4 ≠ 0 ∧ Spec.Unmapped Params.t1 0x00018 ∧
      Spec.Unmapped Params.t1 0x10600 ∧ Spec.Unmapped Params.t1 0x3FFFC := by decide

theorem witness_ElementAddressMap :
    Params.t1.rmax ≤ 256 ∧ Spec.SlotExists Params.t1 (.rc 7 2) ∧
      target Params.t1 0x205FC = some (.limb (.sk 7 2) 15) ∧ Spec.Unmapped Params.t1 0x20600 ∧
      busTarget ready.cfg .word 0x02880 = none ∧ busTarget ready.cfg .word 0x0287C = some (.limb .einv 15) ∧
      Spec.ReadOnlySlot .einv := by decide

theorem witness_LimbReadBits :
    ready.cfg.Valid ∧ Memory.wf ready.cfg ready.regs ∧
      busTarget ready.cfg .word 0x01000 = some (.limb (.v 0 0) 0) ∧ 0 < ready.cfg.limbs ∧
      busTarget ready.cfg .word 0x01004 = some (.limb (.v 0 0) 1) ∧ ready.cfg.limbs ≤ 1 := ⟨Params.t1_valid, by decide⟩

theorem witness_LimbWriteBits :
    ready.cfg.Valid ∧ Memory.wf ready.cfg ready.regs ∧ ready.busy = false ∧
      (busyWith 0 ready).busy = true ∧ busTarget ready.cfg .word 0x10580 = some (.limb (.rc 7 1) 0) ∧
      ¬ Spec.ReadOnlySlot (.rc 7 1) ∧ 0 < ready.cfg.limbs ∧
      busTarget ready.cfg .word 0x01BBC = some (.limb (.v 15 1) 15) ∧ ready.cfg.limbs ≤ 15 ∧
      ready.regs.skvalid = true ∧ busTarget ready.cfg .word 0x10584 = some (.limb (.rc 7 1) 1) ∧ ready.cfg.limbs = 1 ∧
      (hostAccess (.write .word 0x10584 5) ready).regs.skvalid = true := ⟨Params.t1_valid, by decide⟩

theorem witness_CfgWriteRule :
    ready.busy = false ∧
      (1 ≤ (8#32).toNat % 2 ^ 9 ∧ (8#32).toNat % 2 ^ 9 ≤ ready.cfg.rmax) ∧
      ¬ (1 ≤ (9#32).toNat % 2 ^ 9 ∧ (9#32).toNat % 2 ^ 9 ≤ ready.cfg.rmax) ∧
      ¬ (1 ≤ (0#32).toNat % 2 ^ 9 ∧ (0#32).toNat % 2 ^ 9 ≤ ready.cfg.rmax) := by decide

theorem witness_CmdWriteAccepts :
    ready.busy = false ∧ (busyWith 0x00010229 ready).busy = true ∧
      ∃ t, completeInFlight (busyWith 0x00010229 ready) = .next t := ⟨by decide, by decide, _, rfl⟩

theorem witness_BusyWindowDropsWrites :
    (busyWith 0x00010229 ready).busy = true ∧ busTarget ready.cfg .word 0x0000C = some .cmd ∧
      busTarget ready.cfg .word 0x00010 = some .status ∧ busTarget ready.cfg .word 0x00018 = none := by decide

theorem witness_WriteAndCompletionRace :
    let s := busyWith 0x00010229 ready
    s.inReset = false ∧ (∃ f, s.inflight = some f ∧ decode f.cmd = .ok (.enc 2 0 1)) ∧
      busTarget s.cfg .word 0x01000 = some (.limb (.v 0 0) 0) ∧
      ∃ t, exec (.enc 2 0 1) { s with inputs := [] } = .next t := ⟨by decide, ⟨_, rfl, by decide⟩, by decide, _, rfl⟩

theorem witness_ResetInputGivesResetState :
    let s : State := { busyWith 0x00010229 ready with inputs := [.assertReset, .releaseReset] }
    (∃ rest, s.inputs = .assertReset :: rest) ∧
      ∃ rest, ({ s with inputs := s.inputs.tail } : State).inputs = .releaseReset :: rest := ⟨⟨_, rfl⟩, _, rfl⟩

theorem witness_BlockBecomesIdle :
    (busyWith 0x00010229 ready).inReset = false ∧ (busyWith 0x00010229 ready).busy = true := by decide

theorem witness_DecUndoesEnc :
    Spec.MatrixOk ready ∧ Spec.StoreOk ready ∧ ready.fatal = false ∧ ready.regs.mvalid = true ∧
      Vec.Below ready.cfg.p ready.regs.v[(0 : VReg)] ∧ Vec.Below ready.cfg.p ready.regs.v[(1 : VReg)] ∧
      Spec.RowsCanonical ready.cfg ready.regs ∧
      ∃ t, exec (.enc 2 0 1) ready = .next t ∧ t.regs.v[(1 : VReg)] = ready.regs.v[(1 : VReg)] := ⟨ready_matrixOk, ready_storeOk, by decide, by decide, by decide, by decide, by decide, _, rfl, by decide⟩

theorem witness_EncIsSingleRounds :
    Spec.StoreOk ready ∧ ready.fatal = false ∧ ready.regs.mvalid = true ∧
      Vec.Below ready.cfg.p ready.regs.v[(0 : VReg)] ∧ Vec.Below ready.cfg.p ready.regs.v[(1 : VReg)] ∧
      Spec.RowsCanonical ready.cfg ready.regs := ⟨ready_storeOk, by decide⟩

theorem witness_DecIsSingleRounds :
    Spec.StoreOk ready ∧ ready.fatal = false ∧ ready.regs.mvalid = true ∧
      Vec.Below ready.cfg.p ready.regs.v[(0 : VReg)] ∧ Vec.Below ready.cfg.p ready.regs.v[(1 : VReg)] ∧
      Spec.RowsCanonical ready.cfg ready.regs := ⟨ready_storeOk, by decide⟩

theorem witness_SubkeyIsSingleRounds :
    Spec.StoreOk ready ∧ ready.fatal = false ∧ ready.regs.mvalid = true ∧
      Vec.Below ready.cfg.p ready.regs.v[(0 : VReg)] ∧ Vec.Below ready.cfg.p ready.regs.v[(1 : VReg)] ∧
      Spec.RowsCanonical ready.cfg ready.regs ∧ 3 < ready.regs.roundCount := ⟨ready_storeOk, by decide⟩

theorem witness_ScheduleDependsOnParametersAndKey :
    let s' := ld 3 ⟨7, 11, 13⟩ (ld 4 ⟨1, 2, 3⟩ ready)
    ready.cfg = s'.cfg ∧ ready.fatal = s'.fatal ∧ ready.operands.mvalid = s'.operands.mvalid ∧
      ready.operands.m = s'.operands.m ∧ ready.operands.mi = s'.operands.mi ∧
      ready.operands.rounds = s'.operands.rounds ∧
      ready.operands.rc.take ready.operands.roundCount = s'.operands.rc.take s'.operands.roundCount ∧
      ready.operands.v[(1 : VReg)] = s'.operands.v[(3 : VReg)] ∧
      ready.operands.v[(0 : VReg)] = s'.operands.v[(4 : VReg)] ∧
      ∃ t t', exec (.enc 2 0 1) ready = .next t ∧ exec (.enc 7 4 3) s' = .next t' ∧ t.errcode = 0x00#8 := ⟨rfl, rfl, rfl, rfl, rfl, rfl, rfl, by decide, by decide, _, _, rfl, rfl, by decide⟩

end Sys2Proof.Tests
end

