-- ==== Sys2Proof/Proofs/ControlRegisters.lean ====
section
/-! The control registers of the window (10_state.md R27 to R32): which word an address names, what an
access of a mapped word answers, and the numbers that the control words spell. -/

namespace Sys2Proof.Proofs

open Sys2Proof.Machine Sys2Proof.Laws

/-! ### The addresses of the control registers (R66) -/

@[simp] theorem busTarget_id (c : Params) : busTarget c .word 0x00000#18 = some .id := rfl
@[simp] theorem busTarget_cap (c : Params) : busTarget c .word 0x00004#18 = some .cap := rfl
@[simp] theorem busTarget_cfg (c : Params) : busTarget c .word 0x00008#18 = some .cfg := rfl
@[simp] theorem busTarget_cmd (c : Params) : busTarget c .word 0x0000C#18 = some .cmd := rfl
@[simp] theorem busTarget_status (c : Params) : busTarget c .word 0x00010#18 = some .status := rfl
@[simp] theorem busTarget_errcode (c : Params) : busTarget c .word 0x00014#18 = some .errcode := rfl

/-! ### Accesses of a mapped word -/

/-- A read changes nothing but the recorded response (R75, R76). -/
theorem hostAccess_read {s : State} {shape : Shape} {a : BitVec 18} {g : Target}
    (hg : busTarget s.cfg shape a = some g) :
    hostAccess (.read shape a) s = { s with resp := some (.readOkay (readTarget s g)) } := by
  simp only [hostAccess, hg]

/-- A write does what the word's own rule says and answers OKAY (R73, R76). -/
theorem hostAccess_write {s : State} {shape : Shape} {a : BitVec 18} {g : Target} (d : Word)
    (hg : busTarget s.cfg shape a = some g) :
    hostAccess (.write shape a d) s = { writeTarget s g d with resp := some .writeOkay } := by
  simp only [hostAccess, hg]

/-- STATUS is written at any time, the busy window included (R74). -/
theorem writeTarget_status (s : State) (d : Word) : writeTarget s .status d = s.writeStatus d := rfl

/-- While a command is in flight every other write is dropped (R74). -/
theorem writeTarget_of_busy {s : State} (hb : s.busy = true) {g : Target} (hg : g ≠ .status) (d : Word) :
    writeTarget s g d = s.dropWrite := by
  cases g with
  | status => exact absurd rfl hg
  | id | cap | cfg | cmd | errcode | limb => simp only [writeTarget, hb, if_true]

theorem writeTarget_cfg_of_idle {s : State} (hb : s.busy = false) (d : Word) :
    writeTarget s .cfg d = s.writeCfg d := by
  simp [writeTarget, hb]

theorem writeTarget_cmd_of_idle {s : State} (hb : s.busy = false) (d : Word) :
    writeTarget s .cmd d = acceptCommand s d := by
  simp [writeTarget, hb]

/-! ### The control words as numbers (R27, R29, R30, R32) -/

/-- Concatenated fields are the digits of a sum. -/
theorem toNat_append_eq_add {m n : Nat} (x : BitVec m) (y : BitVec n) :
    (x ++ y).toNat = x.toNat * 2 ^ n + y.toNat := by
  rw [BitVec.toNat_append, ← Nat.shiftLeft_add_eq_or_of_lt y.isLt, Nat.shiftLeft_eq]

theorem capWord_eq (c : Params) :
    capWord c = BitVec.ofNat 32 (3 + c.rmax % 256 * 2 ^ 8 + c.width % 2 ^ 16 * 2 ^ 16) := by
  apply BitVec.eq_of_toNat_eq
  simp only [capWord, toNat_append_eq_add, BitVec.toNat_ofNat]
  omega

theorem cfgWord_eq (s : State) :
    s.cfgWord = BitVec.ofNat 32 (s.regs.rounds.toNat + s.ie.toNat * 2 ^ 16) := by
  have hie := s.ie.toNat_lt
  apply BitVec.eq_of_toNat_eq
  simp only [State.cfgWord, toNat_append_eq_add, BitVec.toNat_ofNat, BitVec.toNat_ofBool]
  omega

theorem statusWord_eq (s : State) :
    s.statusWord = BitVec.ofNat 32 (s.busy.toNat + s.done.toNat * 2 + (s.errcode != 0x00#8).toNat * 2 ^ 2 +
      s.regs.mvalid.toNat * 2 ^ 3 + s.regs.skvalid.toNat * 2 ^ 4 + s.fatal.toNat * 2 ^ 5 +
      s.lost.toNat * 2 ^ 6) := by
  have hbusy := s.busy.toNat_lt
  have hdone := s.done.toNat_lt
  have herr := (s.errcode != 0x00#8).toNat_lt
  have hmvalid := s.regs.mvalid.toNat_lt
  have hskvalid := s.regs.skvalid.toNat_lt
  have hfatal := s.fatal.toNat_lt
  have hlost := s.lost.toNat_lt
  apply BitVec.eq_of_toNat_eq
  simp only [State.statusWord, State.err, toNat_append_eq_add, BitVec.toNat_ofNat, BitVec.toNat_ofBool]
  omega

theorem errWord_eq (s : State) : s.errWord = BitVec.ofNat 32 s.errcode.toNat := by
  apply BitVec.eq_of_toNat_eq
  simp only [State.errWord, toNat_append_eq_add, BitVec.toNat_ofNat]
  omega

/-! ### ROUNDS after a CFG write (R27) -/

/-- A legal value is taken. -/
theorem nextRounds_of_legal {rmax : Nat} {d : Word} (old : BitVec 9)
    (h : 1 ≤ d.toNat % 2 ^ 9 ∧ d.toNat % 2 ^ 9 ≤ rmax) :
    (nextRounds rmax old d).toNat = d.toNat % 2 ^ 9 := by
  have hv : (d.extractLsb' 0 9).toNat = d.toNat % 2 ^ 9 := by simp
  rw [← hv] at h ⊢
  simp only [nextRounds, if_pos h]

/-- Any other value leaves the old one. -/
theorem nextRounds_of_illegal {rmax : Nat} {d : Word} (old : BitVec 9)
    (h : ¬ (1 ≤ d.toNat % 2 ^ 9 ∧ d.toNat % 2 ^ 9 ≤ rmax)) : nextRounds rmax old d = old := by
  have hv : (d.extractLsb' 0 9).toNat = d.toNat % 2 ^ 9 := by simp
  rw [← hv] at h
  simp only [nextRounds, if_neg h]

/-! ### CMDREG over a completion (R28) -/

/-- No command writes CMDREG: it ends by a commit or a raise, and neither does. -/
theorem exec_keeps_cmdreg {i : Instr} {s t : State} (h : exec i s = .next t) : t.cmdreg = s.cmdreg := by
  obtain ⟨body, hbody⟩ := exec_is_runCommand i
  rw [hbody] at h
  rcases runCommand_cases h with ⟨_, rfl⟩ | ⟨_, _, _, rfl⟩ | ⟨_, _, _, rfl⟩
  · exact raise_cmdreg ..
  · exact commit_cmdreg ..
  · exact raise_cmdreg ..

/-- All that the engine's completion step can do: nothing when the block is idle, else the command in flight
runs, or its word is ILLEGAL. -/
theorem completeInFlight_cases {s t : State} (h : completeInFlight s = .next t) :
    (s.inflight = none ∧ t = s) ∨
    (∃ f i, s.inflight = some f ∧ decode f.cmd = .ok i ∧ exec i s = .next t) ∨
    ∃ f e, s.inflight = some f ∧ decode f.cmd = .error e ∧ t = completeIllegal s := by
  unfold completeInFlight at h
  split at h
  next hf => injection h with h; exact .inl ⟨hf, h.symm⟩
  next f hf =>
    split at h
    next i hi => exact .inr (.inl ⟨f, i, hf, hi, h⟩)
    next e he => injection h with h; exact .inr (.inr ⟨f, e, hf, he, h.symm⟩)

theorem completeInFlight_keeps_cmdreg {s t : State} (h : completeInFlight s = .next t) :
    t.cmdreg = s.cmdreg := by
  rcases completeInFlight_cases h with ⟨_, rfl⟩ | ⟨_, _, _, _, hexec⟩ | ⟨_, _, _, _, rfl⟩
  · rfl
  · exact exec_keeps_cmdreg hexec
  · exact raise_cmdreg ..

/-- The word that CMDREG holds after reset is the NOP encoding (R28). -/
theorem decode_zero : decode 0#32 = .ok .nop := rfl

/-! ### The statements -/

/-- Settles O43: each control word is the sum of its fields, and a STATUS write does not look at BUSY. -/
theorem controlRegisterReads : Obligations.ControlRegisterReads := by
  intro s
  refine ⟨hostAccess_read (busTarget_id _), ?cap, ?cfg, hostAccess_read (busTarget_cmd _), ?status, ?errcode,
    fun d => ?statusWrite⟩
  case cap => rw [← capWord_eq]; exact hostAccess_read (busTarget_cap _)
  case cfg => rw [← cfgWord_eq]; exact hostAccess_read (busTarget_cfg _)
  case status => rw [← statusWord_eq]; exact hostAccess_read (busTarget_status _)
  case errcode => rw [← errWord_eq]; exact hostAccess_read (busTarget_errcode _)
  case statusWrite => rw [hostAccess_write d (busTarget_status _), writeTarget_status]; rfl

/-- Settles O47: the ROUNDS that a CFG write leaves is `nextRounds`, legal or kept. -/
theorem cfgWriteRule : Obligations.CfgWriteRule := by
  refine ⟨fun c => ⟨rfl, rfl⟩, fun s d => ⟨?read, fun hidle => ?write⟩⟩
  case read => rw [← cfgWord_eq]; exact hostAccess_read (busTarget_cfg _)
  case write =>
    refine ⟨nextRounds s.cfg.rmax s.regs.rounds d, ?_, nextRounds_of_legal _, nextRounds_of_illegal _⟩
    rw [hostAccess_write d (busTarget_cfg _), writeTarget_cfg_of_idle hidle]
    rfl

/-- Settles O48: a CMD write is an acceptance or a dropped write, and no completion writes CMDREG. -/
theorem cmdWriteAccepts : Obligations.CmdWriteAccepts := by
  intro s d
  refine ⟨fun hidle => ?accepted, fun hbusy => ?dropped, hostAccess_read (busTarget_cmd _),
    fun t => completeInFlight_keeps_cmdreg, fun c => ⟨rfl, decode_zero⟩⟩
  case accepted => rw [hostAccess_write d (busTarget_cmd _), writeTarget_cmd_of_idle hidle]; rfl
  case dropped =>
    rw [hostAccess_write d (busTarget_cmd _), writeTarget_of_busy hbusy (by decide)]
    rfl

end Sys2Proof.Proofs
end

