-- ==== Sys2Proof/Proofs/AddressMap.lean ====
section
/-! The address map of the element slots (20_memory.md R63, R67 to R72): an address in a region of the window
is its row, its element and its limb, so limbs and their addresses determine each other; and the bus errors
(R61, R72, R247), which are the accesses that name no word. -/

namespace Sys2Proof.Proofs

open Sys2Proof.Machine Sys2Proof.Laws

/-! ### An address as row, element and limb (R63) -/

section Fields

variable {base a k : Nat}

theorem val_laneAt (base a : Nat) : (laneAt base a).val = (a - base) % 0xC0 / 0x40 := by
  rw [laneAt, Fin.val_ofNat]
  omega

theorem rowAt_lt {n : Nat} (hbase : base ≤ a) (hend : a < base + 0xC0 * n) : rowAt base a < n := by
  rw [rowAt]
  omega

theorem val_ofNat_rowAt {n : Nat} [NeZero n] (hbase : base ≤ a) (hend : a < base + 0xC0 * n) :
    (Fin.ofNat n (rowAt base a)).val = rowAt base a := by
  rw [Fin.val_ofNat, Nat.mod_eq_of_lt (rowAt_lt hbase hend)]

@[simp] theorem rowAt_limb (base i : Nat) (j : Lane) (hk : k < 16) :
    rowAt base (base + 0xC0 * i + 0x40 * j.val + 4 * k) = i := by
  rw [rowAt]
  omega

@[simp] theorem laneAt_limb (base i : Nat) (j : Lane) (hk : k < 16) :
    laneAt base (base + 0xC0 * i + 0x40 * j.val + 4 * k) = j := by
  apply Fin.ext
  rw [val_laneAt]
  omega

@[simp] theorem limbAt_limb (base i : Nat) (j : Lane) (hk : k < 16) :
    limbAt base (base + 0xC0 * i + 0x40 * j.val + 4 * k) = k := by
  rw [limbAt]
  omega

/-- The slots of PMOD and EINV have no rows. -/
@[simp] theorem limbAt_single (base : Nat) (hk : k < 16) : limbAt base (base + 4 * k) = k := by
  rw [limbAt]
  omega

/-- An aligned address of a region of rows is put together again from its row, element and limb. -/
theorem limb_of_address (hbase : base ≤ a) (hbase4 : base % 4 = 0) (ha : a % 4 = 0) :
    limbAt base a < 16 ∧
      a = base + 0xC0 * rowAt base a + 0x40 * (laneAt base a).val + 4 * limbAt base a := by
  rw [val_laneAt, rowAt, limbAt]
  omega

/-- The same where the region has `n` rows and the row is a number below `n` by its type. -/
theorem limb_of_address_fin {n : Nat} [NeZero n] (hbase : base ≤ a) (hend : a < base + 0xC0 * n)
    (hbase4 : base % 4 = 0) (ha : a % 4 = 0) :
    limbAt base a < 16 ∧
      a = base + 0xC0 * (Fin.ofNat n (rowAt base a)).val + 0x40 * (laneAt base a).val +
        4 * limbAt base a := by
  rw [val_ofNat_rowAt hbase hend]
  exact limb_of_address hbase hbase4 ha

theorem limb_of_address_single (hbase : base ≤ a) (hend : a < base + 0x40) (hbase4 : base % 4 = 0)
    (ha : a % 4 = 0) : limbAt base a < 16 ∧ a = base + 4 * limbAt base a := by
  rw [limbAt]
  omega

end Fields

/-! ### The map in both directions (R67 to R71) -/

theorem slot_limb_lt {c : Params} (hrmax : c.rmax ≤ 256) {slot : Slot} (hslot : Spec.SlotExists c slot)
    {k : Nat} (hk : k < 16) : slotBase slot + 4 * k < 2 ^ 18 := by
  cases slot with
  | v | m | mi | pmod | einv => simp only [slotBase]; omega
  | rc i | sk i =>
    have hi : i < c.rmax := hslot
    simp only [slotBase]
    omega

/-- Limb `k` of a slot stands at the slot's base plus `4k`. -/
theorem target_slot_limb {c : Params} (hrmax : c.rmax ≤ 256) {slot : Slot} (hslot : Spec.SlotExists c slot)
    {k : Nat} (hk : k < 16) : target c (slotBase slot + 4 * k) = some (.limb slot k) := by
  cases slot with
  | v r j =>
    rw [target, slotBase, if_neg (by omega), if_pos (by omega)]
    simp [hk]
  | m i j =>
    rw [target, slotBase, if_neg (by omega), if_neg (by omega), if_pos (by omega)]
    simp [hk]
  | mi i j =>
    rw [target, slotBase, if_neg (by omega), if_neg (by omega), if_neg (by omega), if_pos (by omega)]
    simp [hk]
  | pmod =>
    rw [target, slotBase, if_neg (by omega), if_neg (by omega), if_neg (by omega), if_neg (by omega),
      if_pos (by omega)]
    simp [hk]
  | einv =>
    rw [target, slotBase, if_neg (by omega), if_neg (by omega), if_neg (by omega), if_neg (by omega),
      if_neg (by omega), if_pos (by omega)]
    simp [hk]
  | rc i j =>
    have hi : i < c.rmax := hslot
    rw [target, slotBase, if_neg (by omega), if_neg (by omega), if_neg (by omega), if_neg (by omega),
      if_neg (by omega), if_neg (by omega), if_pos (by omega)]
    simp [hk]
  | sk i j =>
    have hi : i < c.rmax := hslot
    rw [target, slotBase, if_neg (by omega), if_neg (by omega), if_neg (by omega), if_neg (by omega),
      if_neg (by omega), if_neg (by omega), if_neg (by omega), if_pos (by omega)]
    simp [hk]

/-- An aligned address that names a limb is that limb's address. -/
theorem address_of_target_limb {c : Params} {a : Nat} {slot : Slot} {k : Nat} (ha : a % 4 = 0)
    (h : target c a = some (.limb slot k)) : Spec.SlotExists c slot ∧ k < 16 ∧ a = slotBase slot + 4 * k := by
  unfold target at h
  split at h
  next => split at h <;> cases h
  split at h
  next hr => cases h; exact ⟨trivial, limb_of_address_fin hr.1 (by omega) rfl ha⟩
  split at h
  next hr => cases h; exact ⟨trivial, limb_of_address_fin hr.1 (by omega) rfl ha⟩
  split at h
  next hr => cases h; exact ⟨trivial, limb_of_address_fin hr.1 (by omega) rfl ha⟩
  split at h
  next hr => cases h; exact ⟨trivial, limb_of_address_single hr.1 hr.2 rfl ha⟩
  split at h
  next hr => cases h; exact ⟨trivial, limb_of_address_single hr.1 hr.2 rfl ha⟩
  split at h
  next hr => cases h; exact ⟨rowAt_lt hr.1 hr.2, limb_of_address hr.1 rfl ha⟩
  split at h
  next hr => cases h; exact ⟨rowAt_lt hr.1 hr.2, limb_of_address hr.1 rfl ha⟩
  next => cases h

theorem target_of_unmapped {c : Params} {a : Nat} (h : Spec.Unmapped c a) : target c a = none := by
  rw [target, if_neg (by omega), if_neg (by omega), if_neg (by omega), if_neg (by omega), if_neg (by omega),
    if_neg (by omega), if_neg (by omega), if_neg (by omega)]

/-! ### Accesses with a bus error (R61, R72, R247) -/

theorem busTarget_eq_none {c : Params} {shape : Shape} {a : BitVec 18}
    (h : shape ≠ .word ∨ a.toNat % 4 ≠ 0 ∨ Spec.Unmapped c a.toNat) : busTarget c shape a = none := by
  unfold busTarget
  split
  next hok =>
    obtain ⟨hword, haligned⟩ := hok
    rcases h with hshape | hmis | hun
    · exact absurd hword hshape
    · exact absurd haligned hmis
    · exact target_of_unmapped hun
  next => rfl

theorem hostAccess_read_error {s : State} {shape : Shape} {a : BitVec 18}
    (hg : busTarget s.cfg shape a = none) :
    hostAccess (.read shape a) s = { s with resp := some (.readError 0#32) } := by
  simp only [hostAccess, hg]

theorem hostAccess_write_error {s : State} {shape : Shape} {a : BitVec 18} (d : Word)
    (hg : busTarget s.cfg shape a = none) :
    hostAccess (.write shape a d) s = { s with resp := some .writeError } := by
  simp only [hostAccess, hg]

/-! ### Writes of a read-only slot (R68, R69, R71) -/

theorem writeSlot_readOnly {slot : Slot} (hro : Spec.ReadOnlySlot slot) (c : Params) (x : Regs) (k : Nat)
    (d : Word) : writeSlot c x slot k d = x := by
  cases slot with
  | v | rc => exact hro.elim
  | m | mi | pmod | einv | sk => rfl

theorem writeTarget_readOnly {slot : Slot} (hro : Spec.ReadOnlySlot slot) (s : State) (k : Nat) (d : Word) :
    writeTarget s (.limb slot k) d = { s with lost := s.lost || s.busy } := by
  cases hb : s.busy with
  | true => simp [writeTarget_of_busy hb, State.dropWrite]
  | false => simp [writeTarget, hb, writeSlot_readOnly hro]

/-! ### The statements -/

/-- Settles O42: such an access names no word of the window. -/
theorem busErrorHasNoEffect : Obligations.BusErrorHasNoEffect := by
  intro s shape a h
  have hnone := busTarget_eq_none h
  exact ⟨hostAccess_read_error hnone, fun d => hostAccess_write_error d hnone⟩

/-- Settles O44: row, element and limb are the digits of an address within its region. -/
theorem elementAddressMap : Obligations.ElementAddressMap := by
  intro c hrmax
  refine ⟨fun r i j n => ⟨rfl, rfl, rfl, rfl, rfl, rfl, rfl⟩,
    fun slot k hslot hk => ⟨slot_limb_lt hrmax hslot hk, target_slot_limb hrmax hslot hk⟩,
    fun a slot k => address_of_target_limb, fun a => target_of_unmapped,
    fun s a slot k d hg hro => ?readOnly⟩
  case readOnly => rw [hostAccess_write d hg, writeTarget_readOnly hro]

end Sys2Proof.Proofs
end

