-- ==== Sys2Proof/Proofs/WindowAccess.lean ====
section
/-! What an access of the window shows and what it may change: the bits of a limb read (20_memory.md R63,
R65), and the writes that a command in flight drops (R74). -/

namespace Sys2Proof.Proofs

open Sys2Proof.Machine Sys2Proof.Laws

/-! ### The bits of a limb (R63, R65) -/

theorem limbOf_getLsbD {c : Params} {k b : Nat} (e : Elem) (hk : k < c.limbs) (hb : b < 32) :
    (limbOf c e k).getLsbD b = e.testBit (32 * k + b) := by
  rw [limbOf, if_pos hk, BitVec.getLsbD_ofNat, decide_eq_true hb, Bool.true_and, Nat.testBit_shiftRight]

theorem limbOf_of_limbs_le {c : Params} {k : Nat} (e : Elem) (hk : c.limbs ≤ k) : limbOf c e k = 0#32 :=
  if_neg hk.not_gt

/-- Every slot shows a W-bit pattern (R22 to R26); PMOD and EINV do by R7. -/
theorem slotElem_lt {c : Params} {x : Regs} (hc : c.Valid) (hx : Memory.wf c x) (slot : Slot) :
    slotElem c x slot < 2 ^ c.width := by
  obtain ⟨-, hp7, -, -, -, -, -, heinv, -⟩ := hc
  obtain ⟨-, -, hv, hrc, hsk, hm, hmi⟩ := hx
  have hp := p_lt_two_pow_width c
  have hw : 0 < 2 ^ c.width := by positivity
  cases slot with
  | v r j => exact hv r j
  | m i j => exact (hm i j).trans hp
  | mi i j => exact (hmi i j).trans hp
  | pmod => exact hp
  | einv => exact Nat.lt_trans (show c.einv < c.p by omega) hp
  | rc i j => exact tableRow_below hw hrc i j
  | sk i j => exact (tableRow_below (by omega) hsk i j).trans hp

/-! ### Accesses while a command is in flight (R74) -/

/-- While a command is in flight no access changes more than DONE, LOST and the response (R74). -/
theorem hostAccess_frame_of_busy {s : State} (hb : s.busy = true) (x : Access) :
    ∃ done lost resp, hostAccess x s = { s with done := done, lost := lost, resp := resp } := by
  obtain ⟨resp, hcases⟩ := hostAccess_cases x s
  rcases hcases with h | ⟨_, d, _, _, h⟩ | ⟨_, _, _, _, _, _, _, h⟩ | ⟨_, _, _, hidle, _⟩ |
    ⟨_, _, _, hidle, _⟩ | ⟨_, _, _, _, _, hidle, _⟩
  · exact ⟨s.done, s.lost, resp, h⟩
  · exact ⟨s.done && !d.getLsbD 1, s.lost && !d.getLsbD 6, resp, h⟩
  · exact ⟨s.done, true, resp, h⟩
  all_goals exact absurd hb (by simp [hidle])

/-! ### The statements -/

/-- Settles O45: a limb is the bits of its element, and an element has none at W or above. -/
theorem limbReadBits : Obligations.LimbReadBits := by
  intro s a slot k hc hx hg
  refine ⟨limbOf s.cfg (slotElem s.cfg s.regs slot) k, hostAccess_read hg,
    fun hk b hb => ⟨limbOf_getLsbD _ hk hb, fun hwidth => ?high⟩, limbOf_of_limbs_le _⟩
  case high =>
    rw [limbOf_getLsbD _ hk hb]
    exact Nat.testBit_eq_false_of_lt
      ((slotElem_lt hc hx slot).trans_le (Nat.pow_le_pow_right (by decide) hwidth))

/-- Settles O49: each outcome is the write rule of a busy block, and the frame covers every access. -/
theorem busyWindowDropsWrites : Obligations.BusyWindowDropsWrites := by
  intro s hb
  refine ⟨fun a g d hg => ⟨fun hne => ?dropped, fun hst => ?status⟩,
    fun shape a d => hostAccess_write_error d, hostAccess_frame_of_busy hb⟩
  case dropped => rw [hostAccess_write d hg, writeTarget_of_busy hb hne]; rfl
  case status => subst hst; rw [hostAccess_write d hg, writeTarget_status]; rfl

end Sys2Proof.Proofs
end

