-- ==== Sys2Proof/Proofs/OpcodeTable.lean ====
section
/-! The decoder against the opcode table (30_encoding.md R93 to R95, R101): a word matches a row of the table
when its RSV field is 0, its OPC field is the row's, and the fields that the row's mask covers are 0; on the
words with a row's opcode the decoder makes the same test. -/

namespace Sys2Proof.Proofs

open Sys2Proof.Machine Sys2Proof.Laws

/-! ### A word and its fields (R90) -/

/-- A packed word is the one with these six fields. -/
theorem eq_packWord_iff {w : Word} {opc : BitVec 8} {rd rs1 rs2 : VReg} {idx : Nat} :
    w = packWord opc rd rs1 rs2 idx ↔
      opcField w = opc ∧ rdField w = BitVec.ofFin (w := 4) rd ∧ rs1Field w = BitVec.ofFin (w := 4) rs1 ∧
        rs2Field w = BitVec.ofFin (w := 4) rs2 ∧ idxField w = BitVec.ofNat 8 idx ∧ rsvField w = 0#4 := by
  constructor
  · rintro rfl
    exact ⟨opcField_packWord .., rdField_packWord .., rs1Field_packWord .., rs2Field_packWord ..,
      idxField_packWord .., rsvField_packWord ..⟩
  · rintro ⟨hopc, hrd, hrs1, hrs2, hidx, hrsv⟩
    exact word_ext (hopc.trans (opcField_packWord ..).symm) (hrd.trans (rdField_packWord ..).symm)
      (hrs1.trans (rs1Field_packWord ..).symm) (hrs2.trans (rs2Field_packWord ..).symm)
      (hidx.trans (idxField_packWord ..).symm) (hrsv.trans (rsvField_packWord ..).symm)

/-- A word under a mask has the pattern's value when each of its fields has. -/
theorem and_eq_iff_fields (w m p : Word) : w &&& m = p ↔
    opcField w &&& opcField m = opcField p ∧ rdField w &&& rdField m = rdField p ∧
      rs1Field w &&& rs1Field m = rs1Field p ∧ rs2Field w &&& rs2Field m = rs2Field p ∧
      idxField w &&& idxField m = idxField p ∧ rsvField w &&& rsvField m = rsvField p := by
  simp only [opcField, rdField, rs1Field, rs2Field, idxField, rsvField, ← BitVec.extractLsb'_and]
  constructor
  · rintro rfl
    exact ⟨rfl, rfl, rfl, rfl, rfl, rfl⟩
  · rintro ⟨hopc, hrd, hrs1, hrs2, hidx, hrsv⟩
    exact word_ext hopc hrd hrs1 hrs2 hidx hrsv

/-! ### The rows of the table -/

/-- The operand fields that a row's mask covers are 0 in the word (R93). -/
def coveredZero (mask w : Word) : Bool :=
  rdField w &&& rdField mask == 0 && rs1Field w &&& rs1Field mask == 0 &&
    rs2Field w &&& rs2Field mask == 0 && idxField w &&& idxField mask == 0

/-- What a mask that covers a field in full, or not at all, asks of it. -/
theorem and_field_eq_zero {n : Nat} (covered : Bool) (x : BitVec n) :
    (x &&& (if covered then BitVec.allOnes n else 0) == 0) = (!covered || x == 0) := by
  cases covered with
  | true => rw [if_pos rfl, BitVec.and_allOnes]; rfl
  | false => simp

/-- A mask covers each operand field in full or not at all; `noRd` to `noIdx` say which ones it covers. -/
theorem coveredZero_eq {mask : Word} (noRd noRs1 noRs2 noIdx : Bool)
    (hrd : rdField mask = if noRd then BitVec.allOnes 4 else 0)
    (hrs1 : rs1Field mask = if noRs1 then BitVec.allOnes 4 else 0)
    (hrs2 : rs2Field mask = if noRs2 then BitVec.allOnes 4 else 0)
    (hidx : idxField mask = if noIdx then BitVec.allOnes 8 else 0) (w : Word) :
    coveredZero mask w = ((!noRd || rdField w == 0) && (!noRs1 || rs1Field w == 0) &&
      (!noRs2 || rs2Field w == 0) && (!noIdx || idxField w == 0)) := by
  simp only [coveredZero, hrd, hrs1, hrs2, hidx, and_field_eq_zero]

/-- No operand (NOP). -/
@[simp] theorem coveredZero_none (w : Word) : coveredZero 0xFFFFFFFF#32 w =
    (rdField w == 0 && rs1Field w == 0 && rs2Field w == 0 && idxField w == 0) :=
  coveredZero_eq true true true true rfl rfl rfl rfl w

/-- Operands RD, RS1 and RS2. -/
@[simp] theorem coveredZero_rd_rs1_rs2 (w : Word) : coveredZero 0xFFF000FF#32 w = (idxField w == 0) :=
  coveredZero_eq false false false true rfl rfl rfl rfl w

/-- Operands RD and RS1. -/
@[simp] theorem coveredZero_rd_rs1 (w : Word) : coveredZero 0xFFFF00FF#32 w =
    (rs2Field w == 0 && idxField w == 0) :=
  coveredZero_eq false false true true rfl rfl rfl rfl w

/-- Operands RD, RS1 and IDX. -/
@[simp] theorem coveredZero_rd_rs1_idx (w : Word) : coveredZero 0xF00F00FF#32 w = (rs2Field w == 0) :=
  (coveredZero_eq false false true false rfl rfl rfl rfl w).trans (Bool.and_true _)

/-- Operands RS1 and RS2 (MDSGEN). -/
@[simp] theorem coveredZero_rs1_rs2 (w : Word) : coveredZero 0xFFF00FFF#32 w =
    (rdField w == 0 && idxField w == 0) := by
  rw [coveredZero_eq true false false true rfl rfl rfl rfl w]
  simp

/-- Operand RS1 (KSCHED). -/
@[simp] theorem coveredZero_rs1 (w : Word) : coveredZero 0xFFFF0FFF#32 w =
    (rdField w == 0 && rs2Field w == 0 && idxField w == 0) := by
  rw [coveredZero_eq true false true true rfl rfl rfl rfl w]
  simp

/-- Every mask covers OPC and RSV, and a pattern has no bit outside OPC. -/
theorem opcodeTable_fields : ∀ row ∈ opcodeTable,
    (opcField row.mask = BitVec.allOnes 8 ∧ rsvField row.mask = BitVec.allOnes 4) ∧
      rdField row.pattern = 0 ∧ rs1Field row.pattern = 0 ∧ rs2Field row.pattern = 0 ∧
      idxField row.pattern = 0 ∧ rsvField row.pattern = 0 := by
  decide

/-- No two rows have the same opcode. -/
theorem opcodeTable_opcodes_distinct : ∀ row ∈ opcodeTable, ∀ row' ∈ opcodeTable,
    opcField row.pattern = opcField row'.pattern → row = row' := by
  decide

/-- What it takes to match a row: R101's conditions, field by field. -/
theorem matches_iff {row : OpcodeRow} (hrow : row ∈ opcodeTable) (w : Word) :
    w &&& row.mask = row.pattern ↔
      rsvField w = 0 ∧ opcField w = opcField row.pattern ∧ coveredZero row.mask w = true := by
  obtain ⟨⟨hopc, hrsv⟩, hrd, hrs1, hrs2, hidx, hrsv0⟩ := opcodeTable_fields row hrow
  rw [and_eq_iff_fields, hopc, hrsv, hrd, hrs1, hrs2, hidx, hrsv0]
  simp only [BitVec.and_allOnes, coveredZero, Bool.and_eq_true, beq_iff_eq]
  tauto

/-! ### The decoder's outcomes (R101) -/

theorem decode_of_rsv_ne_zero {w : Word} (h : rsvField w ≠ 0) : decode w = .error .reservedBits := by
  simp only [decode, if_pos h]

/-- A word with no row's opcode. -/
theorem decode_of_no_row {w : Word} (hrsv : rsvField w = 0)
    (hopc : ∀ row ∈ opcodeTable, opcField w ≠ opcField row.pattern) : decode w = .error .reservedOpcode := by
  have hno : (opcField w).toNat ∉ opcodeTable.map fun row => (opcField row.pattern).toNat := by
    rw [List.mem_map]
    rintro ⟨row, hrow, heq⟩
    exact hopc row hrow (BitVec.eq_of_toNat_eq heq.symm)
  simp only [decode, hrsv, ne_eq, not_true_eq_false, if_false]
  split
  case h_21 => rfl
  all_goals
    next h =>
      rw [h] at hno
      exact absurd (by decide) hno

/-- A word with a row's opcode: the decoder tests the fields that the row's mask covers, and a word that
passes is the encoding of the row's command. -/
theorem decode_of_row {w : Word} {row : OpcodeRow} (hrow : row ∈ opcodeTable) (hrsv : rsvField w = 0)
    (hopc : opcField w = opcField row.pattern) :
    ∃ i, decode w = whenUnusedZero (coveredZero row.mask w) i ∧ row.name = i.mnemonic ∧
      (coveredZero row.mask w = true → w = encode i) := by
  simp only [opcodeTable, List.mem_cons, List.not_mem_nil, or_false] at hrow
  rcases hrow with rfl | rfl | rfl | rfl | rfl | rfl | rfl | rfl | rfl | rfl | rfl | rfl | rfl | rfl | rfl |
    rfl | rfl | rfl | rfl | rfl
  all_goals
    -- the command is the one that the decoder's branch for this opcode names
    apply Exists.intro
    refine ⟨?decodes, ?name, fun hzero => ?encodes⟩
    case decodes =>
      simp only [decode, hrsv, hopc, coveredZero_none, coveredZero_rd_rs1_rs2, coveredZero_rd_rs1,
        coveredZero_rd_rs1_idx, coveredZero_rs1_rs2, coveredZero_rs1, ne_eq, not_true_eq_false, if_false]
      rfl
    case name => rfl
    case encodes =>
      refine eq_packWord_iff.mpr ⟨hopc, ?_⟩
      simpa [vreg, hrsv, and_assoc] using hzero

/-- A word that matches a row decodes to the row's command, of which it is the encoding. -/
theorem decode_of_matches {w : Word} {row : OpcodeRow} (hrow : row ∈ opcodeTable)
    (hmatch : w &&& row.mask = row.pattern) :
    ∃ i, decode w = .ok i ∧ row.name = i.mnemonic ∧ w = encode i := by
  obtain ⟨hrsv, hopc, hzero⟩ := (matches_iff hrow w).mp hmatch
  obtain ⟨i, hdec, hname, hword⟩ := decode_of_row hrow hrsv hopc
  rw [hzero] at hdec
  exact ⟨i, hdec, hname, hword hzero⟩

/-- A word with a row's opcode that does not match the row has a field that is unused and not 0. -/
theorem decode_of_not_matches {w : Word} {row : OpcodeRow} (hrow : row ∈ opcodeTable) (hrsv : rsvField w = 0)
    (hopc : opcField w = opcField row.pattern) (hmatch : w &&& row.mask ≠ row.pattern) :
    decode w = .error .unusedField := by
  obtain ⟨i, hdec, -, -⟩ := decode_of_row hrow hrsv hopc
  have hzero : coveredZero row.mask w = false :=
    Bool.eq_false_iff.mpr fun hzero => hmatch ((matches_iff hrow w).mpr ⟨hrsv, hopc, hzero⟩)
  rw [hdec, hzero]
  rfl

/-- A word that matches no row is ILLEGAL, for the first of R101's three reasons that applies. -/
theorem decode_of_no_match {w : Word} (h : ∀ row ∈ opcodeTable, w &&& row.mask ≠ row.pattern) :
    ∃ e, decode w = .error e := by
  by_cases hrsv : rsvField w = 0
  case neg => exact ⟨_, decode_of_rsv_ne_zero hrsv⟩
  by_cases hopc : ∃ row ∈ opcodeTable, opcField w = opcField row.pattern
  · obtain ⟨row, hrow, hopc⟩ := hopc
    exact ⟨_, decode_of_not_matches hrow hrsv hopc (h row hrow)⟩
  · exact ⟨_, decode_of_no_row hrsv fun row hrow heq => hopc ⟨row, hrow, heq⟩⟩

/-- A word that decodes is the encoding of its command, and matches the row with the command's mnemonic. -/
theorem matches_of_decode {w : Word} {i : Instr} (h : decode w = .ok i) :
    w = encode i ∧ ∃ row ∈ opcodeTable, row.name = i.mnemonic ∧ w &&& row.mask = row.pattern := by
  have hmatch : ∃ row ∈ opcodeTable, w &&& row.mask = row.pattern := by
    by_contra hno
    push Not at hno
    obtain ⟨e, he⟩ := decode_of_no_match hno
    simp [h] at he
  obtain ⟨row, hrow, hmatch⟩ := hmatch
  obtain ⟨j, hj, hname, hword⟩ := decode_of_matches hrow hmatch
  obtain rfl : i = j := Except.ok.inj (h.symm.trans hj)
  exact ⟨hword, row, hrow, hname, hmatch⟩

/-- At most one row matches a word, since a match fixes the opcode. -/
theorem matches_unique {w : Word} {row row' : OpcodeRow} (hrow : row ∈ opcodeTable) (hrow' : row' ∈ opcodeTable)
    (h : w &&& row.mask = row.pattern) (h' : w &&& row'.mask = row'.pattern) : row = row' := by
  obtain ⟨-, hopc, -⟩ := (matches_iff hrow w).mp h
  obtain ⟨-, hopc', -⟩ := (matches_iff hrow' w).mp h'
  exact opcodeTable_opcodes_distinct row hrow row' hrow' (hopc.symm.trans hopc')

/-! ### ILLEGAL words (R95) -/

/-- The reserved values of OPC (R95). -/
def reservedOpcodes : List Nat :=
  [0x06, 0x07, 0x0A, 0x0B, 0x0E, 0x0F] ++ List.range' 0x13 5 ++ List.range' 0x19 7 ++ List.range' 0x23 5 ++
    List.range' 0x2B 213

theorem opcodeTable_not_reserved : ∀ row ∈ opcodeTable, (opcField row.pattern).toNat ∉ reservedOpcodes := by
  decide

/-- A word with a reserved opcode matches no row. -/
theorem decode_of_reserved {w : Word} (h : (opcField w).toNat ∈ reservedOpcodes) :
    ∃ e, decode w = .error e := by
  refine decode_of_no_match fun row hrow hmatch => ?_
  obtain ⟨-, hopc, -⟩ := (matches_iff hrow w).mp hmatch
  exact opcodeTable_not_reserved row hrow (hopc ▸ h)

/-- A word in flight that is no command completes with ILLEGAL and no other effect. -/
theorem completeInFlight_of_illegal {s : State} {f : InFlight} {e : Reject} (hf : s.inflight = some f)
    (he : decode f.cmd = .error e) (hfatal : s.fatal = false) :
    completeInFlight s = .next (Spec.failed s 0x01#8) := by
  have hillegal : completeIllegal s = Spec.failed s 0x01#8 := by
    rw [completeIllegal, hfatal]
    exact raise_eq_failed s (c := .illegal) (by decide)
  simp only [completeInFlight, hf, he, hillegal]

/-! ### The statements -/

/-- Settles O24: the decoder makes the test of the row with the word's opcode, and no two rows have one. -/
theorem decodeMatchesOpcodeTable : Obligations.DecodeMatchesOpcodeTable := by
  intro w
  refine ⟨fun i => matches_of_decode, ?matched, fun row hrow row' hrow' => matches_unique hrow hrow',
    decode_of_rsv_ne_zero, decode_of_no_row, ?unused⟩
  case matched =>
    rintro ⟨row, hrow, hmatch⟩
    obtain ⟨i, hdec, -, -⟩ := decode_of_matches hrow hmatch
    exact ⟨i, hdec⟩
  case unused =>
    rintro hrsv ⟨row, hrow, hopc⟩ hno
    exact decode_of_not_matches hrow hrsv hopc (hno row hrow)

/-- Settles O27: an idle block accepts any word, and the completion decodes the word it accepted. -/
theorem illegalWordIsAcceptedAndFails : Obligations.IllegalWordIsAcceptedAndFails := by
  refine ⟨fun w => decode_of_reserved, fun w e s hdec hidle => ?_⟩
  refine ⟨{ acceptCommand s w with resp := some .writeOkay }, ?accepted, rfl, rfl, ?completes⟩
  case accepted => rw [hostAccess_write w (busTarget_cmd _), writeTarget_cmd_of_idle hidle]
  case completes => exact fun hfatal => completeInFlight_of_illegal (f := ⟨w, s.regs⟩) rfl hdec hfatal

end Sys2Proof.Proofs
end

