-- ==== Sys2Proof/Proofs/CommandRules.lean ====
section
/-! What the statements about single commands share: the word of a command decodes to it (30_encoding.md R90,
R101), the two endings of a command as whole states (10_state.md R36, 60_exceptions.md R244), and the compute
phases that read one or two canonical vectors and write one (40_field_alu.md R121). -/

namespace Sys2Proof.Proofs

open Sys2Proof.Machine Sys2Proof.Laws

/-! ### The word of a command (R90, R101) -/

/-- The decoder reads the six fields back: RSV and the unused ones are 0, the others are the operands. -/
theorem decode_encode {i : Instr} (h : i.WellFormed) : decode (encode i) = .ok i := by
  cases i with
  | nop => rfl
  | addrc | addsk | subsk | krnd | ernd | drnd =>
    simpa [encode, decode, whenUnusedZero, opcField_packWord, rdField_packWord, rs1Field_packWord,
      rs2Field_packWord, idxField_packWord, rsvField_packWord, vreg_ofFin, Instr.idx] using h
  | vadd | vsub | vmul | vmov | vdot | sbox | isbox | mds | imds | mdsgen | ksched | enc | dec =>
    simp [encode, decode, whenUnusedZero, opcField_packWord, rdField_packWord, rs1Field_packWord,
      rs2Field_packWord, idxField_packWord, rsvField_packWord, vreg_ofFin]

/-- The word that R90 writes as a sum of shifted fields decodes to the command it packs. -/
theorem decode_commandWord {i : Instr} {opc : BitVec 8} {rd rs1 rs2 : VReg} (h : i.WellFormed)
    (hword : encode i = packWord opc rd rs1 rs2 i.idx) :
    decode (Spec.commandWord opc.toNat rd rs1 rs2 i.idx) = .ok i := by
  rw [← packWord_eq_commandWord opc rd rs1 rs2 h, ← hword, decode_encode h]

/-! ### The two endings of a command with FATAL = 0 (R36, R244) -/

section Endings

variable {s : State} {body : Params → Regs → Except ErrCode Effect}

/-- Success with one vector written. -/
theorem runCommand_writeV {rd : VReg} {r : Vec} (hfatal : s.fatal = false)
    (hbody : body s.cfg s.operands = .ok (.writeV rd r)) :
    runCommand s body = .next (Spec.completed s (Spec.withV s.regs rd r)) :=
  runCommand_ok hfatal hbody

/-- An error other than CONSTRAINT. -/
theorem runCommand_failed {code : ErrCode} (hfatal : s.fatal = false) (hcode : code ≠ .constraint)
    (hbody : body s.cfg s.operands = .error code) :
    runCommand s body = .next (Spec.failed s code.code) := by
  rw [runCommand_error hfatal hbody, raise_eq_failed s hcode]

end Endings

/-! ### Compute phases that write one vector (R121) -/

/-- `V[rd] <- f(u)`, with `u` checked. -/
def writeOfOne (c : Params) (rd : VReg) (f : Vec → Vec) (u : Vec) : Except ErrCode Effect := do
  let a ← readCanon c u
  return .writeV rd (f a)

/-- `V[rd] <- f(u, v)`, with `u` and then `v` checked. -/
def writeOfTwo (c : Params) (rd : VReg) (f : Vec → Vec → Vec) (u v : Vec) : Except ErrCode Effect := do
  let a ← readCanon c u
  let b ← readCanon c v
  return .writeV rd (f a b)

section Compute

variable {c : Params} {rd : VReg} {u v : Vec}

theorem writeOfOne_ok {f : Vec → Vec} (hu : Vec.Below c.p u) :
    writeOfOne c rd f u = .ok (.writeV rd (f u)) := by
  rw [writeOfOne, readCanon_ok hu]; rfl

theorem writeOfOne_noncanonical {f : Vec → Vec} (hu : ¬ Vec.Below c.p u) :
    writeOfOne c rd f u = .error .noncanonical := by
  rw [writeOfOne, readCanon_error hu]; rfl

theorem writeOfTwo_ok {f : Vec → Vec → Vec} (hu : Vec.Below c.p u) (hv : Vec.Below c.p v) :
    writeOfTwo c rd f u v = .ok (.writeV rd (f u v)) := by
  rw [writeOfTwo, readCanon_ok hu, ok_bind, readCanon_ok hv]; rfl

theorem writeOfTwo_noncanonical {f : Vec → Vec → Vec} (h : ¬ (Vec.Below c.p u ∧ Vec.Below c.p v)) :
    writeOfTwo c rd f u v = .error .noncanonical := by
  by_cases hu : Vec.Below c.p u
  · rw [writeOfTwo, readCanon_ok hu, ok_bind, readCanon_error fun hv => h ⟨hu, hv⟩]; rfl
  · rw [writeOfTwo, readCanon_error hu]; rfl

end Compute

end Sys2Proof.Proofs
end

