-- ==== Sys2Proof/Proofs/FieldAlu.lean ====
section
/-! The field ALU commands (40_field_alu.md R125 to R133): each is one of three check and compute phases over
an operation on vectors, so each phase's outcomes are settled once. -/

namespace Sys2Proof.Proofs

open Sys2Proof.Machine Sys2Proof.Laws

/-! ### NOP (R125) -/

theorem exec_nop (s : State) : exec .nop s = runCommand s fun _ _ => .ok .nothing := rfl

/-- Every other word with OPC = 0 has a nonzero field that NOP does not use. -/
theorem decode_of_opc_zero {w : Word} (hopc : opcField w = 0x00#8) (hw : w ≠ 0#32) :
    ∃ e, decode w = .error e := by
  by_cases hrsv : rsvField w = 0
  case neg => exact ⟨_, decode_of_rsv_ne_zero hrsv⟩
  have hrow : (⟨"NOP", 0x00000000#32, 0xFFFFFFFF#32⟩ : OpcodeRow) ∈ opcodeTable := List.mem_cons_self
  have hmask : w &&& 0xFFFFFFFF#32 = w := BitVec.and_allOnes
  exact ⟨_, decode_of_not_matches hrow hrsv hopc (by simpa only [hmask] using hw)⟩

/-! ### One register: VMOV (R129) -/

theorem exec_vmov (rd rs1 : VReg) (s : State) :
    exec (.vmov rd rs1) s = runCommand s fun c x => writeOfOne c rd id x.v[rs1] := rfl

/-! ### Two registers: VADD, VSUB, VMUL and VDOT (R126 to R128, R130) -/

/-- `V[rd] <- f(V[rs1], V[rs2])`. -/
def twoRegisterBody (f : Nat → Vec → Vec → Vec) (rd rs1 rs2 : VReg) (c : Params) (x : Regs) :
    Except ErrCode Effect :=
  writeOfTwo c rd (f c.p) x.v[rs1] x.v[rs2]

theorem exec_vadd (rd rs1 rs2 : VReg) (s : State) :
    exec (.vadd rd rs1 rs2) s = runCommand s (twoRegisterBody Spec.add rd rs1 rs2) := rfl

theorem exec_vsub (rd rs1 rs2 : VReg) (s : State) :
    exec (.vsub rd rs1 rs2) s = runCommand s (twoRegisterBody Spec.sub rd rs1 rs2) := rfl

theorem exec_vmul (rd rs1 rs2 : VReg) (s : State) :
    exec (.vmul rd rs1 rs2) s = runCommand s (twoRegisterBody Spec.mul rd rs1 rs2) := rfl

/-- The dot product in all three elements (R130). -/
def broadcastDot (p : Nat) (u v : Vec) : Vec := Vec.ofFn fun _ => Spec.dot p u v

theorem exec_vdot (rd rs1 rs2 : VReg) (s : State) :
    exec (.vdot rd rs1 rs2) s = runCommand s (twoRegisterBody broadcastDot rd rs1 rs2) := by
  have hdot (p : Nat) (u v : Vec) : (Vec.ofFn fun _ => dotP p u v) = broadcastDot p u v := by
    rw [dotP_eq, broadcastDot]
  simp only [exec, execVdot, hdot]
  rfl

/-- Both operands are checked, and either one can fail the command. -/
theorem runCommand_twoRegisterBody (f : Nat → Vec → Vec → Vec) (rd rs1 rs2 : VReg) {s : State}
    (hfatal : s.fatal = false) :
    (Vec.Below s.cfg.p s.operands.v[rs1] → Vec.Below s.cfg.p s.operands.v[rs2] →
      runCommand s (twoRegisterBody f rd rs1 rs2) = .next (Spec.completed s (Spec.withV s.regs rd
        (f s.cfg.p s.operands.v[rs1] s.operands.v[rs2])))) ∧
    (¬ (Vec.Below s.cfg.p s.operands.v[rs1] ∧ Vec.Below s.cfg.p s.operands.v[rs2]) →
      runCommand s (twoRegisterBody f rd rs1 rs2) = .next (Spec.failed s 0x02#8)) :=
  ⟨fun h1 h2 => runCommand_writeV hfatal (writeOfTwo_ok h1 h2),
    fun h => runCommand_failed (code := .noncanonical) hfatal (by decide) (writeOfTwo_noncanonical h)⟩

/-- The broadcast dot product is the product with the matrix whose rows are all `u` (R130). -/
theorem broadcastDot_eq_matvec (p : Nat) (u v : Vec) : broadcastDot p u v = Spec.matvec p ⟨u, u, u⟩ v := by
  have hrow (i : Lane) : (⟨u, u, u⟩ : Mat).row i = u := by fin_cases i <;> rfl
  simp only [broadcastDot, Spec.dot, Spec.matvec, Mat.get, hrow]

/-! ### A register and a round constant: ADDRC (R131) -/

/-- `V[rd] <- V[rs1] + RC[i]`, where i is below R. -/
def roundConstantBody (rd rs1 : VReg) (i : Nat) (c : Params) (x : Regs) : Except ErrCode Effect := do
  needRound 0 x i
  writeOfTwo c rd (Spec.add c.p) x.v[rs1] (tableRow x.rc i)

theorem exec_addrc (rd rs1 : VReg) (i : Nat) (s : State) :
    exec (.addrc rd rs1 i) s = runCommand s (roundConstantBody rd rs1 i) := rfl

section RoundChecks

variable (rd rs1 : VReg) {i : Nat} (c : Params) {x : Regs}

theorem roundConstantBody_roundRange (hi : x.roundCount ≤ i) :
    roundConstantBody rd rs1 i c x = .error .roundRange := by
  rw [roundConstantBody, needRound_error (by omega), error_bind]

theorem roundConstantBody_inRange (hi : i < x.roundCount) :
    roundConstantBody rd rs1 i c x = writeOfTwo c rd (Spec.add c.p) x.v[rs1] (tableRow x.rc i) := by
  rw [roundConstantBody, needRound_ok i.zero_le hi, ok_bind]

end RoundChecks

/-! ### A register and a subkey: ADDSK and SUBSK (R132, R133) -/

/-- `V[rd] <- f(V[rs1], SK[i])`, where the subkeys are valid and i is below R. -/
def subkeyBody (f : Nat → Vec → Vec → Vec) (rd rs1 : VReg) (i : Nat) (c : Params) (x : Regs) :
    Except ErrCode Effect := do
  needSubkeys x
  needRound 0 x i
  writeOfOne c rd (fun a => f c.p a (tableRow x.sk i)) x.v[rs1]

theorem exec_addsk (rd rs1 : VReg) (i : Nat) (s : State) :
    exec (.addsk rd rs1 i) s = runCommand s (subkeyBody Spec.add rd rs1 i) := rfl

theorem exec_subsk (rd rs1 : VReg) (i : Nat) (s : State) :
    exec (.subsk rd rs1 i) s = runCommand s (subkeyBody Spec.sub rd rs1 i) := rfl

section SubkeyChecks

variable (f : Nat → Vec → Vec → Vec) (rd rs1 : VReg) {i : Nat} (c : Params) {x : Regs}

theorem subkeyBody_noSubkeys (hsk : x.skvalid = false) :
    subkeyBody f rd rs1 i c x = .error .noSubkeys := by
  rw [subkeyBody, needSubkeys_error hsk, error_bind]

theorem subkeyBody_roundRange (hsk : x.skvalid = true) (hi : x.roundCount ≤ i) :
    subkeyBody f rd rs1 i c x = .error .roundRange := by
  rw [subkeyBody, needSubkeys_ok hsk, ok_bind, needRound_error (by omega), error_bind]

theorem subkeyBody_inRange (hsk : x.skvalid = true) (hi : i < x.roundCount) :
    subkeyBody f rd rs1 i c x = writeOfOne c rd (fun a => f c.p a (tableRow x.sk i)) x.v[rs1] := by
  rw [subkeyBody, needSubkeys_ok hsk, ok_bind, needRound_ok i.zero_le hi, ok_bind]

end SubkeyChecks

/-- The three checks in their order of priority, then the result. -/
theorem runCommand_subkeyBody (f : Nat → Vec → Vec → Vec) (rd rs1 : VReg) (i : Nat) {s : State}
    (hfatal : s.fatal = false) :
    (s.operands.skvalid = false → runCommand s (subkeyBody f rd rs1 i) = .next (Spec.failed s 0x04#8)) ∧
    (s.operands.skvalid = true →
      (s.operands.roundCount ≤ i → runCommand s (subkeyBody f rd rs1 i) = .next (Spec.failed s 0x05#8)) ∧
      (i < s.operands.roundCount →
        (Vec.Below s.cfg.p s.operands.v[rs1] →
          runCommand s (subkeyBody f rd rs1 i) = .next (Spec.completed s (Spec.withV s.regs rd
            (f s.cfg.p s.operands.v[rs1] (tableRow s.operands.sk i))))) ∧
        (¬ Vec.Below s.cfg.p s.operands.v[rs1] →
          runCommand s (subkeyBody f rd rs1 i) = .next (Spec.failed s 0x02#8)))) := by
  refine ⟨fun hsk => ?noSubkeys, fun hsk => ⟨fun hi => ?roundRange, fun hi => ⟨fun hv => ?written,
    fun hv => ?noncanonical⟩⟩⟩
  case noSubkeys =>
    exact runCommand_failed (code := .noSubkeys) hfatal (by decide) (subkeyBody_noSubkeys f rd rs1 _ hsk)
  case roundRange =>
    exact runCommand_failed (code := .roundRange) hfatal (by decide) (subkeyBody_roundRange f rd rs1 _ hsk hi)
  case written =>
    exact runCommand_writeV hfatal ((subkeyBody_inRange f rd rs1 _ hsk hi).trans (writeOfOne_ok hv))
  case noncanonical =>
    exact runCommand_failed (code := .noncanonical) hfatal (by decide)
      ((subkeyBody_inRange f rd rs1 _ hsk hi).trans (writeOfOne_noncanonical hv))

/-! ### The statements -/

/-- Settles O1: a word that decodes is its command's encoding, and NOP's check and compute phases are empty. -/
theorem nopRule : Obligations.NopRule := by
  refine ⟨fun w => ⟨fun h => (matches_of_decode h).1, fun h => h ▸ decode_zero⟩,
    fun w => decode_of_opc_zero, fun c => rfl,
    fun s => ⟨fun hfatal => ⟨?completed, ?irq⟩, fun hfatal => ?locked⟩⟩
  case completed => rw [exec_nop, runCommand_ok hfatal rfl]; rfl
  case irq => exact Bool.true_and s.ie
  case locked => rw [exec_nop, runCommand_locked hfatal]

/-- Settles O2: VADD is the two-register phase of the elementwise sum. -/
theorem vaddRule : Obligations.VaddRule := by
  refine fun rd rs1 rs2 => ⟨?decodes, fun s hfatal => ?completes⟩
  case decodes => exact decode_commandWord (i := .vadd rd rs1 rs2) (opc := 0x01#8) (Nat.succ_pos _) rfl
  case completes => rw [exec_vadd]; exact runCommand_twoRegisterBody Spec.add rd rs1 rs2 hfatal

/-- Settles O3: VSUB is the two-register phase of the elementwise difference. -/
theorem vsubRule : Obligations.VsubRule := by
  refine fun rd rs1 rs2 => ⟨?decodes, fun s hfatal => ?completes⟩
  case decodes => exact decode_commandWord (i := .vsub rd rs1 rs2) (opc := 0x02#8) (Nat.succ_pos _) rfl
  case completes => rw [exec_vsub]; exact runCommand_twoRegisterBody Spec.sub rd rs1 rs2 hfatal

/-- Settles O4: VMUL is the two-register phase of the elementwise product. -/
theorem vmulRule : Obligations.VmulRule := by
  refine fun rd rs1 rs2 => ⟨?decodes, fun s hfatal => ?completes⟩
  case decodes => exact decode_commandWord (i := .vmul rd rs1 rs2) (opc := 0x03#8) (Nat.succ_pos _) rfl
  case completes => rw [exec_vmul]; exact runCommand_twoRegisterBody Spec.mul rd rs1 rs2 hfatal

/-- Settles O5: VDOT is the two-register phase of the broadcast dot product. -/
theorem vdotRule : Obligations.VdotRule := by
  refine ⟨broadcastDot_eq_matvec, fun rd rs1 rs2 => ⟨?decodes, fun s hfatal => ?completes⟩⟩
  case decodes => exact decode_commandWord (i := .vdot rd rs1 rs2) (opc := 0x05#8) (Nat.succ_pos _) rfl
  case completes => rw [exec_vdot]; exact runCommand_twoRegisterBody broadcastDot rd rs1 rs2 hfatal

/-- Settles O6: VMOV writes the operand that it checked. -/
theorem vmovRule : Obligations.VmovRule := by
  refine fun rd rs1 => ⟨?decodes, fun s hfatal => ⟨fun hv => ?written, fun hv => ?noncanonical⟩⟩
  case decodes => exact decode_commandWord (i := .vmov rd rs1) (opc := 0x04#8) (Nat.succ_pos _) rfl
  case written => rw [exec_vmov]; exact runCommand_writeV hfatal (writeOfOne_ok hv)
  case noncanonical =>
    rw [exec_vmov]
    exact runCommand_failed (code := .noncanonical) hfatal (by decide) (writeOfOne_noncanonical hv)

/-- Settles O7: the round index is checked before the two vectors. -/
theorem addrcRule : Obligations.AddrcRule := by
  refine fun rd rs1 i => ⟨fun hi => ?decodes, fun s hfatal => ?completes⟩
  case decodes => exact decode_commandWord (i := .addrc rd rs1 i) (opc := 0x10#8) hi rfl
  case completes =>
    rw [exec_addrc]
    refine ⟨fun hi => ?roundRange, fun hi => ⟨fun hv hrc => ?written, fun h => ?noncanonical⟩⟩
    case roundRange =>
      exact runCommand_failed (code := .roundRange) hfatal (by decide)
        (roundConstantBody_roundRange rd rs1 _ hi)
    case written =>
      exact runCommand_writeV hfatal ((roundConstantBody_inRange rd rs1 _ hi).trans (writeOfTwo_ok hv hrc))
    case noncanonical =>
      exact runCommand_failed (code := .noncanonical) hfatal (by decide)
        ((roundConstantBody_inRange rd rs1 _ hi).trans (writeOfTwo_noncanonical h))

/-- Settles O8: ADDSK is the subkey phase of the elementwise sum. -/
theorem addskRule : Obligations.AddskRule := by
  refine fun rd rs1 i => ⟨fun hi => ?decodes, fun s hfatal => ?completes⟩
  case decodes => exact decode_commandWord (i := .addsk rd rs1 i) (opc := 0x11#8) hi rfl
  case completes => rw [exec_addsk]; exact runCommand_subkeyBody Spec.add rd rs1 i hfatal

/-- Settles O9: SUBSK is the subkey phase of the elementwise difference, which undoes the sum mod P. -/
theorem subskRule : Obligations.SubskRule := by
  refine fun rd rs1 i => ⟨fun hi => ?decodes, fun p u k hu => sub_add hu k, fun s hfatal => ?completes⟩
  case decodes => exact decode_commandWord (i := .subsk rd rs1 i) (opc := 0x12#8) hi rfl
  case completes => rw [exec_subsk]; exact runCommand_subkeyBody Spec.sub rd rs1 i hfatal

end Sys2Proof.Proofs
end

