-- ==== Sys2Proof/Proofs/MdsUnit.lean ====
section
/-! The MDS matrix commands (41_mds.md): MDS and IMDS are one phase over a matrix of the store, and MDSGEN's
matrices are settled apart from its checks. -/

namespace Sys2Proof.Proofs

open Sys2Proof.Machine Sys2Proof.Laws

/-! ### A matrix and a register: MDS and IMDS (R156, R157) -/

/-- `V[rd] <- matvec(A, V[rs1])`, where the matrices are valid and A is one of them. -/
def matrixBody (mat : Regs → Mat) (rd rs1 : VReg) (c : Params) (x : Regs) : Except ErrCode Effect := do
  needMatrix x
  writeOfOne c rd (Spec.matvec c.p (mat x)) x.v[rs1]

theorem exec_mds (rd rs1 : VReg) (s : State) :
    exec (.mds rd rs1) s = runCommand s (matrixBody Regs.m rd rs1) := by
  simp only [exec, execMds, matvec_eq]; rfl

theorem exec_imds (rd rs1 : VReg) (s : State) :
    exec (.imds rd rs1) s = runCommand s (matrixBody Regs.mi rd rs1) := by
  simp only [exec, execImds, matvec_eq]; rfl

section MatrixChecks

variable (mat : Regs → Mat) (rd rs1 : VReg) (c : Params) {x : Regs}

theorem matrixBody_noMds (hm : x.mvalid = false) : matrixBody mat rd rs1 c x = .error .noMds := by
  rw [matrixBody, needMatrix_error hm, error_bind]

theorem matrixBody_valid (hm : x.mvalid = true) :
    matrixBody mat rd rs1 c x = writeOfOne c rd (Spec.matvec c.p (mat x)) x.v[rs1] := by
  rw [matrixBody, needMatrix_ok hm, ok_bind]

end MatrixChecks

/-- NO_MDS comes before NONCANONICAL, then the product. -/
theorem runCommand_matrixBody (mat : Regs → Mat) (rd rs1 : VReg) {s : State} (hfatal : s.fatal = false) :
    (s.operands.mvalid = false → runCommand s (matrixBody mat rd rs1) = .next (Spec.failed s 0x03#8)) ∧
    (s.operands.mvalid = true →
      (Vec.Below s.cfg.p s.operands.v[rs1] →
        runCommand s (matrixBody mat rd rs1) = .next (Spec.completed s (Spec.withV s.regs rd
          (Spec.matvec s.cfg.p (mat s.operands) s.operands.v[rs1])))) ∧
      (¬ Vec.Below s.cfg.p s.operands.v[rs1] →
        runCommand s (matrixBody mat rd rs1) = .next (Spec.failed s 0x02#8))) := by
  refine ⟨fun hm => ?noMds, fun hm => ⟨fun hv => ?written, fun hv => ?noncanonical⟩⟩
  case noMds => exact runCommand_failed (code := .noMds) hfatal (by decide) (matrixBody_noMds mat rd rs1 _ hm)
  case written => exact runCommand_writeV hfatal ((matrixBody_valid mat rd rs1 _ hm).trans (writeOfOne_ok hv))
  case noncanonical =>
    exact runCommand_failed (code := .noncanonical) hfatal (by decide)
      ((matrixBody_valid mat rd rs1 _ hm).trans (writeOfOne_noncanonical hv))

/-! ### MDSGEN's check and compute phases (R152) -/

/-- `M, MI <- the matrices of X and Y`, with X and then Y checked to be canonical. -/
def mdsgenOn (c : Params) (x y : Vec) : Except ErrCode Effect := do
  let u ← readCanon c x
  let v ← readCanon c y
  let ab ← genMatrices c u v
  return .writeMatrices ab.1 ab.2

theorem exec_mdsgen (rs1 rs2 : VReg) (s : State) :
    exec (.mdsgen rs1 rs2) s = runCommand s fun c r => mdsgenOn c r.v[rs1] r.v[rs2] := rfl

/-- Success with both matrices written (R36, R152). -/
theorem runCommand_writeMatrices {s : State} {body : Params → Regs → Except ErrCode Effect} {a b : Mat}
    (hfatal : s.fatal = false) (hbody : body s.cfg s.operands = .ok (.writeMatrices a b)) :
    runCommand s body =
      .next (Spec.completed s { s.regs with m := a, mi := b, mvalid := true, skvalid := false }) :=
  runCommand_ok hfatal hbody

section Generation

variable {c : Params} {x y : Vec}

theorem mdsgenOn_noncanonical (h : ¬ (Vec.Below c.p x ∧ Vec.Below c.p y)) :
    mdsgenOn c x y = .error .noncanonical := by
  by_cases hx : Vec.Below c.p x
  · rw [mdsgenOn, readCanon_ok hx, ok_bind, readCanon_error fun hy => h ⟨hx, hy⟩, error_bind]
  · rw [mdsgenOn, readCanon_error hx, error_bind]

theorem mdsgenOn_canonical (hx : Vec.Below c.p x) (hy : Vec.Below c.p y) :
    mdsgenOn c x y = genMatrices c x y >>= fun ab => .ok (.writeMatrices ab.1 ab.2) := by
  rw [mdsgenOn, readCanon_ok hx, ok_bind, readCanon_ok hy, ok_bind]; rfl

theorem mdsgenOn_collision (hx : Vec.Below c.p x) (hy : Vec.Below c.p y) (h : ¬ Spec.Cauchy x y) :
    mdsgenOn c x y = .error .cauchyCollision := by
  rw [mdsgenOn_canonical hx hy, genMatrices_error h, error_bind]

/-- Past the collision check nothing fails: SINGULAR never arises (R155). -/
theorem mdsgenOn_ok (hc : c.Valid) (hx : Vec.Below c.p x) (hy : Vec.Below c.p y) (h : Spec.Cauchy x y) :
    mdsgenOn c x y = .ok (.writeMatrices (cauchy c.p x y) (minv c.p (cauchy c.p x y))) := by
  rw [mdsgenOn_canonical hx hy, genMatrices_ok hc hx hy h, ok_bind]

/-- A success says that the canonicity and collision checks have passed. -/
theorem mdsgenOn_eq_ok {e : Effect} (hc : c.Valid) (he : mdsgenOn c x y = .ok e) :
    (Vec.Below c.p x ∧ Vec.Below c.p y ∧ Spec.Cauchy x y) ∧
      e = .writeMatrices (cauchy c.p x y) (minv c.p (cauchy c.p x y)) := by
  by_cases hxy : Vec.Below c.p x ∧ Vec.Below c.p y
  case neg => rw [mdsgenOn_noncanonical hxy] at he; cases he
  obtain ⟨hx, hy⟩ := hxy
  by_cases h : Spec.Cauchy x y
  case neg => rw [mdsgenOn_collision hx hy h] at he; cases he
  rw [mdsgenOn_ok hc hx hy h] at he
  exact ⟨⟨hx, hy, h⟩, (Except.ok.inj he).symm⟩

end Generation

/-! ### The matrices MDSGEN writes, as exact integers reduced mod P (R151, R153, R154) -/

section Matrices

variable {p : Nat}

/-- A canonical number that is the inverse in the field is the inverse of R13. -/
theorem isInverse_of_cast (hp : p.Prime) {a : Int} {b : Nat} (hb : b < p) (ha : (a : ZMod p) ≠ 0)
    (h : (b : ZMod p) = (a : ZMod p)⁻¹) : Spec.IsInverse p a b := by
  have := Fact.mk hp
  have hcast : ((a * (b : Int) : Int) : ZMod p) = ((1 : Int) : ZMod p) := by
    push_cast; rw [h, mul_inv_cancel₀ ha]
  have hone : (1 : Int) % (p : Int) = 1 := Int.emod_eq_of_lt zero_le_one (by exact_mod_cast hp.one_lt)
  exact ⟨hb, ((ZMod.intCast_eq_intCast_iff' _ _ _).1 hcast).trans hone⟩

/-- M[i][j] is the inverse of X[i] - Y[j] (R151). -/
theorem cauchy_isInverse (hp : p.Prime) {x y : Vec} (hx : Vec.Below p x) (hy : Vec.Below p y)
    (h : Spec.Cauchy x y) (i j : Lane) :
    Spec.IsInverse p ((x.get i : Int) - (y.get j : Int)) ((cauchy p x y).get i j) := by
  obtain ⟨hinv, hne⟩ := cauchy_entry hp hx hy h i j
  exact isInverse_of_cast hp (cauchy_below hp.pos x y i j) (by push_cast; exact hne) (by push_cast; exact hinv)

/-- The block divides by the exact determinant reduced mod P (R153). -/
theorem invP_det_isInverse (hp : p.Prime) {a : Mat} (hd : ((det p a : Nat) : ZMod p) ≠ 0) :
    Spec.IsInverse p (Spec.detInt a) (invP p (det p a)) :=
  isInverse_of_cast hp (powP_lt hp.pos _ _) (by rwa [← det_cast hp.pos])
    (by rw [invP_cast hp _ hd, det_cast hp.pos])

/-- MI[j][i] is the exact cofactor times the inverse of the determinant, reduced once (R154). -/
theorem minv_get (hp : 0 < p) (a : Mat) (i j : Lane) :
    ((minv p a).get j i : Int) = (Spec.cofactorInt a i j * (invP p (det p a) : Int)) % (p : Int) := by
  rw [minv, Mat.get_ofFn, divP, mulP, Int.natCast_mod, Nat.cast_mul]
  refine (ZMod.intCast_eq_intCast_iff' _ _ _).1 ?_
  push_cast
  rw [cofactor_cast hp]

end Matrices

/-! ### The inverse law (R158) -/

/-- Error codes are nonzero, so ERRCODE = 0 says that a command succeeded (R242). -/
theorem code_ne_zero (e : ErrCode) : e.code ≠ 0#8 := by
  cases e <;> decide

/-- A successful MDSGEN had Cauchy vectors as operands and wrote their matrices. -/
theorem mdsgen_succeeded {s t : State} {rs1 rs2 : VReg} (hc : s.cfg.Valid)
    (hexec : exec (.mdsgen rs1 rs2) s = .next t) (herr : t.errcode = 0x00#8) :
    ∃ x y, (Vec.Below s.cfg.p x ∧ Vec.Below s.cfg.p y ∧ Spec.Cauchy x y) ∧
      t = s.commit (.writeMatrices (cauchy s.cfg.p x y) (minv s.cfg.p (cauchy s.cfg.p x y))) := by
  rw [exec_mdsgen] at hexec
  obtain ⟨-, rfl⟩ | ⟨e, -, he, rfl⟩ | ⟨code, -, -, rfl⟩ := runCommand_cases hexec
  · exact absurd herr (code_ne_zero .locked)
  · obtain ⟨hxy, rfl⟩ := mdsgenOn_eq_ok hc he
    exact ⟨_, _, hxy, rfl⟩
  · exact absurd herr (code_ne_zero code)

/-! ### The statements -/

/-- Settles O12: MDS is the matrix phase of M. -/
theorem mdsRule : Obligations.MdsRule := by
  refine fun rd rs1 => ⟨?decodes, fun s hfatal => ?completes⟩
  case decodes => exact decode_commandWord (i := .mds rd rs1) (opc := 0x0C#8) (Nat.succ_pos _) rfl
  case completes => rw [exec_mds]; exact runCommand_matrixBody Regs.m rd rs1 hfatal

/-- Settles O13: IMDS is the matrix phase of MI, and inverse matrices undo each other on canonical vectors. -/
theorem imdsRule : Obligations.ImdsRule := by
  refine ⟨fun p m mi v h hv => matvec_matvec h hv, fun rd rs1 => ⟨?decodes, fun s hfatal => ?completes⟩⟩
  case decodes => exact decode_commandWord (i := .imds rd rs1) (opc := 0x0D#8) (Nat.succ_pos _) rfl
  case completes => rw [exec_imds]; exact runCommand_matrixBody Regs.mi rd rs1 hfatal

/-- Settles O14: the Cauchy matrix of canonical Cauchy vectors is not singular, so the inverse of its
determinant exists and no other check can fail. -/
theorem mdsgenRule : Obligations.MdsgenRule := by
  refine fun rs1 rs2 => ⟨?decodes, fun s hc hfatal => ?completes⟩
  case decodes => exact decode_commandWord (i := .mdsgen rs1 rs2) (opc := 0x18#8) (Nat.succ_pos _) rfl
  case completes =>
    rw [exec_mdsgen]
    refine ⟨fun h => ?noncanonical, fun hx hy => ⟨fun h => ?collision, fun h => ?generated⟩⟩
    case noncanonical =>
      exact runCommand_failed (code := .noncanonical) hfatal (by decide) (mdsgenOn_noncanonical h)
    case collision =>
      exact runCommand_failed (code := .cauchyCollision) hfatal (by decide) (mdsgenOn_collision hx hy h)
    case generated =>
      have hdet := det_cauchy_ne_zero hc.1 hx hy h
      exact ⟨_, _, runCommand_writeMatrices hfatal (mdsgenOn_ok hc hx hy h), cauchy_isInverse hc.1 hx hy h,
        _, invP_det_isInverse hc.1 hdet, minv_get hc.1.pos _⟩

/-- Settles O15: the adjugate over a nonzero determinant is an inverse on both sides. -/
theorem mdsgenMatricesAreInverse : Obligations.MdsgenMatricesAreInverse := by
  intro s t rs1 rs2 hc hexec herr
  obtain ⟨x, y, ⟨hx, hy, h⟩, rfl⟩ := mdsgen_succeeded hc hexec herr
  have hdet := det_cauchy_ne_zero hc.1 hx hy h
  exact ⟨mul_minv hc.1 _ hdet, minv_mul hc.1 _ hdet⟩

end Sys2Proof.Proofs
end

