-- ==== Sys2Proof/Proofs/SboxPair.lean ====
section
/-! The S-box commands (42_sbox.md R175, R176): the fixed points of both powers, SBOX as a phase that reads one
vector, and ISBOX as such a phase with the self-check of R174 between its check and its write. -/

namespace Sys2Proof.Proofs

open Sys2Proof.Machine Sys2Proof.Laws

/-! ### Fixed points (R175, R176) -/

/-- P - 1 is -1 in the field, so its odd powers are itself. -/
theorem pred_pow_mod {p k : Nat} (hp : 1 < p) (hk : Odd k) : (p - 1) ^ k % p = p - 1 := by
  have hpos : 0 < p := Nat.zero_lt_of_lt hp
  refine eq_of_cast (Nat.mod_lt _ hpos) (Nat.sub_lt hpos Nat.one_pos) ?_
  have hneg : ((p - 1 : Nat) : ZMod p) = -1 := by
    rw [Nat.cast_pred hpos, ZMod.natCast_self, zero_sub]
  rw [ZMod.natCast_mod, Nat.cast_pow, hneg, hk.neg_one_pow]

theorem pow_five_fixed_points {c : Params} (hc : c.Valid) :
    0 ^ 5 % c.p = 0 ∧ 1 ^ 5 % c.p = 1 ∧ (c.p - 1) ^ 5 % c.p = c.p - 1 :=
  ⟨Nat.zero_mod _, Nat.mod_eq_of_lt hc.1.one_lt, pred_pow_mod hc.1.one_lt (by decide)⟩

/-- The EINV-th power undoes the fifth power (R172), so it fixes what the fifth power fixes. -/
theorem pow_einv_of_pow_five {c : Params} (hc : c.Valid) {a : Nat} (ha : a < c.p) (h : a ^ 5 % c.p = a) :
    a ^ c.einv % c.p = a := by
  have hundo := isbox_of_sbox hc ha
  rwa [powP_eq, powP_eq, h] at hundo

theorem pow_einv_fixed_points {c : Params} (hc : c.Valid) :
    0 ^ c.einv % c.p = 0 ∧ 1 ^ c.einv % c.p = 1 ∧ (c.p - 1) ^ c.einv % c.p = c.p - 1 := by
  obtain ⟨hzero, hone, hpred⟩ := pow_five_fixed_points hc
  have hp := hc.1
  exact ⟨pow_einv_of_pow_five hc hp.pos hzero, pow_einv_of_pow_five hc hp.one_lt hone,
    pow_einv_of_pow_five hc (Nat.sub_lt hp.pos Nat.one_pos) hpred⟩

/-! ### The pair of functions (R172) -/

/-- Each S-box undoes the other on canonical vectors. -/
theorem sbox_isbox_inverse {c : Params} (hc : c.Valid) {v : Vec} (hv : Vec.Below c.p v) :
    Spec.sbox c.p (Spec.isbox c v) = v ∧ Spec.isbox c (Spec.sbox c.p v) = v := by
  simp only [← sboxV_eq, ← isboxV_eq]
  exact ⟨sboxV_isboxV hc hv, isboxV_sboxV hc hv⟩

/-! ### SBOX (R175) -/

theorem exec_sbox (rd rs1 : VReg) (s : State) :
    exec (.sbox rd rs1) s = runCommand s fun c x => writeOfOne c rd (Spec.sbox c.p) x.v[rs1] := by
  simp only [exec, execSbox, sboxV_eq]; rfl

/-! ### ISBOX with its self-check (R174, R176) -/

/-- `V[rd] <- isbox(u)`, with `u` checked before and the result after. -/
def isboxOn (c : Params) (rd : VReg) (u : Vec) : Except ErrCode Effect := do
  let a ← readCanon c u
  let w ← isboxChecked c a
  return .writeV rd w

theorem exec_isbox (rd rs1 : VReg) (s : State) :
    exec (.isbox rd rs1) s = runCommand s fun c x => isboxOn c rd x.v[rs1] := rfl

section SelfCheck

variable {c : Params} {rd : VReg} {u : Vec}

theorem isboxChecked_eq (c : Params) (u : Vec) : isboxChecked c u =
    if Spec.sbox c.p (Spec.isbox c u) = u then .ok (Spec.isbox c u) else .error .constraint := by
  rw [← sboxV_eq, ← isboxV_eq]; rfl

theorem isboxOn_noncanonical (hu : ¬ Vec.Below c.p u) : isboxOn c rd u = .error .noncanonical := by
  rw [isboxOn, readCanon_error hu, error_bind]

theorem isboxOn_ok (hu : Vec.Below c.p u) (h : Spec.sbox c.p (Spec.isbox c u) = u) :
    isboxOn c rd u = .ok (.writeV rd (Spec.isbox c u)) := by
  rw [isboxOn, readCanon_ok hu, ok_bind, isboxChecked_eq, if_pos h]; rfl

theorem isboxOn_constraint (hu : Vec.Below c.p u) (h : Spec.sbox c.p (Spec.isbox c u) ≠ u) :
    isboxOn c rd u = .error .constraint := by
  rw [isboxOn, readCanon_ok hu, ok_bind, isboxChecked_eq, if_neg h, error_bind]

end SelfCheck

/-- The one error that also sets FATAL (R38, R244). -/
theorem raise_constraint (s : State) :
    s.raise .constraint = { Spec.failed s 0x08#8 with fatal := true } := by
  rw [State.raise, beq_self_eq_true, Bool.or_true]; rfl

/-! ### The statements -/

/-- Settles O10: SBOX is the one-register phase of the fifth powers. -/
theorem sboxRule : Obligations.SboxRule := by
  refine ⟨fun c => pow_five_fixed_points, fun rd rs1 =>
    ⟨?decodes, fun s hfatal => ⟨fun hv => ?written, fun hv => ?noncanonical⟩⟩⟩
  case decodes => exact decode_commandWord (i := .sbox rd rs1) (opc := 0x08#8) (Nat.succ_pos _) rfl
  case written => rw [exec_sbox]; exact runCommand_writeV hfatal (writeOfOne_ok hv)
  case noncanonical =>
    rw [exec_sbox]
    exact runCommand_failed (code := .noncanonical) hfatal (by decide) (writeOfOne_noncanonical hv)

/-- Settles O11: the self-check compares with the forward S-box, which valid parameters make the inverse. -/
theorem isboxRule : Obligations.IsboxRule := by
  refine ⟨fun c hc => ⟨fun v => sbox_isbox_inverse hc, pow_einv_fixed_points hc⟩, fun rd rs1 =>
    ⟨?decodes, fun s hfatal => ?completes⟩⟩
  case decodes => exact decode_commandWord (i := .isbox rd rs1) (opc := 0x09#8) (Nat.succ_pos _) rfl
  case completes =>
    rw [exec_isbox]
    refine ⟨fun hv => ?noncanonical, fun hv hcheck => ?written, fun hv hcheck => ?constraint⟩
    case noncanonical =>
      exact runCommand_failed (code := .noncanonical) hfatal (by decide) (isboxOn_noncanonical hv)
    case written => exact runCommand_writeV hfatal (isboxOn_ok hv hcheck)
    case constraint =>
      rw [runCommand_error hfatal (isboxOn_constraint hv hcheck), raise_constraint]

end Sys2Proof.Proofs
end

