-- ==== Sys2Proof/Proofs/KeyScheduleRounds.lean ====
section
/-! The key schedule and round commands (43_keysched_round.md R191 to R196). Each is a chain of checks before a
phase of one of three kinds: a single round, the key schedule, or a pass of the cipher under fresh subkeys. So
passing and failing a check are settled once, and each phase's outcomes are settled once. -/

namespace Sys2Proof.Proofs

open Sys2Proof.Machine Sys2Proof.Laws

/-! ### Checks in their order of priority (R16, R243) -/

/-- A compute phase behind one more check. -/
def afterCheck (check : Regs → Except ErrCode Unit) (body : Params → Regs → Except ErrCode Effect)
    (c : Params) (x : Regs) : Except ErrCode Effect := do
  check x
  body c x

section Checks

variable {s : State} {check : Regs → Except ErrCode Unit} {body body' : Params → Regs → Except ErrCode Effect}

/-- A command runs its phases on one pair of parameters and operands, so only their result there matters. -/
theorem runCommand_congr (h : body s.cfg s.operands = body' s.cfg s.operands) :
    runCommand s body = runCommand s body' := by
  rw [runCommand, runCommand, h]

theorem runCommand_afterCheck_passed (hcheck : check s.operands = .ok ()) :
    runCommand s (afterCheck check body) = runCommand s body :=
  runCommand_congr (by rw [afterCheck, hcheck, ok_bind])

theorem runCommand_afterCheck_failed {code : ErrCode} (hfatal : s.fatal = false) (hcode : code ≠ .constraint)
    (hcheck : check s.operands = .error code) :
    runCommand s (afterCheck check body) = .next (Spec.failed s code.code) :=
  runCommand_failed hfatal hcode (by rw [afterCheck, hcheck, error_bind])

/-- MVALID is the first check of every command here (R35). -/
theorem runCommand_noMds (hfatal : s.fatal = false) (hm : s.operands.mvalid = false) :
    runCommand s (afterCheck needMatrix body) = .next (Spec.failed s 0x03#8) :=
  runCommand_afterCheck_failed (code := .noMds) hfatal (by decide) (needMatrix_error hm)

theorem runCommand_noSubkeys (hfatal : s.fatal = false) (hsk : s.operands.skvalid = false) :
    runCommand s (afterCheck needSubkeys body) = .next (Spec.failed s 0x04#8) :=
  runCommand_afterCheck_failed (code := .noSubkeys) hfatal (by decide) (needSubkeys_error hsk)

/-- The index of a round command lies in 1 to R - 1 (R191). -/
theorem runCommand_roundRange {i : Nat} (hfatal : s.fatal = false)
    (hi : ¬ (1 ≤ i ∧ i < s.operands.roundCount)) :
    runCommand s (afterCheck (needRound 1 · i) body) = .next (Spec.failed s 0x05#8) :=
  runCommand_afterCheck_failed (code := .roundRange) hfatal (by decide) (needRound_error hi)

end Checks

/-! ### Single rounds: KRND, ERND and DRND (R191, R193, R194) -/

/-- `V[rd] <- step(u, k)`, with `u` checked before the added vector `k` is read. -/
def roundOn (c : Params) (rd : VReg) (step : Vec → Vec → Except ErrCode Vec) (u : Vec)
    (readKey : Except ErrCode Vec) : Except ErrCode Effect := do
  let a ← readCanon c u
  let k ← readKey
  let r ← step a k
  return .writeV rd r

section Round

variable {c : Params} {rd : VReg} {step : Vec → Vec → Except ErrCode Vec} {u k r : Vec}

theorem roundOn_ok (hu : Vec.Below c.p u) (hstep : step u k = .ok r) :
    roundOn c rd step u (.ok k) = .ok (.writeV rd r) := by
  rw [roundOn, readCanon_ok hu, ok_bind, ok_bind, hstep]; rfl

theorem roundOn_noncanonical {readKey : Except ErrCode Vec} (hu : ¬ Vec.Below c.p u) :
    roundOn c rd step u readKey = .error .noncanonical := by
  rw [roundOn, readCanon_error hu, error_bind]

/-- The added vector of KRND is an operand with its own check (R121). -/
theorem roundOn_readCanon_noncanonical (h : ¬ (Vec.Below c.p u ∧ Vec.Below c.p k)) :
    roundOn c rd step u (readCanon c k) = .error .noncanonical := by
  by_cases hu : Vec.Below c.p u
  · rw [roundOn, readCanon_ok hu, ok_bind, readCanon_error fun hk => h ⟨hu, hk⟩, error_bind]
  · exact roundOn_noncanonical hu

end Round

/-- `V[rd] <- S_i(M V[rs1]) + RC[i]`, both vectors checked. -/
def krndBody (rd rs1 : VReg) (i : Nat) (c : Params) (x : Regs) : Except ErrCode Effect :=
  roundOn c rd (roundStep c x.m i) x.v[rs1] (readCanon c (tableRow x.rc i))

theorem exec_krnd (rd rs1 : VReg) (i : Nat) (s : State) : exec (.krnd rd rs1 i) s =
    runCommand s (afterCheck needMatrix (afterCheck (needRound 1 · i) (krndBody rd rs1 i))) := rfl

/-- `V[rd] <- step(V[rs1], SK[i])`; the subkeys are canonical as they stand (R43). -/
def subkeyRoundBody (step : Params → Regs → Nat → Vec → Vec → Except ErrCode Vec) (rd rs1 : VReg) (i : Nat)
    (c : Params) (x : Regs) : Except ErrCode Effect :=
  roundOn c rd (step c x i) x.v[rs1] (.ok (tableRow x.sk i))

/-- The phases of ERND and DRND: the three checks in their order, then the round. -/
def checkedSubkeyRound (step : Params → Regs → Nat → Vec → Vec → Except ErrCode Vec) (rd rs1 : VReg) (i : Nat) :
    Params → Regs → Except ErrCode Effect :=
  afterCheck needMatrix (afterCheck needSubkeys (afterCheck (needRound 1 · i) (subkeyRoundBody step rd rs1 i)))

theorem exec_ernd (rd rs1 : VReg) (i : Nat) (s : State) : exec (.ernd rd rs1 i) s =
    runCommand s (checkedSubkeyRound (fun c x => roundStep c x.m) rd rs1 i) := rfl

theorem exec_drnd (rd rs1 : VReg) (i : Nat) (s : State) : exec (.drnd rd rs1 i) s =
    runCommand s (checkedSubkeyRound (fun c x => unroundStep c x.mi) rd rs1 i) := rfl

/-- The outcomes of ERND and DRND in their order of priority, where valid parameters let `step` compute the
formula `f`. -/
theorem runCommand_checkedSubkeyRound {step : Params → Regs → Nat → Vec → Vec → Except ErrCode Vec}
    {f : Params → Regs → Nat → Vec → Vec → Vec}
    (hstep : ∀ c x i v k, c.Valid → step c x i v k = .ok (f c x i v k))
    (rd rs1 : VReg) (i : Nat) {s : State} (hfatal : s.fatal = false) :
    (s.operands.mvalid = false →
      runCommand s (checkedSubkeyRound step rd rs1 i) = .next (Spec.failed s 0x03#8)) ∧
    (s.operands.mvalid = true →
      (s.operands.skvalid = false →
        runCommand s (checkedSubkeyRound step rd rs1 i) = .next (Spec.failed s 0x04#8)) ∧
      (s.operands.skvalid = true → ¬ (1 ≤ i ∧ i < s.operands.roundCount) →
        runCommand s (checkedSubkeyRound step rd rs1 i) = .next (Spec.failed s 0x05#8)) ∧
      (s.operands.skvalid = true → 1 ≤ i → i < s.operands.roundCount →
        (¬ Vec.Below s.cfg.p s.operands.v[rs1] →
          runCommand s (checkedSubkeyRound step rd rs1 i) = .next (Spec.failed s 0x02#8)) ∧
        (s.cfg.Valid → Vec.Below s.cfg.p s.operands.v[rs1] →
          runCommand s (checkedSubkeyRound step rd rs1 i) = .next (Spec.completed s (Spec.withV s.regs rd
            (f s.cfg s.operands i s.operands.v[rs1] (tableRow s.operands.sk i))))))) := by
  refine ⟨runCommand_noMds hfatal, fun hm => ?_⟩
  rw [checkedSubkeyRound, runCommand_afterCheck_passed (needMatrix_ok hm)]
  refine ⟨runCommand_noSubkeys hfatal, fun hsk hi => ?roundRange, fun hsk hlo hhi => ?inRange⟩
  case roundRange =>
    rw [runCommand_afterCheck_passed (needSubkeys_ok hsk), runCommand_roundRange hfatal hi]
  case inRange =>
    rw [runCommand_afterCheck_passed (needSubkeys_ok hsk), runCommand_afterCheck_passed (needRound_ok hlo hhi)]
    exact ⟨fun hv => runCommand_failed (code := .noncanonical) hfatal (by decide) (roundOn_noncanonical hv),
      fun hc hv => runCommand_writeV hfatal (roundOn_ok hv (hstep _ _ _ _ _ hc))⟩

/-! ### The key schedule (R192, R199) -/

/-- The subkeys of a raw key, checked before the rows RC[0] to RC[R-1] are. -/
def scheduleOn (c : Params) (x : Regs) (key : Vec) : Except ErrCode (List Vec) := do
  let k ← readCanon c key
  let rows ← readRcRows c x
  deriveSubkeys c x.m k rows

section Schedule

variable {c : Params} {x : Regs} {key : Vec}

theorem scheduleOn_ok (hc : c.Valid) (hT : Spec.TablesFull c x) (hkey : Vec.Below c.p key)
    (hrows : Spec.RowsCanonical c x) :
    scheduleOn c x key = .ok ((List.range x.roundCount).map (Spec.subkey c x.m x.rc key)) := by
  obtain ⟨hpos, hmax, hlen⟩ := hT
  have hle : x.roundCount ≤ x.rc.length := hlen ▸ hmax
  rw [scheduleOn, readCanon_ok hkey, ok_bind, readRcRows_ok ((rowsCanonical_iff hle).1 hrows), ok_bind,
    deriveSubkeys_ok hc _ _ _ hpos hle]

theorem scheduleOn_noncanonical (hT : Spec.TablesFull c x)
    (h : ¬ (Vec.Below c.p key ∧ Spec.RowsCanonical c x)) :
    scheduleOn c x key = .error .noncanonical := by
  obtain ⟨-, hmax, hlen⟩ := hT
  by_cases hkey : Vec.Below c.p key
  · rw [scheduleOn, readCanon_ok hkey, ok_bind,
      readRcRows_not_canonical (hlen ▸ hmax) fun hrows => h ⟨hkey, hrows⟩, error_bind]
  · rw [scheduleOn, readCanon_error hkey, error_bind]

end Schedule

/-- `SK <- the table of the key in V[rs1]`. -/
def kschedBody (rs1 : VReg) (c : Params) (x : Regs) : Except ErrCode Effect := do
  let sks ← scheduleOn c x x.v[rs1]
  return .writeSubkeys (padSubkeys c sks)

theorem exec_ksched (rs1 : VReg) (s : State) :
    exec (.ksched rs1) s = runCommand s (afterCheck needMatrix (kschedBody rs1)) := by
  simp only [exec, execKsched]
  exact runCommand_congr (by simp only [afterCheck, kschedBody, scheduleOn, readV, bind_assoc])

section KeySchedule

variable {c : Params} {x : Regs} {rs1 : VReg}

theorem kschedBody_ok (hc : c.Valid) (hT : Spec.TablesFull c x) (hkey : Vec.Below c.p x.v[rs1])
    (hrows : Spec.RowsCanonical c x) :
    kschedBody rs1 c x = .ok (.writeSubkeys (Spec.subkeyTable c x x.v[rs1])) := by
  have ⟨_, hmax, _⟩ := hT
  rw [kschedBody, scheduleOn_ok hc hT hkey hrows, ok_bind, padSubkeys_eq x _ hmax]; rfl

theorem kschedBody_noncanonical (hT : Spec.TablesFull c x)
    (h : ¬ (Vec.Below c.p x.v[rs1] ∧ Spec.RowsCanonical c x)) :
    kschedBody rs1 c x = .error .noncanonical := by
  rw [kschedBody, scheduleOn_noncanonical hT h, error_bind]

end KeySchedule

/-! ### Passes of the cipher: ENC and DEC (R195, R196) -/

/-- `V[rd] <- pass(subkeys, V[rs1])`, with fresh subkeys of the key in V[rs2] in SK. -/
def cipherBody (pass : Params → Regs → List Vec → Vec → Except ErrCode Vec) (rd rs1 rs2 : VReg)
    (c : Params) (x : Regs) : Except ErrCode Effect := do
  let u ← readCanon c x.v[rs1]
  let sks ← scheduleOn c x x.v[rs2]
  let r ← pass c x sks u
  return .writeBoth rd r (padSubkeys c sks)

/-- The phases of ENC and DEC. -/
def checkedCipher (pass : Params → Regs → List Vec → Vec → Except ErrCode Vec) (rd rs1 rs2 : VReg) :
    Params → Regs → Except ErrCode Effect :=
  afterCheck needMatrix (cipherBody pass rd rs1 rs2)

theorem exec_enc (rd rs1 rs2 : VReg) (s : State) : exec (.enc rd rs1 rs2) s =
    runCommand s (checkedCipher (fun c x sks pt => encryptWith c x.m pt sks) rd rs1 rs2) := by
  simp only [exec, execEnc]
  exact runCommand_congr (by simp only [checkedCipher, afterCheck, cipherBody, scheduleOn, readV, bind_assoc])

theorem exec_dec (rd rs1 rs2 : VReg) (s : State) : exec (.dec rd rs1 rs2) s =
    runCommand s (checkedCipher (fun c x sks ct => decryptWith c x.mi sks ct) rd rs1 rs2) := by
  simp only [exec, execDec]
  exact runCommand_congr (by simp only [checkedCipher, afterCheck, cipherBody, scheduleOn, readV, bind_assoc])

section Cipher

variable {c : Params} {x : Regs} {pass : Params → Regs → List Vec → Vec → Except ErrCode Vec} {rd rs1 rs2 : VReg}

theorem cipherBody_ok {r : Vec} (hc : c.Valid) (hT : Spec.TablesFull c x) (hu : Vec.Below c.p x.v[rs1])
    (hkey : Vec.Below c.p x.v[rs2]) (hrows : Spec.RowsCanonical c x)
    (hpass : pass c x ((List.range x.roundCount).map (Spec.subkey c x.m x.rc x.v[rs2])) x.v[rs1] = .ok r) :
    cipherBody pass rd rs1 rs2 c x = .ok (.writeBoth rd r (Spec.subkeyTable c x x.v[rs2])) := by
  have ⟨_, hmax, _⟩ := hT
  rw [cipherBody, readCanon_ok hu, ok_bind, scheduleOn_ok hc hT hkey hrows, ok_bind, hpass, ok_bind,
    padSubkeys_eq x _ hmax]; rfl

theorem cipherBody_noncanonical (hT : Spec.TablesFull c x)
    (h : ¬ (Vec.Below c.p x.v[rs1] ∧ Vec.Below c.p x.v[rs2] ∧ Spec.RowsCanonical c x)) :
    cipherBody pass rd rs1 rs2 c x = .error .noncanonical := by
  by_cases hu : Vec.Below c.p x.v[rs1]
  · rw [cipherBody, readCanon_ok hu, ok_bind, scheduleOn_noncanonical hT fun hks => h ⟨hu, hks⟩, error_bind]
  · rw [cipherBody, readCanon_error hu, error_bind]

end Cipher

/-- The outcomes of ENC and DEC in their order of priority, where valid parameters let `pass` compute the
formula `f` from the derived subkeys. -/
theorem runCommand_checkedCipher {pass : Params → Regs → List Vec → Vec → Except ErrCode Vec}
    {f : Params → Regs → Vec → Vec → Vec}
    (hpass : ∀ c x u key, c.Valid → 1 ≤ x.roundCount →
      pass c x ((List.range x.roundCount).map (Spec.subkey c x.m x.rc key)) u = .ok (f c x u key))
    (rd rs1 rs2 : VReg) {s : State} (hfatal : s.fatal = false) :
    (s.operands.mvalid = false →
      runCommand s (checkedCipher pass rd rs1 rs2) = .next (Spec.failed s 0x03#8)) ∧
    (s.operands.mvalid = true → Spec.TablesFull s.cfg s.operands →
      (¬ (Vec.Below s.cfg.p s.operands.v[rs1] ∧ Vec.Below s.cfg.p s.operands.v[rs2] ∧
          Spec.RowsCanonical s.cfg s.operands) →
        runCommand s (checkedCipher pass rd rs1 rs2) = .next (Spec.failed s 0x02#8)) ∧
      (s.cfg.Valid → Vec.Below s.cfg.p s.operands.v[rs1] → Vec.Below s.cfg.p s.operands.v[rs2] →
        Spec.RowsCanonical s.cfg s.operands →
        runCommand s (checkedCipher pass rd rs1 rs2) = .next (Spec.completed s
          { Spec.withV s.regs rd (f s.cfg s.operands s.operands.v[rs1] s.operands.v[rs2]) with
            sk := Spec.subkeyTable s.cfg s.operands s.operands.v[rs2], skvalid := true }))) := by
  refine ⟨runCommand_noMds hfatal, fun hm hT => ?_⟩
  rw [checkedCipher, runCommand_afterCheck_passed (needMatrix_ok hm)]
  refine ⟨fun h => ?noncanonical, fun hc hu hkey hrows => ?written⟩
  case noncanonical =>
    exact runCommand_failed (code := .noncanonical) hfatal (by decide) (cipherBody_noncanonical hT h)
  case written =>
    have ⟨hpos, _, _⟩ := hT
    exact runCommand_ok hfatal (cipherBody_ok hc hT hu hkey hrows (hpass _ _ _ _ hc hpos))

/-! ### The statements -/

/-- Settles O16: two checks, then the round on two checked vectors, whose S-box layer cannot fail with valid
parameters. -/
theorem krndRule : Obligations.KrndRule := by
  refine fun rd rs1 i => ⟨fun hi => ?decodes, fun s hfatal => ?completes⟩
  case decodes => exact decode_commandWord (i := .krnd rd rs1 i) (opc := 0x20#8) hi rfl
  case completes =>
    rw [exec_krnd]
    refine ⟨runCommand_noMds hfatal, fun hm => ?_⟩
    rw [runCommand_afterCheck_passed (needMatrix_ok hm)]
    refine ⟨runCommand_roundRange hfatal, fun hlo hhi => ?_⟩
    rw [runCommand_afterCheck_passed (needRound_ok hlo hhi)]
    refine ⟨fun h => ?noncanonical, fun hc hv hk => ?written⟩
    case noncanonical =>
      exact runCommand_failed (code := .noncanonical) hfatal (by decide) (roundOn_readCanon_noncanonical h)
    case written =>
      refine runCommand_writeV hfatal ?_
      rw [krndBody, readCanon_ok hk, roundOn_ok hv (roundStep_ok hc ..)]

/-- Settles O17: ERND is the subkey phase of the round. -/
theorem erndRule : Obligations.ErndRule := by
  refine fun rd rs1 i => ⟨fun hi => ?decodes, fun s hfatal => ?completes⟩
  case decodes => exact decode_commandWord (i := .ernd rd rs1 i) (opc := 0x21#8) hi rfl
  case completes =>
    rw [exec_ernd]
    exact runCommand_checkedSubkeyRound (f := fun c x => Spec.round c x.m)
      (fun c x i v k hc => roundStep_ok hc x.m i v k) rd rs1 i hfatal

/-- Settles O18: DRND is the subkey phase of the inverse round, which undoes the round where MI undoes M. -/
theorem drndRule : Obligations.DrndRule := by
  refine ⟨fun c m mi i v k hc h hv => unround_round hc h i hv k, fun rd rs1 i =>
    ⟨fun hi => ?decodes, fun s hfatal => ?completes⟩⟩
  case decodes => exact decode_commandWord (i := .drnd rd rs1 i) (opc := 0x22#8) hi rfl
  case completes =>
    rw [exec_drnd]
    exact runCommand_checkedSubkeyRound (f := fun c x => Spec.unround c x.mi)
      (fun c x i v k hc => unroundStep_ok hc x.mi i v k) rd rs1 i hfatal

/-- Settles O19: the schedule reads the key and the rows below R, and its padding gives the whole table. -/
theorem kschedRule : Obligations.KschedRule := by
  refine fun rs1 => ⟨?decodes, fun s hfatal => ?completes⟩
  case decodes => exact decode_commandWord (i := .ksched rs1) (opc := 0x28#8) (Nat.succ_pos _) rfl
  case completes =>
    rw [exec_ksched]
    refine ⟨runCommand_noMds hfatal, fun hm hT => ?_⟩
    rw [runCommand_afterCheck_passed (needMatrix_ok hm)]
    exact ⟨fun h => runCommand_failed (code := .noncanonical) hfatal (by decide) (kschedBody_noncanonical hT h),
      fun hc hkey hrows => runCommand_ok hfatal (kschedBody_ok hc hT hkey hrows)⟩

/-- Settles O20: ENC is the cipher phase of the keyed rounds 1 to R - 1. -/
theorem encRule : Obligations.EncRule := by
  refine fun rd rs1 rs2 => ⟨?decodes, fun s hfatal => ?completes⟩
  case decodes => exact decode_commandWord (i := .enc rd rs1 rs2) (opc := 0x29#8) (Nat.succ_pos _) rfl
  case completes =>
    rw [exec_enc]
    exact runCommand_checkedCipher (f := Spec.encrypt)
      (fun c x pt key hc hpos => encryptWith_ok hc x.m _ pt hpos) rd rs1 rs2 hfatal

/-- Settles O21: DEC is the cipher phase that undoes the rounds R - 1 to 1. -/
theorem decRule : Obligations.DecRule := by
  refine fun rd rs1 rs2 => ⟨?decodes, fun s hfatal => ?completes⟩
  case decodes => exact decode_commandWord (i := .dec rd rs1 rs2) (opc := 0x2A#8) (Nat.succ_pos _) rfl
  case completes =>
    rw [exec_dec]
    exact runCommand_checkedCipher (f := Spec.decrypt)
      (fun c x ct key hc hpos => decryptWith_ok hc x.mi _ ct hpos) rd rs1 rs2 hfatal

end Sys2Proof.Proofs
end

