-- ==== Sys2Proof/Proofs/ErrorsAndInterrupt.lean ====
section
/-! Error completions and the interrupt output (60_exceptions.md R244, R248): a command ends by a raise or a
commit; a raise is determined by the code it leaves in ERRCODE; both endings set DONE and keep CFG.IE; and
IRQ depends on these two bits only. -/

namespace Sys2Proof.Proofs

open Sys2Proof.Machine Sys2Proof.Laws

/-! ### A raise as a function of its code (R38, R242, R244) -/

/-- The numbers of R242 tell CONSTRAINT from every other code. -/
theorem code_beq_constraint (c : ErrCode) : (c.code == 0x08#8) = (c == .constraint) := by
  cases c <;> rfl

/-- The state after a raise, in terms of the ERRCODE that the host then reads. -/
theorem raise_eq_of_errcode (s : State) (c : ErrCode) :
    s.raise c = { s with
      errcode := (s.raise c).errcode, done := true, inflight := none
      fatal := s.fatal || (s.raise c).errcode == 0x08#8 } := by
  rw [raise_errcode, code_beq_constraint]
  rfl

/-! ### The interrupt output (R248) -/

theorem irq_iff (s : State) : s.irq = true ↔ s.done = true ∧ s.ie = true := by
  rw [State.irq, Bool.and_eq_true]

theorem irq_of_done {s : State} (h : s.done = true) : s.irq = s.ie := by
  rw [State.irq, h, Bool.true_and]

theorem irq_of_not_done {s : State} (h : s.done = false) : s.irq = false := by
  rw [State.irq, h, Bool.false_and]

/-- A write sets the interrupt output by its effect on the word; the recorded response plays no part. -/
theorem hostAccess_write_irq {s : State} {shape : Shape} {a : BitVec 18} {g : Target} (d : Word)
    (hg : busTarget s.cfg shape a = some g) :
    (hostAccess (.write shape a d) s).irq = (writeTarget s g d).irq := by
  rw [hostAccess_write d hg]
  rfl

/-- A CFG write sets IE and keeps DONE. -/
theorem writeCfg_irq (s : State) (d : Word) : (s.writeCfg d).irq = (s.done && d.getLsbD 16) := by
  rw [State.irq, writeCfg_done, writeCfg_ie]

/-- Writing 1 to STATUS.DONE clears it. -/
theorem writeStatus_done_of_bit (s : State) {d : Word} (h : d.getLsbD 1 = true) :
    (s.writeStatus d).done = false := by
  rw [writeStatus_done, h, Bool.not_true, Bool.and_false]

/-- A command ends with DONE = 1 and leaves IE alone, whether it succeeds or fails. -/
theorem exec_done_ie {i : Instr} {s t : State} (h : exec i s = .next t) : t.done = true ∧ t.ie = s.ie := by
  rcases exec_shape h with ⟨c, rfl⟩ | ⟨e, -, rfl⟩
  · exact ⟨raise_done s c, raise_ie s c⟩
  · exact ⟨commit_done s e, commit_ie s e⟩

/-! ### The statements -/

/-- Settles O29: a commit leaves ERRCODE = 0, so the command ended by a raise. -/
theorem errorsWriteStatusOnly : Obligations.ErrorsWriteStatusOnly := by
  intro i s t hexec herr
  rcases exec_shape hexec with ⟨c, rfl⟩ | ⟨e, -, rfl⟩
  · exact raise_eq_of_errcode s c
  · exact absurd (commit_errcode s e) herr

/-- Settles O32: each event of the rule sets DONE or IE, and IRQ is their conjunction. -/
theorem irqFollowsDoneAndIe : Obligations.IrqFollowsDoneAndIe := by
  intro s
  refine ⟨irq_iff s, fun i t hexec => ?completion, fun d hidle => ?cfgWrite, fun d hbit => ?statusWrite,
    fun d hidle => ?cmdWrite, fun level => irq_of_not_done (resetTo_done s level)⟩
  case completion =>
    obtain ⟨hdone, hie⟩ := exec_done_ie hexec
    rw [irq_of_done hdone, hie]
  case cfgWrite =>
    rw [hostAccess_write_irq d (busTarget_cfg _), writeTarget_cfg_of_idle hidle, writeCfg_irq]
  case statusWrite =>
    rw [hostAccess_write_irq d (busTarget_status _), writeTarget_status]
    exact irq_of_not_done (writeStatus_done_of_bit s hbit)
  case cmdWrite =>
    rw [hostAccess_write_irq d (busTarget_cmd _), writeTarget_cmd_of_idle hidle]
    exact irq_of_not_done (acceptCommand_done s d)

end Sys2Proof.Proofs
end

