-- ==== Sys2Proof/Proofs/EncodingRoundTrip.lean ====
section
/-! The decoder and the encoder undo each other (30_encoding.md R90 to R93, R100, R102). -/

namespace Sys2Proof.Proofs

open Sys2Proof.Machine Sys2Proof.Laws

/-! ### The index of a decoded command (R91) -/

/-- The test of the unused fields passes or fails, and does not change the command (R93). -/
theorem whenUnusedZero_eq_ok {zero : Bool} {i j : Instr} (h : whenUnusedZero zero i = .ok j) :
    zero = true ∧ i = j := by
  cases zero with
  | true => exact ⟨rfl, Except.ok.inj h⟩
  | false => cases h

/-- The decoder takes the index from the 8-bit IDX field, or gives a command that has none. -/
theorem wellFormed_of_decode {w : Word} {i : Instr} (h : decode w = .ok i) : i.WellFormed := by
  have hidx : (idxField w).toNat < 256 := (idxField w).isLt
  simp only [decode] at h
  split at h
  next => cases h
  next =>
    split at h
    case h_21 => cases h
    all_goals
      obtain ⟨-, rfl⟩ := whenUnusedZero_eq_ok h
      simp only [Instr.WellFormed, Instr.idx]
      omega

/-! ### The statements -/

/-- Settles O22: the decoder reads the packed fields back. -/
theorem decodeOfEncode : Obligations.DecodeOfEncode :=
  fun _ => decode_encode

/-- Settles O23: a word that decodes matches its command's row of the table, which leaves it no other bits. -/
theorem legalCommandHasOneSpelling : Obligations.LegalCommandHasOneSpelling :=
  fun _ _ h => ⟨wellFormed_of_decode h, (matches_of_decode h).1⟩

/-- Settles O25: each example word is the encoding of its command. -/
theorem exampleWordsDecode : Obligations.ExampleWordsDecode := by
  refine ⟨⟨?vadd, by decide⟩, ⟨?addrc, by decide⟩, ⟨?mdsgen, by decide⟩, ⟨?ksched, by decide⟩, ⟨?enc, by decide⟩,
    ⟨?dec, by decide⟩, ?ernd, by decide⟩
  case vadd => exact decode_encode (i := .vadd 3 1 2) (by decide)
  case addrc => exact decode_encode (i := .addrc 1 1 2) (by decide)
  case mdsgen => exact decode_encode (i := .mdsgen 0 1) (by decide)
  case ksched => exact decode_encode (i := .ksched 2) (by decide)
  case enc => exact decode_encode (i := .enc 2 0 1) (by decide)
  case dec => exact decode_encode (i := .dec 3 2 1) (by decide)
  case ernd => exact decode_encode (i := .ernd 4 4 3) (by decide)

end Sys2Proof.Proofs
end

