-- ==== Sys2Proof/Proofs/Moves.lean ====
section
/-! The moves of a step (00_scope.md R19, 70_reset_and_hazards.md R270 to R272, R281): which function runs the
next move, what a completion leaves alone, and the statements about the order of moves. -/

namespace Sys2Proof.Proofs

open Sys2Proof.Machine Sys2Proof.Laws

/-! ### The next move (R19, R281) -/

/-- `s` with the moves `l` still to come. -/
def withMoves (s : State) (l : List Event) : State := { s with inputs := l }

theorem withMoves_inputs (s : State) : withMoves s s.inputs = s := rfl

theorem step_of_no_inputs {s : State} (h : s.inputs = []) : step s = completeInFlight s := by
  simp only [step, nextMove, h]

theorem step_of_input {s : State} {e : Event} {rest : List Event} (h : s.inputs = e :: rest) :
    step s = takeEvent e (withMoves s rest) := by
  simp only [step, nextMove, h]
  rfl

theorem takeEvent_access {s : State} (h : s.inReset = false) (a : Access) :
    takeEvent (.access a) s = .next (hostAccess a s) := by
  simp [takeEvent, h]

theorem takeEvent_access_inReset {s : State} (h : s.inReset = true) (a : Access) :
    takeEvent (.access a) s = .refused .accessDuringReset := by
  simp [takeEvent, h]

theorem completeInFlight_of_idle {s : State} (h : s.inflight = none) : completeInFlight s = .next s := by
  simp only [completeInFlight, h]

theorem completeInFlight_of_command {s : State} {f : InFlight} {i : Instr} (hf : s.inflight = some f)
    (hi : decode f.cmd = .ok i) : completeInFlight s = exec i s := by
  simp only [completeInFlight, hf, hi]

theorem completeInFlight_of_error {s : State} {f : InFlight} {e : Reject} (hf : s.inflight = some f)
    (he : decode f.cmd = .error e) : completeInFlight s = .next (completeIllegal s) := by
  simp only [completeInFlight, hf, he]

/-! ### What an access leaves alone -/

theorem hostAccess_keeps (a : Access) (s : State) :
    (hostAccess a s).cfg = s.cfg ∧ (hostAccess a s).inReset = s.inReset ∧
      (hostAccess a s).inputs = s.inputs := by
  obtain ⟨resp, h | ⟨_, d, _, _, h⟩ | ⟨_, _, _, _, _, _, _, h⟩ | ⟨_, d, _, _, _, h⟩ | ⟨_, d, _, _, _, h⟩ |
    ⟨_, _, _, _, _, _, _, h⟩⟩ := hostAccess_cases a s
  all_goals rw [h]; exact ⟨rfl, rfl, rfl⟩

/-- The mark of a dropped write (R39, R74). -/
def withDroppedWrite (s : State) : State := { s with lost := true, resp := some .writeOkay }

/-- A write to a mapped word other than STATUS, while a command is in flight (R74). -/
theorem hostAccess_dropped {s : State} {a : BitVec 18} {g : Target} (hb : s.busy = true)
    (hg : busTarget s.cfg .word a = some g) (hne : g ≠ .status) (d : Word) :
    hostAccess (.write .word a d) s = withDroppedWrite s := by
  rw [hostAccess_write d hg, writeTarget_of_busy hb hne]
  rfl

/-! ### What a command leaves alone -/

/-- While FATAL = 1 a command does no more than answer LOCKED (R245). -/
theorem exec_of_fatal {s : State} (h : s.fatal = true) (i : Instr) :
    exec i s = .next (Spec.failed s 0x09#8) := by
  obtain ⟨body, hbody⟩ := exec_is_runCommand i
  rw [hbody, runCommand_locked h]

theorem completeIllegal_of_fatal {s : State} (h : s.fatal = true) :
    completeIllegal s = Spec.failed s 0x09#8 := by
  rw [completeIllegal, h]
  exact raise_eq_failed s (c := .locked) (by decide)

/-- A completion keeps the parameters, the reset level and the moves still to come, and ends the command. -/
theorem exec_keeps {i : Instr} {s t : State} (h : exec i s = .next t) :
    t.cfg = s.cfg ∧ t.inReset = s.inReset ∧ t.inputs = s.inputs ∧ t.inflight = none := by
  rcases exec_shape h with ⟨c, rfl⟩ | ⟨e, -, rfl⟩
  · exact ⟨rfl, rfl, rfl, rfl⟩
  · exact ⟨rfl, rfl, rfl, rfl⟩

/-- A command commutes with a change of the state that touches neither what commands read nor what their
completions write. -/
theorem exec_commutes {u : State → State} (hcfg : ∀ s, (u s).cfg = s.cfg)
    (hfatal : ∀ s, (u s).fatal = s.fatal) (hoperands : ∀ s, (u s).operands = s.operands)
    (hfinish : ∀ s r, (u s).finish r = u (s.finish r)) {i : Instr} {s t : State} (h : exec i s = .next t) :
    exec i (u s) = .next (u t) := by
  obtain ⟨body, hbody⟩ := exec_is_runCommand i
  rw [hbody] at h ⊢
  obtain rfl := Host.Outcome.next.inj h
  rw [runCommand, hcfg, hfatal, hoperands, hfinish]

/-- No command reads or writes the list of moves. -/
theorem exec_withMoves {i : Instr} {s t : State} (h : exec i s = .next t) (l : List Event) :
    exec i (withMoves s l) = .next (withMoves t l) :=
  exec_commutes (u := (withMoves · l)) (fun _ => rfl) (fun _ => rfl) (fun _ => rfl)
    (fun _ r => by cases r <;> rfl) h

/-- No command reads or writes LOST and the recorded response. -/
theorem exec_withDroppedWrite {i : Instr} {s t : State} (h : exec i s = .next t) :
    exec i (withDroppedWrite s) = .next (withDroppedWrite t) :=
  exec_commutes (u := withDroppedWrite) (fun _ => rfl) (fun _ => rfl) (fun _ => rfl)
    (fun _ r => by cases r <;> rfl) h

/-! ### Completion as a move (R281) -/

/-- The engine's completion step always answers, and the block is idle after it. -/
theorem completeInFlight_next (s : State) :
    ∃ t, completeInFlight s = .next t ∧ t.cfg = s.cfg ∧ t.busy = false := by
  cases hf : s.inflight with
  | none => exact ⟨s, completeInFlight_of_idle hf, rfl, by rw [State.busy, hf]; rfl⟩
  | some f =>
    cases hd : decode f.cmd with
    | error e => exact ⟨_, completeInFlight_of_error hf hd, rfl, rfl⟩
    | ok i =>
      obtain ⟨t, ht⟩ := exec_next i s
      obtain ⟨hcfg, -, -, hnone⟩ := exec_keeps ht
      exact ⟨t, by rw [completeInFlight_of_command hf hd, ht], hcfg, by rw [State.busy, hnone]; rfl⟩

/-! ### Runs of steps -/

theorem run_one {s t : State} (h : step s = .next t) : Host.Core.run core 1 s = .next t := by
  rw [run_succ 0 h]
  rfl

theorem run_two {s t u : State} (h : step s = .next t) (h' : step t = .next u) :
    Host.Core.run core 2 s = .next u := by
  rw [run_succ 1 h, run_one h']

/-- A write that comes before the completion is dropped (R74), and the command runs as without it. -/
theorem run_write_then_complete {s t : State} {f : InFlight} {i : Instr} {a : BitVec 18} {g : Target}
    (hreset : s.inReset = false) (hf : s.inflight = some f) (hi : decode f.cmd = .ok i)
    (hg : busTarget s.cfg .word a = some g) (hne : g ≠ .status) (hexec : exec i (withMoves s []) = .next t)
    (d : Word) :
    Host.Core.run core 2 (withMoves s [.access (.write .word a d), .complete]) = .next (withDroppedWrite t) := by
  have hbusy : s.busy = true := by rw [State.busy, hf]; rfl
  have hdropped := hostAccess_dropped (s := withMoves s [.complete]) hbusy hg hne d
  refine run_two (t := withDroppedWrite (withMoves s [.complete])) ?write ?complete
  case write =>
    rw [step_of_input (rest := [.complete]) rfl, ← hdropped]
    exact takeEvent_access (s := withMoves s [.complete]) hreset _
  case complete =>
    rw [step_of_input (rest := []) rfl]
    exact (completeInFlight_of_command (s := withDroppedWrite (withMoves s [])) hf hi).trans
      (exec_withDroppedWrite hexec)

/-- An access that comes after the completion meets the idle block. -/
theorem run_complete_then_access {s t : State} {f : InFlight} {i : Instr} (hreset : s.inReset = false)
    (hf : s.inflight = some f) (hi : decode f.cmd = .ok i) (hexec : exec i (withMoves s []) = .next t)
    (a : Access) :
    Host.Core.run core 2 (withMoves s [.complete, .access a]) = .next (hostAccess a t) := by
  obtain ⟨-, htreset, htinputs, -⟩ := exec_keeps hexec
  have htnil : withMoves t [] = t := by
    rw [← show t.inputs = [] from htinputs, withMoves_inputs]
  refine run_two (t := withMoves t [.access a]) ?complete ?access
  case complete =>
    rw [step_of_input (rest := [.access a]) rfl]
    exact (completeInFlight_of_command (s := withMoves s [.access a]) hf hi).trans
      (exec_withMoves hexec [.access a])
  case access =>
    rw [step_of_input (rest := []) rfl]
    change takeEvent (.access a) (withMoves t []) = _
    rw [htnil]
    exact takeEvent_access (htreset.trans hreset) _

/-- With reset not asserted, each move either ends the command in flight or leaves fewer moves and reset not
asserted. -/
theorem becomesIdle : ∀ (l : List Event) (s : State), s.inputs = l → s.inReset = false →
    ∃ n t, n ≤ l.length + 1 ∧ Host.Core.run core n s = .next t ∧ t.busy = false := by
  intro l
  induction l with
  | nil =>
    intro s hin _
    obtain ⟨t, ht, -, hidle⟩ := completeInFlight_next s
    exact ⟨1, t, le_rfl, run_one (by rw [step_of_no_inputs hin, ht]), hidle⟩
  | cons e rest ih =>
    intro s hin hreset
    cases e with
    | complete =>
      obtain ⟨t, ht, -, hidle⟩ := completeInFlight_next (withMoves s rest)
      exact ⟨1, t, Nat.le_add_left .., run_one (by rw [step_of_input hin]; exact ht), hidle⟩
    | assertReset | releaseReset =>
      exact ⟨1, _, Nat.le_add_left .., run_one (step_of_input hin), rfl⟩
    | access a =>
      obtain ⟨-, hkreset, hkinputs⟩ := hostAccess_keeps a (withMoves s rest)
      obtain ⟨n, t, hn, hrun, hidle⟩ := ih _ hkinputs (hkreset.trans hreset)
      refine ⟨n + 1, t, Nat.succ_le_succ hn, ?_, hidle⟩
      rw [run_succ n ((step_of_input hin).trans (takeEvent_access (s := withMoves s rest) hreset a)), hrun]

/-! ### The command placed by `withFetchWord` (R76) -/

theorem tableWord_toNat (w : Word) : tableWord 32 w.toNat = w := by
  rw [tableWord, Nat.mod_eq_of_lt w.isLt, BitVec.ofNat_toNat, BitVec.setWidth_eq]

/-! ### The statements -/

/-- Settles O26: an empty list and a completion move both let the command in flight run. -/
theorem stepRunsDecodedCommand : Obligations.StepRunsDecodedCommand := by
  refine fun s i => ⟨fun f hf hi => ⟨fun hin => ?engine, fun rest hin => ?move⟩, fun w hi => ?placed⟩
  case engine => rw [step_of_no_inputs hin, completeInFlight_of_command hf hi]
  case move => rw [step_of_input hin]; exact completeInFlight_of_command (s := withMoves s rest) hf hi
  case placed =>
    rw [State.withFetchWord, tableWord_toNat, step_of_input (e := .complete) (rest := s.inputs) rfl]
    exact completeInFlight_of_command (s := { acceptCommand s w with inReset := false }) (f := ⟨w, s.regs⟩) rfl hi

/-- Settles O28: LOCKED is the first check of every completion. -/
theorem lockedCompletesEveryWord : Obligations.LockedCompletesEveryWord := by
  refine fun s hfatal => ⟨exec_of_fatal hfatal, fun f e hf he => ?_⟩
  rw [completeInFlight_of_error hf he, completeIllegal_of_fatal hfatal]

/-- Settles O51: both reset moves run `resetTo` on the state without them. -/
theorem resetInputGivesResetState : Obligations.ResetInputGivesResetState := by
  intro s rest afterReset
  have hreset (level : Bool) : resetTo level (withMoves s rest) = afterReset level := rfl
  refine ⟨fun hin => ?asserted, fun hin => ?released, fun level => ⟨rfl, rfl⟩⟩
  case asserted => rw [step_of_input hin, ← hreset]; rfl
  case released => rw [step_of_input hin, ← hreset]; rfl

/-- Settles O41: every other move is total. -/
theorem onlyStopIsAccessDuringReset : Obligations.OnlyStopIsAccessDuringReset := by
  refine fun s => ⟨fun hreset a rest hin => ?refused, fun hallowed => ?answers⟩
  case refused => rw [step_of_input hin]; exact takeEvent_access_inReset (s := withMoves s rest) hreset a
  case answers =>
    have hcomplete (u : State) : ∃ t, completeInFlight u = .next t ∧ t.cfg = u.cfg := by
      obtain ⟨t, ht, hcfg, -⟩ := completeInFlight_next u
      exact ⟨t, ht, hcfg⟩
    cases hin : s.inputs with
    | nil => rw [step_of_no_inputs hin]; exact hcomplete s
    | cons e rest =>
      rw [step_of_input hin]
      cases e with
      | complete => exact hcomplete (withMoves s rest)
      | assertReset | releaseReset => exact ⟨_, rfl, rfl⟩
      | access a =>
        have hreset : s.inReset = false := Bool.eq_false_iff.mpr fun hr => hallowed ⟨hr, a, rest, hin⟩
        obtain ⟨hcfg, -, -⟩ := hostAccess_keeps a (withMoves s rest)
        exact ⟨_, takeEvent_access (s := withMoves s rest) hreset a, hcfg⟩

/-- Settles O50: the write only meets the command in LOST and the response, which no command reads or writes. -/
theorem writeAndCompletionRace : Obligations.WriteAndCompletionRace := by
  intro s t f i a g d hreset hf hi hg hne hexec
  obtain ⟨-, -, -, htinflight⟩ := exec_keeps hexec
  exact ⟨run_write_then_complete hreset hf hi hg hne hexec d, run_complete_then_access hreset hf hi hexec _,
    by rw [State.busy, htinflight]; rfl⟩

/-- Settles O52: the list of moves is the bound of the induction. -/
theorem blockBecomesIdle : Obligations.BlockBecomesIdle :=
  fun s => becomesIdle s.inputs s rfl

end Sys2Proof.Proofs
end

