-- ==== Sys2Proof/Proofs/Invariants.lean ====
section
/-! The invariants of every step (10_state.md R23 to R43): one principle says what an invariant has to survive
(a change of the list of moves, a raise, a commit of an effect, a host access, a reset), and each invariant is
then those five facts. -/

namespace Sys2Proof.Proofs

open Sys2Proof.Machine Sys2Proof.Laws

/-! ### The principle -/

/-- What a predicate on states must survive to be kept by every step from a state with a canonical store. -/
structure KeptByMoves (P : State → Prop) : Prop where
  /-- The moves still to come are not looked at. -/
  moves : ∀ s l, P s → P (withMoves s l)
  /-- An error, LOCKED where FATAL = 1 (R241, R245). -/
  raised : ∀ s c, Spec.StoreOk s → P s → s.busy = true → (s.fatal = true → c = .locked) → P (s.raise c)
  /-- A success with the effect of some command on the committed registers (R36, R40). -/
  committed : ∀ s i e, Spec.StoreOk s → P s → s.busy = true → s.fatal = false →
    EffectFacts s.cfg s.regs i e → P (s.commit e)
  /-- A host access while reset is not asserted. -/
  accessed : ∀ s a, Spec.StoreOk s → P s → s.inReset = false → P (hostAccess a s)
  /-- A change of the reset input. -/
  reset : ∀ s level, Spec.StoreOk s → P (resetTo level s)

theorem eq_locked_of_code {c : ErrCode} (h : c.code = 0x09#8) : c = .locked := by
  cases c with
  | locked => rfl
  | illegal | noncanonical | noMds | noSubkeys | roundRange | cauchyCollision | singular | constraint =>
    exact absurd h (by decide)

/-- A command that raises while FATAL = 1 raises LOCKED (R245). -/
theorem eq_locked_of_exec {i : Instr} {s : State} {c : ErrCode} (h : exec i s = .next (s.raise c))
    (hfatal : s.fatal = true) : c = .locked := by
  rw [exec_of_fatal hfatal] at h
  exact eq_locked_of_code (congrArg State.errcode (Host.Outcome.next.inj h)).symm

theorem storeOk_withMoves {s : State} (hs : Spec.StoreOk s) (l : List Event) : Spec.StoreOk (withMoves s l) :=
  ⟨hs.params, hs.store, hs.rounds, hs.snapshot⟩

/-- Every step is one of the five. -/
theorem KeptByMoves.step {P : State → Prop} (hP : KeptByMoves P) {s t : State} (hstore : Spec.StoreOk s)
    (hs : P s) (h : Machine.step s = .next t) : P t := by
  have hstore' := storeOk_withMoves hstore s.inputs.tail
  have hs' := hP.moves s s.inputs.tail hs
  have hbusy {f : InFlight} (hf : s.inflight = some f) : (withMoves s s.inputs.tail).busy = true := by
    rw [State.busy, show (withMoves s s.inputs.tail).inflight = some f from hf]; rfl
  rcases step_cases h with ⟨-, rfl⟩ | ⟨f, i, hf, -, hexec⟩ | ⟨f, e, hf, -, rfl⟩ | ⟨a, -, -, hreset, rfl⟩ |
    ⟨level, -, -, rfl⟩
  · exact hs'
  · change exec i (withMoves s s.inputs.tail) = .next t at hexec
    rcases exec_facts hstore'.params (tablesFull_of_storeOk hstore') hexec with ⟨c, rfl⟩ | ⟨e, hfatal, he, rfl⟩
    · exact hP.raised _ c hstore' hs' (hbusy hf) (eq_locked_of_exec hexec)
    · rw [operands_eq_regs hstore'] at he
      exact hP.committed _ i e hstore' hs' (hbusy hf) hfatal he
  · exact hP.raised _ _ hstore' hs' (hbusy hf) fun hfatal => if_pos hfatal
  · exact hP.accessed _ a hstore' hs' hreset
  · exact hP.reset _ level hstore'

/-! ### What an effect and a host write do to the registers -/

/-- The effects of the twenty commands are of four kinds. -/
theorem effectFacts_cases {c : Params} {x : Regs} {i : Instr} {e : Effect} (h : EffectFacts c x i e) :
    e = .nothing ∨ (∃ rd r, e = .writeV rd r) ∨
    (∃ u v, Vec.Below c.p u ∧ Vec.Below c.p v ∧ Spec.Cauchy u v ∧
      e = .writeMatrices (cauchy c.p u v) (minv c.p (cauchy c.p u v))) ∨
    ∃ key, x.mvalid = true ∧ Vec.Below c.p key ∧ Spec.RowsCanonical c x ∧
      (e = .writeSubkeys (Spec.subkeyTable c x key) ∨
        ∃ rd r, e = .writeBoth rd r (Spec.subkeyTable c x key)) := by
  cases i with
  | nop => exact .inl h
  | mdsgen rs1 rs2 =>
    obtain ⟨hu, hv, huv, rfl⟩ := h
    exact .inr (.inr (.inl ⟨_, _, hu, hv, huv, rfl⟩))
  | ksched =>
    obtain ⟨hm, hkey, hrows, rfl⟩ := h
    exact .inr (.inr (.inr ⟨_, hm, hkey, hrows, .inl rfl⟩))
  | enc | dec =>
    obtain ⟨hm, hkey, hrows, r, -, rfl⟩ := h
    exact .inr (.inr (.inr ⟨_, hm, hkey, hrows, .inr ⟨_, _, rfl⟩⟩))
  | vadd | vsub | vmul | vmov | vdot | sbox | isbox | mds | imds | addrc | addsk | subsk | krnd | ernd | drnd =>
    obtain ⟨r, -, rfl⟩ := h
    exact .inr (.inl ⟨_, _, rfl⟩)

/-- No command writes CFG. -/
@[simp] theorem applyEffect_rounds (e : Effect) (x : Regs) : (applyEffect e x).rounds = x.rounds := by
  cases e <;> rfl

/-- The host can write no matrix, no subkey, and neither MVALID nor ROUNDS through a slot (R68, R69, R71). -/
theorem writeSlot_keeps (c : Params) (x : Regs) (slot : Slot) (k : Nat) (d : Word) :
    (writeSlot c x slot k d).m = x.m ∧ (writeSlot c x slot k d).mi = x.mi ∧
      (writeSlot c x slot k d).sk = x.sk ∧ (writeSlot c x slot k d).mvalid = x.mvalid ∧
      (writeSlot c x slot k d).rounds = x.rounds := by
  cases slot with
  | m | mi | pmod | einv | sk => exact ⟨rfl, rfl, rfl, rfl, rfl⟩
  | v => rw [writeSlot, writeVLimb]; split <;> exact ⟨rfl, rfl, rfl, rfl, rfl⟩
  | rc => rw [writeSlot, writeRcLimb]; split <;> exact ⟨rfl, rfl, rfl, rfl, rfl⟩

/-- A limb write either keeps RC and SKVALID, or is one to an RC limb with storage and clears SKVALID
(R37, R64; entry 11). -/
theorem writeSlot_rc_cases (c : Params) (x : Regs) (slot : Slot) (k : Nat) (d : Word) :
    ((writeSlot c x slot k d).rc = x.rc ∧ (writeSlot c x slot k d).skvalid = x.skvalid) ∨
    ((writeSlot c x slot k d).skvalid = false ∧ k < c.limbs ∧ ∃ i j, slot = .rc i j) := by
  cases slot with
  | m | mi | pmod | einv | sk => exact .inl ⟨rfl, rfl⟩
  | v => rw [writeSlot, writeVLimb]; split <;> exact .inl ⟨rfl, rfl⟩
  | rc i j =>
    rw [writeSlot, writeRcLimb]
    split
    next hk => exact .inr ⟨rfl, hk, i, j, rfl⟩
    next => exact .inl ⟨rfl, rfl⟩

/-- A host access writes no register, or CFG, or a limb of a slot; the last two only while BUSY = 0 (R74). -/
theorem hostAccess_regs_cases (a : Access) (s : State) :
    (hostAccess a s).regs = s.regs ∨
    (∃ addr d, a = .write .word addr d ∧ s.busy = false ∧ busTarget s.cfg .word addr = some .cfg ∧
      (hostAccess a s).regs = (s.writeCfg d).regs) ∨
    ∃ addr slot k d, a = .write .word addr d ∧ s.busy = false ∧
      busTarget s.cfg .word addr = some (.limb slot k) ∧
      (hostAccess a s).regs = writeSlot s.cfg s.regs slot k d := by
  obtain ⟨resp, h | ⟨_, d, _, _, h⟩ | ⟨_, _, _, _, _, _, _, h⟩ | ⟨addr, d, ha, hb, hg, h⟩ | ⟨_, d, _, _, _, h⟩ |
    ⟨addr, slot, k, d, ha, hb, hg, h⟩⟩ := hostAccess_cases a s
  · exact .inl (by rw [h])
  · exact .inl (by rw [h]; rfl)
  · exact .inl (by rw [h])
  · exact .inr (.inl ⟨addr, d, ha, hb, hg, by rw [h]⟩)
  · exact .inl (by rw [h]; rfl)
  · exact .inr (.inr ⟨addr, slot, k, d, ha, hb, hg, by rw [h]⟩)

/-- The host can write no matrix, no subkey and not MVALID. -/
theorem hostAccess_keeps_matrices (a : Access) (s : State) :
    (hostAccess a s).regs.m = s.regs.m ∧ (hostAccess a s).regs.mi = s.regs.mi ∧
      (hostAccess a s).regs.sk = s.regs.sk ∧ (hostAccess a s).regs.mvalid = s.regs.mvalid := by
  rcases hostAccess_regs_cases a s with h | ⟨_, d, _, _, _, h⟩ | ⟨_, slot, k, d, _, _, _, h⟩ <;> rw [h]
  · exact ⟨rfl, rfl, rfl, rfl⟩
  · exact ⟨rfl, rfl, rfl, rfl⟩
  · obtain ⟨hm, hmi, hsk, hmv, -⟩ := writeSlot_keeps s.cfg s.regs slot k d
    exact ⟨hm, hmi, hsk, hmv⟩

/-- Where SKVALID = 1 after a host access it was 1 before, and what SK was derived from has not changed
(R37). -/
theorem hostAccess_keeps_schedule {a : Access} {s : State} (h : (hostAccess a s).regs.skvalid = true) :
    s.regs.skvalid = true ∧ (hostAccess a s).regs.rc = s.regs.rc ∧
      (hostAccess a s).regs.rounds = s.regs.rounds := by
  rcases hostAccess_regs_cases a s with e | ⟨_, d, _, _, _, e⟩ | ⟨_, slot, k, d, _, _, _, e⟩ <;> rw [e] at h ⊢
  · exact ⟨h, rfl, rfl⟩
  · rw [writeCfg_regs, Bool.and_eq_true, beq_iff_eq] at h
    exact ⟨h.1, rfl, h.2⟩
  · obtain ⟨-, -, -, -, hrounds⟩ := writeSlot_keeps s.cfg s.regs slot k d
    rcases writeSlot_rc_cases s.cfg s.regs slot k d with ⟨hrc, hskv⟩ | ⟨hskv, -⟩
    · exact ⟨hskv ▸ h, hrc, hrounds⟩
    · simp [hskv] at h

/-! ### The store (R22 to R27, R40) -/

/-- ROUNDS stays legal under a CFG write (R27). -/
theorem nextRounds_legal {rmax : Nat} {old : BitVec 9} (hold : 1 ≤ old.toNat ∧ old.toNat ≤ rmax) (d : Word) :
    1 ≤ (nextRounds rmax old d).toNat ∧ (nextRounds rmax old d).toNat ≤ rmax := by
  by_cases hd : 1 ≤ d.toNat % 2 ^ 9 ∧ d.toNat % 2 ^ 9 ≤ rmax
  · rwa [nextRounds_of_legal old hd]
  · rwa [nextRounds_of_illegal old hd]

theorem inflight_of_not_busy {s : State} (h : s.busy = false) : s.inflight = none := by
  rwa [State.busy, Option.isSome_eq_false_iff, Option.isNone_iff_eq_none] at h

/-- With nothing in flight the snapshot clause is empty. -/
theorem storeOk_of_idle {s : State} (hparams : s.cfg.Valid) (hstore : Memory.wf s.cfg s.regs)
    (hrounds : 1 ≤ s.regs.roundCount ∧ s.regs.roundCount ≤ s.cfg.rmax) (hidle : s.inflight = none) :
    Spec.StoreOk s :=
  ⟨hparams, hstore, hrounds, fun f hf => by simp [hidle] at hf⟩

theorem storeOk_resetTo {s : State} (hc : s.cfg.Valid) (level : Bool) : Spec.StoreOk (resetTo level s) := by
  have ⟨hprime, _, _, _, hrmax, _⟩ := hc
  exact storeOk_of_idle hc (reset_wf hprime.pos) ⟨le_rfl, hrmax⟩ rfl

theorem storeOk_hostAccess {s : State} (hs : Spec.StoreOk s) (a : Access) : Spec.StoreOk (hostAccess a s) := by
  obtain ⟨resp, h | ⟨_, d, _, _, h⟩ | ⟨_, _, _, _, _, _, _, h⟩ | ⟨_, d, _, hb, _, h⟩ | ⟨_, d, _, _, _, h⟩ |
    ⟨_, slot, k, d, _, hb, _, h⟩⟩ := hostAccess_cases a s
  all_goals rw [h]
  · exact ⟨hs.params, hs.store, hs.rounds, hs.snapshot⟩
  · exact ⟨hs.params, hs.store, hs.rounds, hs.snapshot⟩
  · exact ⟨hs.params, hs.store, hs.rounds, hs.snapshot⟩
  · exact storeOk_of_idle hs.params hs.store (nextRounds_legal hs.rounds d) (inflight_of_not_busy hb)
  · exact ⟨hs.params, hs.store, hs.rounds, fun f hf => by obtain rfl := Option.some.inj hf; rfl⟩
  · obtain ⟨-, -, -, -, hrounds⟩ := writeSlot_keeps s.cfg s.regs slot k d
    refine storeOk_of_idle hs.params (writeSlot_wf hs.store slot k d) ?_ (inflight_of_not_busy hb)
    simp only [Regs.roundCount, hrounds]
    exact hs.rounds

theorem storeOk_keptByMoves : KeptByMoves Spec.StoreOk where
  moves _ l hs := storeOk_withMoves hs l
  raised _ _ hs _ _ _ := storeOk_of_idle hs.params hs.store hs.rounds rfl
  committed s _ e hs _ _ _ he := by
    refine storeOk_of_idle hs.params (applyEffect_wf hs.store (effectFacts_canonical hs.params.1.pos he)) ?_ rfl
    simp only [Regs.roundCount, commit_regs, applyEffect_rounds]
    exact hs.rounds
  accessed _ a hs _ _ := storeOk_hostAccess hs a
  reset _ level hs := storeOk_resetTo hs.params level

/-! ### The matrices (R42) -/

/-- The invariant looks at P, M, MI and MVALID only. -/
theorem matrixOk_of_eq {s t : State} (hs : Spec.MatrixOk s) (hcfg : t.cfg = s.cfg) (hm : t.regs.m = s.regs.m)
    (hmi : t.regs.mi = s.regs.mi) (hmv : t.regs.mvalid = s.regs.mvalid) : Spec.MatrixOk t := by
  rw [Spec.MatrixOk, hcfg, hm, hmi, hmv]
  exact hs

/-- MDSGEN's matrices undo each other, and a Cauchy matrix has no zero entry (R151, R158). -/
theorem matrixOk_of_cauchy {s : State} (hc : s.cfg.Valid) {u v : Vec} (hu : Vec.Below s.cfg.p u)
    (hv : Vec.Below s.cfg.p v) (huv : Spec.Cauchy u v) :
    Spec.MatrixOk (s.commit (.writeMatrices (cauchy s.cfg.p u v) (minv s.cfg.p (cauchy s.cfg.p u v)))) := by
  have hdet := det_cauchy_ne_zero hc.1 hu hv huv
  exact fun _ => ⟨fun w hw => ⟨matvec_matvec (mul_minv hc.1 _ hdet) hw, matvec_matvec (minv_mul hc.1 _ hdet) hw⟩,
    cauchy_ne_zero hc hu hv huv⟩

theorem matrixOk_keptByMoves : KeptByMoves Spec.MatrixOk where
  moves _ _ hs := hs
  raised _ _ _ hs _ _ := hs
  committed s _ e hstore hs _ _ he := by
    rcases effectFacts_cases he with rfl | ⟨rd, r, rfl⟩ | ⟨u, v, hu, hv, huv, rfl⟩ |
      ⟨key, -, -, -, rfl | ⟨rd, r, rfl⟩⟩
    · exact matrixOk_of_eq hs rfl rfl rfl rfl
    · exact matrixOk_of_eq hs rfl rfl rfl rfl
    · exact matrixOk_of_cauchy hstore.params hu hv huv
    · exact matrixOk_of_eq hs rfl rfl rfl rfl
    · exact matrixOk_of_eq hs rfl rfl rfl rfl
  accessed s a _ hs _ := by
    obtain ⟨hcfg, -, -⟩ := hostAccess_keeps a s
    obtain ⟨hm, hmi, -, hmv⟩ := hostAccess_keeps_matrices a s
    exact matrixOk_of_eq hs hcfg hm hmi hmv
  reset _ _ _ := fun hmv => by simp [Regs.reset] at hmv

/-! ### The subkeys (R43) -/

/-- The derived table looks at M, RC and ROUNDS only. -/
theorem subkeyTable_of_eq {c : Params} {x y : Regs} (hm : y.m = x.m) (hrc : y.rc = x.rc)
    (hrounds : y.rounds = x.rounds) (key : Vec) : Spec.subkeyTable c y key = Spec.subkeyTable c x key := by
  rw [Spec.subkeyTable, Spec.subkeyTable, Regs.roundCount, Regs.roundCount, hm, hrc, hrounds]

/-- The invariant is kept where SKVALID is not set and, while it is 1, nothing that SK depends on changes. -/
theorem subkeysOk_of_eq {s t : State} (hs : Spec.SubkeysOk s) (hcfg : t.cfg = s.cfg)
    (h : t.regs.skvalid = true → s.regs.skvalid = true ∧ t.regs.m = s.regs.m ∧ t.regs.rc = s.regs.rc ∧
      t.regs.rounds = s.regs.rounds ∧ t.regs.sk = s.regs.sk) : Spec.SubkeysOk t := by
  intro hskv
  obtain ⟨hskv, hm, hrc, hrounds, hsk⟩ := h hskv
  obtain ⟨hbelow, hrows, key, hkey, htable⟩ := hs hskv
  refine ⟨?_, ?_, key, ?_, ?_⟩
  · rwa [hcfg, hm]
  · rwa [hcfg, Regs.roundCount, hrounds, hrc]
  · rwa [hcfg]
  · rw [hsk, htable, hcfg, subkeyTable_of_eq hm hrc hrounds]

/-- A fresh derivation makes SK the table of its key, and the matrices and rows it used stay (R192, R199). -/
theorem subkeysOk_of_derived {s t : State} {key : Vec} (hstore : Spec.StoreOk s) (hkey : Vec.Below s.cfg.p key)
    (hrows : Spec.RowsCanonical s.cfg s.regs) (hcfg : t.cfg = s.cfg) (hm : t.regs.m = s.regs.m)
    (hrc : t.regs.rc = s.regs.rc) (hrounds : t.regs.rounds = s.regs.rounds)
    (hsk : t.regs.sk = Spec.subkeyTable s.cfg s.regs key) : Spec.SubkeysOk t := by
  obtain ⟨-, -, -, -, -, hbelow, -⟩ := hstore.store
  refine fun _ => ⟨?_, ?_, key, ?_, ?_⟩
  · rwa [hcfg, hm]
  · rwa [hcfg, Regs.roundCount, hrounds, hrc]
  · rwa [hcfg]
  · rw [hsk, hcfg, subkeyTable_of_eq hm hrc hrounds]

theorem subkeysOk_keptByMoves : KeptByMoves Spec.SubkeysOk where
  moves _ _ hs := hs
  raised _ _ _ hs _ _ := hs
  committed s _ e hstore hs _ _ he := by
    rcases effectFacts_cases he with rfl | ⟨rd, r, rfl⟩ | ⟨u, v, -, -, -, rfl⟩ |
      ⟨key, -, hkey, hrows, rfl | ⟨rd, r, rfl⟩⟩
    · exact subkeysOk_of_eq hs rfl fun hskv => ⟨hskv, rfl, rfl, rfl, rfl⟩
    · exact subkeysOk_of_eq hs rfl fun hskv => ⟨hskv, rfl, rfl, rfl, rfl⟩
    · exact fun hskv => by cases hskv
    · exact subkeysOk_of_derived hstore hkey hrows rfl rfl rfl rfl rfl
    · exact subkeysOk_of_derived hstore hkey hrows rfl rfl rfl rfl rfl
  accessed s a _ hs _ := by
    obtain ⟨hcfg, -, -⟩ := hostAccess_keeps a s
    obtain ⟨hm, -, hsk, -⟩ := hostAccess_keeps_matrices a s
    refine subkeysOk_of_eq hs hcfg fun hskv => ?_
    obtain ⟨hskv, hrc, hrounds⟩ := hostAccess_keeps_schedule hskv
    exact ⟨hskv, hm, hrc, hrounds, hsk⟩
  reset _ _ _ := fun hskv => by simp [Regs.reset] at hskv

/-! ### The status fields (R28, R35, R37 to R39, R242, R244, R245, R270) -/

theorem code_le_nine (c : ErrCode) : c.code.toNat ≤ 9 := by
  cases c <;> decide

/-- While reset is asserted nothing is in flight. -/
theorem not_inReset_of_busy {s : State} (hs : Spec.StatusOk s) (hb : s.busy = true) : s.inReset = false := by
  refine Bool.eq_false_iff.mpr fun hreset => ?_
  rw [hs.inReset hreset] at hb
  cases hb

theorem statusOk_resetTo (s : State) (level : Bool) : Spec.StatusOk (resetTo level s) where
  codes := Nat.zero_le _
  busyNotDone _ := rfl
  cmdreg _ hf := by cases hf
  skvalid hskv := by cases hskv
  fatal hfatal := by cases hfatal
  inReset hreset := by
    obtain rfl : level = true := hreset
    rfl

/-- FATAL is 1 after a raise only with CONSTRAINT, or with LOCKED where it was 1 before. -/
theorem statusOk_raise {s : State} (hs : Spec.StatusOk s) (hb : s.busy = true) {c : ErrCode}
    (hlocked : s.fatal = true → c = .locked) : Spec.StatusOk (s.raise c) where
  codes := code_le_nine c
  busyNotDone h := by cases h
  cmdreg _ hf := by cases hf
  skvalid := hs.skvalid
  fatal hfatal := by
    rw [raise_fatal, Bool.or_eq_true, beq_iff_eq] at hfatal
    rcases hfatal with hfatal | rfl
    · rw [hlocked hfatal]; exact .inr rfl
    · exact .inl rfl
  inReset hreset := by
    rw [raise_inReset, not_inReset_of_busy hs hb] at hreset
    cases hreset

theorem statusOk_commit {s : State} (hs : Spec.StatusOk s) (hb : s.busy = true) (hfatal : s.fatal = false)
    {e : Effect} (hskv : (applyEffect e s.regs).skvalid = true → (applyEffect e s.regs).mvalid = true) :
    Spec.StatusOk (s.commit e) where
  codes := Nat.zero_le _
  busyNotDone h := by cases h
  cmdreg _ hf := by cases hf
  skvalid := hskv
  fatal h := by
    rw [commit_fatal, hfatal] at h
    cases h
  inReset hreset := by
    rw [commit_inReset, not_inReset_of_busy hs hb] at hreset
    cases hreset

/-- A host access keeps ERRCODE and FATAL, and where it sets BUSY it clears DONE and writes CMDREG. -/
theorem statusOk_hostAccess {s : State} (hs : Spec.StatusOk s) (hreset : s.inReset = false) (a : Access) :
    Spec.StatusOk (hostAccess a s) := by
  have hskv : (hostAccess a s).regs.skvalid = true → (hostAccess a s).regs.mvalid = true := fun h => by
    obtain ⟨-, -, -, hmv⟩ := hostAccess_keeps_matrices a s
    rw [hmv]
    exact hs.skvalid (hostAccess_keeps_schedule h).1
  have hnot : (hostAccess a s).inReset = true → hostAccess a s =
      { State.resetWith (hostAccess a s).cfg with
        inReset := true, inputs := (hostAccess a s).inputs } := fun h => by
    obtain ⟨-, hkeeps, -⟩ := hostAccess_keeps a s
    rw [hkeeps, hreset] at h
    cases h
  obtain ⟨resp, h | ⟨_, d, _, _, h⟩ | ⟨_, _, _, _, _, _, _, h⟩ | ⟨_, d, _, _, _, h⟩ | ⟨_, d, _, _, _, h⟩ |
    ⟨_, slot, k, d, _, _, _, h⟩⟩ := hostAccess_cases a s
  all_goals rw [h] at hskv hnot ⊢
  · exact ⟨hs.codes, hs.busyNotDone, hs.cmdreg, hskv, hs.fatal, hnot⟩
  · exact ⟨hs.codes, fun hb => by simp [hs.busyNotDone hb], hs.cmdreg, hskv, hs.fatal, hnot⟩
  · exact ⟨hs.codes, hs.busyNotDone, hs.cmdreg, hskv, hs.fatal, hnot⟩
  · exact ⟨hs.codes, hs.busyNotDone, hs.cmdreg, hskv, hs.fatal, hnot⟩
  · exact ⟨hs.codes, fun _ => rfl, fun f hf => by obtain rfl := Option.some.inj hf; rfl, hskv, hs.fatal, hnot⟩
  · exact ⟨hs.codes, hs.busyNotDone, hs.cmdreg, hskv, hs.fatal, hnot⟩

theorem statusOk_keptByMoves : KeptByMoves Spec.StatusOk where
  moves s l hs := ⟨hs.codes, hs.busyNotDone, hs.cmdreg, hs.skvalid, hs.fatal, fun hreset =>
    congrArg (withMoves · l) (hs.inReset hreset)⟩
  raised _ _ _ hs hb hlocked := statusOk_raise hs hb hlocked
  committed s _ e _ hs hb hfatal he := by
    refine statusOk_commit hs hb hfatal ?_
    rcases effectFacts_cases he with rfl | ⟨rd, r, rfl⟩ | ⟨u, v, -, -, -, rfl⟩ |
      ⟨key, hmv, -, -, rfl | ⟨rd, r, rfl⟩⟩
    · exact hs.skvalid
    · exact hs.skvalid
    · exact fun _ => rfl
    · exact fun _ => hmv
    · exact fun _ => hmv
  accessed _ a _ hs hreset := statusOk_hostAccess hs hreset a
  reset s level _ := statusOk_resetTo s level

/-! ### The statements -/

/-- Settles O33: the state after reset is what a release of the reset input leaves. -/
theorem resetMeetsInvariants : Obligations.ResetMeetsInvariants := by
  have hstore : Spec.StoreOk State.reset := storeOk_resetTo (s := State.reset) Config.params_valid false
  exact ⟨hstore, matrixOk_keptByMoves.reset State.reset false hstore,
    subkeysOk_keptByMoves.reset State.reset false hstore, statusOk_resetTo State.reset false⟩

/-- Settles O34: commands write canonical values and the host writes W-bit ones; registers change only while
nothing is in flight. -/
theorem stepKeepsStore : Obligations.StepKeepsStore :=
  fun _ _ hs => storeOk_keptByMoves.step hs hs

/-- Settles O35: only MDSGEN writes the matrices, and it writes a Cauchy matrix and its inverse. -/
theorem stepKeepsMatrixInverse : Obligations.StepKeepsMatrixInverse :=
  fun _ _ hstore hs => matrixOk_keptByMoves.step hstore hs

/-- Settles O36: SKVALID is set only by a fresh derivation, and falls with every change of what SK depends on. -/
theorem stepKeepsSubkeysConsistent : Obligations.StepKeepsSubkeysConsistent :=
  fun _ _ hstore hs => subkeysOk_keptByMoves.step hstore hs

/-- Settles O37: a completion needs a command in flight, which reset excludes. -/
theorem stepKeepsStatusDiscipline : Obligations.StepKeepsStatusDiscipline :=
  fun _ _ hstore hs => statusOk_keptByMoves.step hstore hs

end Sys2Proof.Proofs
end

