-- ==== Sys2Proof/Proofs/Transitions.lean ====
section
/-! Who writes the registers and flags that outlive a command (10_state.md R25, R26, R35, R37, R38): one lemma
says how a step can change the registers, and the transitions of MVALID, SKVALID, M, MI and SK follow. -/

namespace Sys2Proof.Proofs

open Sys2Proof.Machine Sys2Proof.Laws

/-! ### The ways a step writes the registers -/

/-- The next move is a change of the reset input (R270; entry 13). -/
def ResetMove (s : State) : Prop := ∃ rest, s.inputs = .assertReset :: rest ∨ s.inputs = .releaseReset :: rest

/-- The next move is a host write of the word `g` while BUSY = 0. -/
def IdleWrite (s : State) (addr : BitVec 18) (g : Target) (d : Word) : Prop :=
  (∃ rest, s.inputs = .access (.write .word addr d) :: rest) ∧ s.busy = false ∧
    busTarget s.cfg .word addr = some g

/-- A step from `s` to `t` completes the command `i` with ERRCODE = 0. -/
def Succeeds (s t : State) (i : Instr) : Prop :=
  ∃ f, s.inflight = some f ∧ decode f.cmd = .ok i ∧ t.errcode = 0x00#8

/-- The registers change by a reset, a successful command, a CFG write or a limb write, or not at all. -/
theorem step_regs_cases {s t : State} (h : step s = .next t) :
    t.regs = s.regs ∨
    (ResetMove s ∧ t.regs = Regs.reset s.cfg) ∨
    (∃ i e, Succeeds s t i ∧ EffectShape i e ∧ t.regs = applyEffect e s.regs) ∨
    (∃ addr d, IdleWrite s addr .cfg d ∧ t.regs = (s.writeCfg d).regs) ∨
    ∃ addr slot k d, IdleWrite s addr (.limb slot k) d ∧ t.regs = writeSlot s.cfg s.regs slot k d := by
  rcases step_cases h with ⟨-, rfl⟩ | ⟨f, i, hf, hi, hexec⟩ | ⟨f, e, -, -, rfl⟩ | ⟨a, rest, hin, -, rfl⟩ |
    ⟨level, rest, hin, rfl⟩
  · exact .inl rfl
  · rcases exec_shape hexec with ⟨c, rfl⟩ | ⟨e, he, rfl⟩
    · exact .inl rfl
    · exact .inr (.inr (.inl ⟨i, e, ⟨f, hf, hi, rfl⟩, he, rfl⟩))
  · exact .inl rfl
  · rcases hostAccess_regs_cases a (withMoves s s.inputs.tail) with he | ⟨addr, d, rfl, hb, hg, he⟩ |
      ⟨addr, slot, k, d, rfl, hb, hg, he⟩
    · exact .inl he
    · exact .inr (.inr (.inr (.inl ⟨addr, d, ⟨⟨rest, hin⟩, hb, hg⟩, he⟩)))
    · exact .inr (.inr (.inr (.inr ⟨addr, slot, k, d, ⟨⟨rest, hin⟩, hb, hg⟩, he⟩)))
  · exact .inr (.inl ⟨⟨rest, hin⟩, rfl⟩)

/-! ### Effects and the commands that have them (R100) -/

theorem mdsgen_of_writeMatrices {i : Instr} {a b : Mat} (h : EffectShape i (.writeMatrices a b)) :
    ∃ rs1 rs2, i = .mdsgen rs1 rs2 := by
  cases i with
  | mdsgen rs1 rs2 => exact ⟨rs1, rs2, rfl⟩
  | _ => simp [EffectShape] at h

/-- KSCHED, ENC or DEC: the commands that derive subkeys. -/
def DerivesSubkeys (i : Instr) : Prop :=
  (∃ rs1, i = .ksched rs1) ∨ (∃ rd rs1 rs2, i = .enc rd rs1 rs2) ∨ ∃ rd rs1 rs2, i = .dec rd rs1 rs2

/-- The effect leaves SK alone and does not set SKVALID, or the command derives subkeys. -/
theorem effect_subkeys_cases {i : Instr} {e : Effect} (h : EffectShape i e) (x : Regs) :
    ((applyEffect e x).sk = x.sk ∧ ((applyEffect e x).skvalid = true → x.skvalid = true)) ∨
      DerivesSubkeys i := by
  cases e with
  | nothing | writeV => exact .inl ⟨rfl, id⟩
  | writeMatrices => exact .inl ⟨rfl, fun hskv => by cases hskv⟩
  | writeSubkeys t =>
    cases i with
    | ksched rs1 => exact .inr (.inl ⟨rs1, rfl⟩)
    | _ => simp [EffectShape] at h
  | writeBoth rd r t =>
    cases i with
    | enc rd rs1 rs2 => exact .inr (.inr (.inl ⟨rd, rs1, rs2, rfl⟩))
    | dec rd rs1 rs2 => exact .inr (.inr (.inr ⟨rd, rs1, rs2, rfl⟩))
    | _ => simp [EffectShape] at h

/-- The effect leaves M, MI and MVALID alone and does not clear SKVALID, or the command is MDSGEN, which sets
MVALID. -/
theorem effect_matrices_cases {i : Instr} {e : Effect} (h : EffectShape i e) (x : Regs) :
    ((applyEffect e x).m = x.m ∧ (applyEffect e x).mi = x.mi ∧ (applyEffect e x).mvalid = x.mvalid ∧
      (x.skvalid = true → (applyEffect e x).skvalid = true)) ∨
    ((∃ rs1 rs2, i = .mdsgen rs1 rs2) ∧ (applyEffect e x).mvalid = true) := by
  cases e with
  | writeMatrices a b => exact .inr ⟨mdsgen_of_writeMatrices h, rfl⟩
  | nothing | writeV => exact .inl ⟨rfl, rfl, rfl, id⟩
  | writeSubkeys | writeBoth => exact .inl ⟨rfl, rfl, rfl, fun _ => rfl⟩

/-! ### The transitions -/

/-- M, MI and MVALID over a step. -/
theorem step_matrices_cases {s t : State} (h : step s = .next t) :
    (t.regs.m = s.regs.m ∧ t.regs.mi = s.regs.mi ∧ t.regs.mvalid = s.regs.mvalid) ∨
    (ResetMove s ∧ t.regs.mvalid = false) ∨
    ∃ rs1 rs2, Succeeds s t (.mdsgen rs1 rs2) ∧ t.regs.mvalid = true := by
  rcases step_regs_cases h with e | ⟨hreset, e⟩ | ⟨i, eff, hs, heff, e⟩ | ⟨_, d, -, e⟩ | ⟨_, slot, k, d, -, e⟩ <;>
    rw [e]
  · exact .inl ⟨rfl, rfl, rfl⟩
  · exact .inr (.inl ⟨hreset, rfl⟩)
  · rcases effect_matrices_cases heff s.regs with ⟨hm, hmi, hmv, -⟩ | ⟨⟨rs1, rs2, rfl⟩, hmv⟩
    · exact .inl ⟨hm, hmi, hmv⟩
    · exact .inr (.inr ⟨rs1, rs2, hs, hmv⟩)
  · exact .inl ⟨rfl, rfl, rfl⟩
  · obtain ⟨hm, hmi, -, hmv, -⟩ := writeSlot_keeps s.cfg s.regs slot k d
    exact .inl ⟨hm, hmi, hmv⟩

/-- SK, and SKVALID rising, over a step. -/
theorem step_subkeys_cases {s t : State} (h : step s = .next t) :
    (t.regs.sk = s.regs.sk ∧ (t.regs.skvalid = true → s.regs.skvalid = true)) ∨
    (ResetMove s ∧ t.regs.skvalid = false) ∨
    ∃ i, Succeeds s t i ∧ DerivesSubkeys i := by
  rcases step_regs_cases h with e | ⟨hreset, e⟩ | ⟨i, eff, hs, heff, e⟩ | ⟨_, d, -, e⟩ | ⟨_, slot, k, d, -, e⟩ <;>
    rw [e]
  · exact .inl ⟨rfl, id⟩
  · exact .inr (.inl ⟨hreset, rfl⟩)
  · rcases effect_subkeys_cases heff s.regs with hkeep | hi
    · exact .inl hkeep
    · exact .inr (.inr ⟨i, hs, hi⟩)
  · refine .inl ⟨rfl, fun hskv => ?_⟩
    rw [writeCfg_regs, Bool.and_eq_true] at hskv
    exact hskv.1
  · obtain ⟨-, -, hsk, -, -⟩ := writeSlot_keeps s.cfg s.regs slot k d
    refine .inl ⟨hsk, fun hskv => ?_⟩
    rcases writeSlot_rc_cases s.cfg s.regs slot k d with ⟨-, hkeep⟩ | ⟨hfalse, -⟩
    · exact hkeep ▸ hskv
    · simp [hfalse] at hskv

/-- The ways SKVALID falls (R37): MDSGEN, a limb of RC with storage, a new ROUNDS, or reset. -/
theorem step_skvalid_falls {s t : State} (h : step s = .next t) (hs : s.regs.skvalid = true)
    (ht : t.regs.skvalid = false) :
    (∃ rs1 rs2, Succeeds s t (.mdsgen rs1 rs2)) ∨
    (∃ addr d i j k, IdleWrite s addr (.limb (.rc i j) k) d ∧ k < s.cfg.limbs) ∨
    (∃ addr d, IdleWrite s addr .cfg d ∧ t.regs.rounds ≠ s.regs.rounds) ∨
    ResetMove s := by
  rcases step_regs_cases h with e | ⟨hreset, e⟩ | ⟨i, eff, hsucc, heff, e⟩ | ⟨addr, d, hw, e⟩ |
    ⟨addr, slot, k, d, hw, e⟩
  · rw [e, hs] at ht
    cases ht
  · exact .inr (.inr (.inr hreset))
  · rcases effect_matrices_cases heff s.regs with ⟨-, -, -, hkeep⟩ | ⟨⟨rs1, rs2, rfl⟩, -⟩
    · rw [e, hkeep hs] at ht
      cases ht
    · exact .inl ⟨rs1, rs2, hsucc⟩
  · have hne : nextRounds s.cfg.rmax s.regs.rounds d ≠ s.regs.rounds := by
      rw [e, writeCfg_regs] at ht
      simpa [hs] using ht
    exact .inr (.inr (.inl ⟨addr, d, hw, by rw [e]; exact hne⟩))
  · rcases writeSlot_rc_cases s.cfg s.regs slot k d with ⟨-, hkeep⟩ | ⟨-, hk, i, j, rfl⟩
    · rw [e, hkeep, hs] at ht
      cases ht
    · exact .inr (.inl ⟨addr, d, i, j, k, hw, hk⟩)

/-- FATAL over a step: only a raise of CONSTRAINT sets it, only reset clears it (R38). -/
theorem step_fatal_cases {s t : State} (h : step s = .next t) :
    t.fatal = s.fatal ∨ (ResetMove s ∧ t.fatal = false) ∨ (t.fatal = true ∧ t.errcode = 0x08#8) := by
  have hraise (u : State) (c : ErrCode) :
      (u.raise c).fatal = u.fatal ∨ ((u.raise c).fatal = true ∧ (u.raise c).errcode = 0x08#8) := by
    by_cases hc : c = .constraint
    · subst hc; exact .inr ⟨Bool.or_true _, rfl⟩
    · exact .inl (by simp [hc])
  rcases step_cases h with ⟨-, rfl⟩ | ⟨f, i, hf, hi, hexec⟩ | ⟨f, e, -, -, rfl⟩ | ⟨a, rest, hin, -, rfl⟩ |
    ⟨level, rest, hin, rfl⟩
  · exact .inl rfl
  · rcases exec_shape hexec with ⟨c, rfl⟩ | ⟨e, -, rfl⟩
    · exact (hraise _ c).imp_right .inr
    · exact .inl rfl
  · exact (hraise (withMoves s s.inputs.tail) _).imp_right .inr
  · left
    obtain ⟨resp, e | ⟨_, _, _, _, e⟩ | ⟨_, _, _, _, _, _, _, e⟩ | ⟨_, _, _, _, _, e⟩ | ⟨_, _, _, _, _, e⟩ |
      ⟨_, _, _, _, _, _, _, e⟩⟩ := hostAccess_cases a (withMoves s s.inputs.tail)
    all_goals exact (congrArg State.fatal e).trans rfl
  · exact .inr (.inl ⟨⟨rest, hin⟩, rfl⟩)

/-- The one address of CFG (R66). -/
theorem address_of_busTarget_cfg {c : Params} {a : BitVec 18} (h : busTarget c .word a = some .cfg) :
    a = 0x00008#18 := by
  unfold busTarget at h
  split at h
  next hok =>
    obtain ⟨-, haligned⟩ := hok
    unfold target at h
    split at h
    next =>
      split at h
      case h_3 hrow => exact BitVec.eq_of_toNat_eq (show a.toNat = 8 by omega)
      all_goals cases h
    next => split_ifs at h <;> cases h
  next => cases h

/-! ### The statements -/

/-- Settles O38: a raise of CONSTRAINT and a successful MDSGEN are the only moves that set these bits. -/
theorem fatalAndMvalidTransitions : Obligations.FatalAndMvalidTransitions := by
  intro s t h
  refine ⟨?clears, fun hs ht => ?setsFatal, fun hs ht => ?setsMvalid⟩
  case clears =>
    rintro (⟨hs, ht⟩ | ⟨hs, ht⟩)
    · rcases step_fatal_cases h with e | ⟨hreset, -⟩ | ⟨htrue, -⟩
      · simp [hs, ht] at e
      · exact hreset
      · simp [ht] at htrue
    · rcases step_matrices_cases h with ⟨-, -, e⟩ | ⟨hreset, -⟩ | ⟨_, _, -, htrue⟩
      · simp [hs, ht] at e
      · exact hreset
      · simp [ht] at htrue
  case setsFatal =>
    rcases step_fatal_cases h with e | ⟨-, hfalse⟩ | ⟨-, hcode⟩
    · simp [hs, ht] at e
    · simp [ht] at hfalse
    · exact hcode
  case setsMvalid =>
    rcases step_matrices_cases h with ⟨-, -, e⟩ | ⟨-, hfalse⟩ | ⟨rs1, rs2, ⟨f, hf, hi, hcode⟩, -⟩
    · simp [hs, ht] at e
    · simp [ht] at hfalse
    · exact ⟨f, rs1, rs2, hf, hi, hcode⟩

/-- Settles O39: every other way a step writes the registers leaves M, MI and SK alone. -/
theorem matricesAndSubkeysHaveOneWriter : Obligations.MatricesAndSubkeysHaveOneWriter := by
  refine fun s t h => ⟨fun hne => ?matrices, fun hne => ?subkeys⟩
  case matrices =>
    rcases step_matrices_cases h with ⟨hm, hmi, -⟩ | ⟨hreset, -⟩ | ⟨rs1, rs2, ⟨f, hf, hi, hcode⟩, -⟩
    · exact (hne.elim (· hm) (· hmi)).elim
    · exact .inl hreset
    · exact .inr ⟨f, rs1, rs2, hf, hi, hcode⟩
  case subkeys =>
    rcases step_subkeys_cases h with ⟨hsk, -⟩ | ⟨hreset, -⟩ | ⟨i, ⟨f, hf, hi, hcode⟩, hderives⟩
    · exact (hne hsk).elim
    · exact .inl hreset
    · exact .inr ⟨f, i, hf, hi, hcode, hderives⟩

/-- Settles O40: SKVALID rises only with a new SK, and falls only with a change of what SK depends on. -/
theorem skvalidTransitions : Obligations.SkvalidTransitions := by
  refine fun s t h => ⟨fun hs ht => ?rises, fun hs ht => ?falls⟩
  case rises =>
    rcases step_subkeys_cases h with ⟨-, hkeep⟩ | ⟨-, hfalse⟩ | ⟨i, ⟨f, hf, hi, hcode⟩, hderives⟩
    · exact absurd (hkeep ht) (by simp [hs])
    · simp [ht] at hfalse
    · exact ⟨f, i, hf, hi, hcode, hderives⟩
  case falls =>
    rcases step_skvalid_falls h hs ht with ⟨rs1, rs2, f, hf, hi, hcode⟩ |
      ⟨a, d, i, j, k, ⟨⟨rest, hin⟩, hb, hg⟩, hk⟩ | ⟨a, d, ⟨⟨rest, hin⟩, hb, hg⟩, hrounds⟩ | hreset
    · exact .inl ⟨f, rs1, rs2, hf, hi, hcode⟩
    · exact .inr (.inl ⟨a, d, rest, i, j, k, hin, hb, hg, hk⟩)
    · obtain rfl := address_of_busTarget_cfg hg
      exact .inr (.inr (.inl ⟨d, rest, hin, hb, hrounds⟩))
    · exact .inr (.inr (.inr hreset))

end Sys2Proof.Proofs
end

