-- ==== Sys2Proof/Proofs/FramesThroughWindow.lean ====
section
/-! What a command and a host write leave unchanged, as the host sees it (20_memory.md R64, R65, 30_encoding.md
R100): a command's effect touches the slots of its own column only, and a limb write touches one limb. -/

namespace Sys2Proof.Proofs

open Sys2Proof.Machine Sys2Proof.Laws

/-! ### Commands (R100) -/

/-- The element slots an effect may write. -/
def EffectWritesSlot : Effect → Slot → Prop
  | .nothing, _ => False
  | .writeV rd _, slot => ∃ j, slot = .v rd j
  | .writeMatrices _ _, slot => ∃ i j, slot = .m i j ∨ slot = .mi i j
  | .writeSubkeys _, slot => ∃ i j, slot = .sk i j
  | .writeBoth rd _ _, slot => (∃ j, slot = .v rd j) ∨ ∃ i j, slot = .sk i j

/-- An effect of a command's form writes slots of the command's column only. -/
theorem writesSlot_of_effect {i : Instr} {e : Effect} {slot : Slot} (h : EffectShape i e)
    (hw : EffectWritesSlot e slot) : Spec.writesSlot i slot := by
  cases i with
  | nop => obtain rfl := h; exact hw
  | mdsgen => obtain ⟨_, _, rfl⟩ := h; exact hw
  | ksched => obtain ⟨_, rfl⟩ := h; exact hw
  | enc | dec => obtain ⟨_, _, rfl⟩ := h; exact hw
  | vadd | vsub | vmul | vmov | vdot | sbox | isbox | mds | imds | addrc | addsk | subsk | krnd | ernd | drnd =>
    obtain ⟨_, rfl⟩ := h; exact hw

/-- A write of `V[rd]` leaves the slots of the other registers. -/
theorem get_set_v {x : Vector Vec 16} {rd r : VReg} {j : Lane} (h : ¬ ∃ l, Slot.v r j = .v rd l) (u : Vec) :
    (x.set rd u)[r].get j = x[r].get j := by
  rw [getElem_set_v, if_neg fun hr => h ⟨j, by rw [hr]⟩]

/-- An effect leaves the slots that it does not write. -/
theorem slotElem_applyEffect {e : Effect} {slot : Slot} (h : ¬ EffectWritesSlot e slot) (c : Params) (x : Regs) :
    slotElem c (applyEffect e x) slot = slotElem c x slot := by
  cases e with
  | nothing => rfl
  | writeV rd u =>
    cases slot with
    | v r j => exact get_set_v h u
    | m | mi | pmod | einv | rc | sk => rfl
  | writeMatrices a b =>
    cases slot with
    | m i j => exact (h ⟨i, j, .inl rfl⟩).elim
    | mi i j => exact (h ⟨i, j, .inr rfl⟩).elim
    | v | pmod | einv | rc | sk => rfl
  | writeSubkeys t =>
    cases slot with
    | sk i j => exact (h ⟨i, j, rfl⟩).elim
    | v | m | mi | pmod | einv | rc => rfl
  | writeBoth rd u t =>
    cases slot with
    | v r j => exact get_set_v (fun hv => h (.inl hv)) u
    | sk i j => exact (h (.inr ⟨i, j, rfl⟩)).elim
    | m | mi | pmod | einv | rc => rfl

/-- What a read of a word other than STATUS and ERRCODE depends on. -/
theorem readTarget_congr {s t : State} (hcfg : t.cfg = s.cfg) (hie : t.ie = s.ie)
    (hrounds : t.regs.rounds = s.regs.rounds) (hcmdreg : t.cmdreg = s.cmdreg) {g : Target} (hst : g ≠ .status)
    (herr : g ≠ .errcode)
    (hslot : ∀ slot k, g = .limb slot k → slotElem s.cfg t.regs slot = slotElem s.cfg s.regs slot) :
    readTarget t g = readTarget s g := by
  cases g with
  | id => rfl
  | cap => rw [readTarget, readTarget, hcfg]
  | cfg => rw [readTarget, readTarget, State.cfgWord, State.cfgWord, hie, hrounds]
  | cmd => exact hcmdreg
  | status => exact absurd rfl hst
  | errcode => exact absurd rfl herr
  | limb slot k => rw [readTarget, readTarget, hcfg, hslot slot k rfl]

/-! ### Limb writes (R64) -/

/-- Replacing element `j` of `V[r]` leaves every other element of V. -/
theorem get_setV_set_of_ne (x : Regs) {q r : VReg} {l j : Lane} (h : Slot.v q l ≠ .v r j) (e : Elem) :
    ((x.setV r (x.v[r].set j e)).v[q]).get l = x.v[q].get l := by
  by_cases hr : q = r
  · subst hr
    rw [getElem_setV_self, Vec.get_set, if_neg fun hl => h (by rw [hl])]
  · rw [getElem_setV_of_ne x _ hr]

/-- Replacing element `j` of row `i` of a table leaves every other element of it. -/
theorem get_tableRow_set_of_ne (t : List Vec) {q i : Nat} {l j : Lane} (hi : i < t.length)
    (h : Slot.rc q l ≠ .rc i j) (e : Elem) :
    (tableRow (t.set i ((tableRow t i).set j e)) q).get l = (tableRow t q).get l := by
  rw [tableRow_set _ _ _ hi]
  split
  next hq =>
    subst hq
    rw [Vec.get_set, if_neg fun hl => h (by rw [hl])]
  next => rfl

section LimbWrites

variable {c : Params} {x : Regs} {k : Nat}

theorem writeSlot_of_limbs_le (hk : c.limbs ≤ k) (x : Regs) (slot : Slot) (d : Word) :
    writeSlot c x slot k d = x := by
  cases slot with
  | m | mi | pmod | einv | sk => rfl
  | v | rc => exact if_neg hk.not_gt

/-- The slot that is written. -/
theorem slotElem_writeSlot_self {slot : Slot} (hk : k < c.limbs) (hrc : x.rc.length = c.rmax)
    (hslot : Spec.SlotExists c slot) (hro : ¬ Spec.ReadOnlySlot slot) (d : Word) :
    slotElem c (writeSlot c x slot k d) slot = setLimb c (slotElem c x slot) k d := by
  cases slot with
  | m | mi | pmod | einv | sk => exact (hro trivial).elim
  | v r j => simp [writeSlot, writeVLimb, hk, slotElem]
  | rc i j =>
    have hi : i < x.rc.length := hrc ▸ hslot
    simp [writeSlot, writeRcLimb, hk, slotElem, tableRow_set _ _ _ hi]

/-- Every other slot. -/
theorem slotElem_writeSlot_of_ne {slot other : Slot} (hrc : x.rc.length = c.rmax)
    (hslot : Spec.SlotExists c slot) (hne : other ≠ slot) (d : Word) :
    slotElem c (writeSlot c x slot k d) other = slotElem c x other := by
  cases slot with
  | m | mi | pmod | einv | sk => rfl
  | v r j =>
    rw [writeSlot, writeVLimb]
    split
    next =>
      cases other with
      | v q l => exact get_setV_set_of_ne x hne _
      | m | mi | pmod | einv | rc | sk => rfl
    next => rfl
  | rc i j =>
    rw [writeSlot, writeRcLimb]
    split
    next =>
      cases other with
      | rc q l => exact get_tableRow_set_of_ne x.rc (hrc ▸ hslot) hne _
      | v | m | mi | pmod | einv | sk => rfl
    next => rfl

/-- SKVALID after a limb write with storage: cleared on an RC slot, kept on a V slot (R37). -/
theorem writeSlot_skvalid (hk : k < c.limbs) (x : Regs) (slot : Slot) (d : Word) :
    (∀ i j, slot = .rc i j → (writeSlot c x slot k d).skvalid = false) ∧
      ∀ r j, slot = .v r j → (writeSlot c x slot k d).skvalid = x.skvalid := by
  refine ⟨?_, ?_⟩
  · rintro i j rfl; simp [writeSlot, writeRcLimb, hk]
  · rintro r j rfl; simp [writeSlot, writeVLimb, hk]

end LimbWrites

/-- A limb write while BUSY = 0 (R64). -/
theorem hostAccess_limb {s : State} {a : BitVec 18} {slot : Slot} {k : Nat} (hb : s.busy = false)
    (hg : busTarget s.cfg .word a = some (.limb slot k)) (d : Word) :
    hostAccess (.write .word a d) s =
      { s with regs := writeSlot s.cfg s.regs slot k d, resp := some .writeOkay } := by
  rw [hostAccess_write d hg, writeTarget, hb]
  rfl

theorem slotExists_of_busTarget {c : Params} {a : BitVec 18} {slot : Slot} {k : Nat}
    (h : busTarget c .word a = some (.limb slot k)) : Spec.SlotExists c slot := by
  unfold busTarget at h
  split at h
  next hok => exact (address_of_target_limb hok.2 h).1
  next => cases h

/-! ### The statements -/

/-- Settles O31: a raise writes no register, and a commit writes the slots of its command's column. -/
theorem commandFrameThroughWindow : Obligations.CommandFrameThroughWindow := by
  intro i s t hexec a g hg hst herr hslots
  obtain ⟨hcfg, -, -, -⟩ := exec_keeps hexec
  refine ⟨hcfg ▸ hg, ?_⟩
  rcases exec_shape hexec with ⟨c, rfl⟩ | ⟨e, he, rfl⟩
  · exact readTarget_congr (raise_cfg s c) rfl rfl rfl hst herr fun _ _ _ => rfl
  · refine readTarget_congr (commit_cfg s e) rfl (applyEffect_rounds e s.regs) rfl hst herr fun slot k hlimb => ?_
    exact slotElem_applyEffect (fun hw => hslots slot k hlimb (writesSlot_of_effect he hw)) _ _

/-- Settles O46: the written element is `setLimb` of the old one, and no other slot or flag moves. -/
theorem limbWriteBits : Obligations.LimbWriteBits := by
  intro s a slot k d hc hx hg hro
  refine ⟨fun hb => ?busy, fun hb hk => ?noStorage, fun hb hk => ?written⟩
  case busy => rw [hostAccess_dropped hb hg (fun h => by cases h) d]; rfl
  case noStorage => rw [hostAccess_limb hb hg, writeSlot_of_limbs_le hk]
  case written =>
    have hslot := slotExists_of_busTarget hg
    have ⟨hrc, _⟩ := hx
    obtain ⟨-, -, -, hmv, hrounds⟩ := writeSlot_keeps s.cfg s.regs slot k d
    obtain ⟨hskRc, hskV⟩ := writeSlot_skvalid hk s.regs slot d
    refine ⟨writeSlot s.cfg s.regs slot k d, hostAccess_limb hb hg d, fun n => ?_,
      fun other hne => slotElem_writeSlot_of_ne hrc hslot hne d, hrounds, hmv, hskRc, hskV⟩
    rw [slotElem_writeSlot_self hk hrc hslot hro d, setLimb_testBit]

end Sys2Proof.Proofs
end

