-- ==== Sys2Proof/Proofs/ErrorPriority.lean ====
section
/-! The first error of a command (60_exceptions.md R242, R243): the code that a chain of checks leaves is read off
check by check, and with valid parameters no compute phase fails (41_mds.md R155, 42_sbox.md R172). -/

namespace Sys2Proof.Proofs

open Sys2Proof.Machine Sys2Proof.Laws

/-! ### The code that check and compute phases leave -/

/-- ERRCODE after a completion with this result (R36, R241). -/
def resultCode {α : Type} : Except ErrCode α → BitVec 8
  | .ok _ => okCode
  | .error c => c.code

theorem finish_errcode (s : State) (r : Except ErrCode Effect) : (s.finish r).errcode = resultCode r := by
  cases r <;> rfl

/-- LOCKED comes before every other code (R243, R245). -/
theorem runCommand_errcode (s : State) (body : Params → Regs → Except ErrCode Effect) :
    ∃ t, runCommand s body = .next t ∧
      t.errcode = if s.fatal then 0x09#8 else resultCode (body s.cfg s.operands) := by
  refine ⟨_, rfl, ?_⟩
  rw [finish_errcode]
  split <;> rfl

section Checks

variable {x : Regs}

theorem resultCode_require {α : Type} (ok : Bool) (e : ErrCode) (f : Unit → Except ErrCode α) :
    resultCode (require ok e >>= f) = if ok then resultCode (f ()) else e.code := by
  cases ok <;> rfl

theorem resultCode_needMatrix {α : Type} (f : Unit → Except ErrCode α) :
    resultCode (needMatrix x >>= f) = if !x.mvalid then 0x03#8 else resultCode (f ()) := by
  rw [needMatrix, resultCode_require]
  cases x.mvalid <;> rfl

theorem resultCode_needSubkeys {α : Type} (f : Unit → Except ErrCode α) :
    resultCode (needSubkeys x >>= f) = if !x.skvalid then 0x04#8 else resultCode (f ()) := by
  rw [needSubkeys, resultCode_require]
  cases x.skvalid <;> rfl

theorem resultCode_needRound {α : Type} (lo i : Nat) (f : Unit → Except ErrCode α) :
    resultCode (needRound lo x i >>= f) =
      if !decide (lo ≤ i ∧ i < x.roundCount) then 0x05#8 else resultCode (f ()) := by
  rw [needRound, resultCode_require, Bool.decide_and]
  cases decide (lo ≤ i) && decide (i < x.roundCount) <;> rfl

/-- The index of ADDRC, ADDSK and SUBSK may be 0. -/
theorem resultCode_needIndex {α : Type} (i : Nat) (f : Unit → Except ErrCode α) :
    resultCode (needRound 0 x i >>= f) = if !decide (i < x.roundCount) then 0x05#8 else resultCode (f ()) := by
  rw [resultCode_needRound]
  simp only [Nat.zero_le, true_and]

end Checks

/-! ### Reads of canonical vectors (R121) -/

/-- NONCANONICAL if one of the vectors `vs` has an element not below P, else `rest`. -/
def canonCode (c : Params) (vs : List Vec) (rest : BitVec 8) : BitVec 8 :=
  if ∃ v ∈ vs, ¬ Vec.Below c.p v then 0x02#8 else rest

section Reads

variable {c : Params} {x : Regs}

theorem canonCode_nil (rest : BitVec 8) : canonCode c [] rest = rest := by
  simp [canonCode]

theorem canonCode_cons (v : Vec) (vs : List Vec) (rest : BitVec 8) :
    canonCode c (v :: vs) rest = if Vec.Below c.p v then canonCode c vs rest else 0x02#8 := by
  by_cases h : Vec.Below c.p v
  · have hrest : (∃ w ∈ v :: vs, ¬ Vec.Below c.p w) ↔ ∃ w ∈ vs, ¬ Vec.Below c.p w :=
      (List.exists_mem_cons_iff _ _ _).trans (or_iff_right (not_not_intro h))
    simp only [if_pos h, canonCode, hrest]
  · rw [if_neg h, canonCode, if_pos ⟨v, List.mem_cons_self, h⟩]

/-- One checked read before more phases. -/
theorem resultCode_readCanon {α : Type} {v : Vec} {vs : List Vec} {rest : BitVec 8}
    {f : Vec → Except ErrCode α} (h : Vec.Below c.p v → resultCode (f v) = canonCode c vs rest) :
    resultCode (readCanon c v >>= f) = canonCode c (v :: vs) rest := by
  rw [canonCode_cons]
  rcases readCanon_cases c v with ⟨hv, e⟩ | ⟨hv, e⟩
  · rw [e, ok_bind, h hv, if_pos hv]
  · rw [e, if_neg hv]; rfl

/-- The checked reads of the rows below R before more phases (R192). -/
theorem resultCode_readRcRows {α : Type} {f : List Vec → Except ErrCode α}
    (h : resultCode (f (x.rc.take x.roundCount)) = 0x00#8) :
    resultCode (readRcRows c x >>= f) = canonCode c (x.rc.take x.roundCount) 0x00#8 := by
  by_cases hrows : ∃ v ∈ x.rc.take x.roundCount, ¬ Vec.Below c.p v
  · rw [readRcRows_error hrows, canonCode, if_pos hrows]; rfl
  · rw [canonCode, if_neg hrows]
    push Not at hrows
    rw [readRcRows_ok fun v hv j => hrows v hv j, ok_bind, h]

end Reads

/-! ### Compute phases that cannot fail with valid parameters -/

section Total

variable {c : Params} (hc : c.Valid)
include hc

theorem deriveSubkeys_total (m : Mat) (key : Vec) (rows : List Vec) :
    ∃ sks, deriveSubkeys c m key rows = .ok sks := by
  cases rows with
  | nil => exact ⟨[], rfl⟩
  | cons k rows =>
    have h := deriveSubkeys_ok hc m (k :: rows) key (r := (k :: rows).length) (Nat.le_add_left ..) le_rfl
    rw [List.take_length] at h
    exact ⟨_, h⟩

theorem encRounds_total (m : Mat) : ∀ (sks : List Vec) (i : Nat) (v : Vec), ∃ r, encRounds c m i v sks = .ok r
  | [], _, v => ⟨v, rfl⟩
  | k :: sks, i, v => by
    obtain ⟨r, hr⟩ := encRounds_total m sks (i + 1) (Spec.round c m i v k)
    exact ⟨r, by rw [encRounds, roundStep_ok hc, ok_bind, hr]⟩

theorem encryptWith_total (m : Mat) (v : Vec) (sks : List Vec) : ∃ r, encryptWith c m v sks = .ok r := by
  cases sks with
  | nil => exact ⟨v, rfl⟩
  | cons k sks => exact encRounds_total hc m sks 1 _

theorem decRounds_total (mi : Mat) (sks : List Vec) : ∀ (j : Nat) {v : Vec}, Vec.Below c.p v →
    ∃ r, decRounds c mi sks j v = .ok r
  | 0, v, _ => ⟨v, rfl⟩
  | j + 1, v, hv => by
    rw [decRounds, layerInv_ok hc _ hv, ok_bind]
    exact decRounds_total mi sks j (vsubP_below hc.1.pos _ _)

theorem decryptWith_total (mi : Mat) (sks : List Vec) (v : Vec) : ∃ r, decryptWith c mi sks v = .ok r :=
  decRounds_total hc mi sks _ (vsubP_below hc.1.pos _ _)

/-- A key schedule before more phases that cannot fail. -/
theorem resultCode_scheduleOn {α : Type} {x : Regs} {key : Vec} {f : List Vec → Except ErrCode α}
    (h : ∀ sks, resultCode (f sks) = 0x00#8) :
    resultCode (scheduleOn c x key >>= f) = canonCode c (key :: x.rc.take x.roundCount) 0x00#8 := by
  rw [scheduleOn, bind_assoc]
  refine resultCode_readCanon fun _ => ?_
  rw [bind_assoc]
  refine resultCode_readRcRows ?_
  obtain ⟨sks, hsks⟩ := deriveSubkeys_total hc x.m key (x.rc.take x.roundCount)
  rw [hsks, ok_bind, h]

end Total

/-! ### The phases of the commands -/

section Phases

variable {c : Params} {x : Regs}

theorem resultCode_writeOfOne (rd : VReg) (f : Vec → Vec) (u : Vec) :
    resultCode (writeOfOne c rd f u) = canonCode c [u] 0x00#8 :=
  resultCode_readCanon fun _ => (canonCode_nil _).symm

theorem resultCode_writeOfTwo (rd : VReg) (f : Vec → Vec → Vec) (u v : Vec) :
    resultCode (writeOfTwo c rd f u v) = canonCode c [u, v] 0x00#8 :=
  resultCode_readCanon fun _ => resultCode_readCanon fun _ => (canonCode_nil _).symm

theorem resultCode_isboxOn (hc : c.Valid) (rd : VReg) (u : Vec) :
    resultCode (isboxOn c rd u) = canonCode c [u] 0x00#8 := by
  refine resultCode_readCanon fun hu => ?_
  rw [isboxChecked_ok hc hu, canonCode_nil]; rfl

theorem resultCode_mdsgenOn (hc : c.Valid) (u v : Vec) :
    resultCode (mdsgenOn c u v) = canonCode c [u, v] (if decide (¬ Spec.Cauchy u v) then 0x06#8 else 0x00#8) := by
  refine resultCode_readCanon fun hu => resultCode_readCanon fun hv => ?_
  rw [canonCode_nil]
  by_cases h : Spec.Cauchy u v
  · rw [genMatrices_ok hc hu hv h, decide_eq_false (not_not_intro h)]; rfl
  · rw [genMatrices_error h, decide_eq_true h]; rfl

theorem resultCode_krndBody (hc : c.Valid) (rd rs1 : VReg) (i : Nat) :
    resultCode (krndBody rd rs1 i c x) = canonCode c [x.v[rs1], tableRow x.rc i] 0x00#8 := by
  refine resultCode_readCanon fun _ => resultCode_readCanon fun _ => ?_
  rw [roundStep_ok hc, canonCode_nil]; rfl

/-- ERND and DRND, whose rounds cannot fail. -/
theorem resultCode_checkedSubkeyRound {step : Params → Regs → Nat → Vec → Vec → Except ErrCode Vec}
    {f : Vec → Vec → Vec} {i : Nat} (hstep : ∀ v k, step c x i v k = .ok (f v k)) (rd rs1 : VReg) :
    resultCode (checkedSubkeyRound step rd rs1 i c x) =
      if !x.mvalid then 0x03#8
      else if !x.skvalid then 0x04#8
      else if !decide (1 ≤ i ∧ i < x.roundCount) then 0x05#8
      else canonCode c [x.v[rs1]] 0x00#8 := by
  have hround : resultCode (subkeyRoundBody step rd rs1 i c x) = canonCode c [x.v[rs1]] 0x00#8 := by
    refine resultCode_readCanon fun _ => ?_
    rw [ok_bind, hstep, canonCode_nil]; rfl
  rw [checkedSubkeyRound, afterCheck, resultCode_needMatrix, afterCheck, resultCode_needSubkeys, afterCheck,
    resultCode_needRound, hround]

theorem resultCode_kschedBody (hc : c.Valid) (rs1 : VReg) :
    resultCode (kschedBody rs1 c x) = canonCode c (x.v[rs1] :: x.rc.take x.roundCount) 0x00#8 :=
  resultCode_scheduleOn hc fun _ => rfl

/-- ENC and DEC, whose passes cannot fail. -/
theorem resultCode_checkedCipher {pass : Params → Regs → List Vec → Vec → Except ErrCode Vec} (hc : c.Valid)
    (hpass : ∀ sks v, ∃ r, pass c x sks v = .ok r) (rd rs1 rs2 : VReg) :
    resultCode (checkedCipher pass rd rs1 rs2 c x) =
      if !x.mvalid then 0x03#8
      else canonCode c (x.v[rs1] :: x.v[rs2] :: x.rc.take x.roundCount) 0x00#8 := by
  have hcipher : resultCode (cipherBody pass rd rs1 rs2 c x) =
      canonCode c (x.v[rs1] :: x.v[rs2] :: x.rc.take x.roundCount) 0x00#8 := by
    refine resultCode_readCanon fun _ => resultCode_scheduleOn hc fun sks => ?_
    obtain ⟨r, hr⟩ := hpass sks x.v[rs1]
    rw [hr]; rfl
  rw [checkedCipher, afterCheck, resultCode_needMatrix, hcipher]

end Phases

/-! ### The first error -/

/-- The code of the first of a command's own checks that fails, in the order of R243. -/
def ownErrorCode (i : Instr) (c : Params) (x : Regs) : BitVec 8 :=
  if Spec.needsMatrix i && !x.mvalid then 0x03#8
  else if Spec.needsSubkeys i && !x.skvalid then 0x04#8
  else if !Spec.indexLegal x.roundCount i then 0x05#8
  else canonCode c (Spec.checkedReads x i) (if Spec.collides x i then 0x06#8 else 0x00#8)

theorem firstErrorCode_eq (i : Instr) (s : State) :
    Spec.firstErrorCode i s = if s.fatal then 0x09#8 else ownErrorCode i s.cfg s.operands := rfl

/-- Each command's check and compute phases leave the code of its first failing check. -/
theorem exec_is_ownErrorCode (i : Instr) {s : State} (hc : s.cfg.Valid) :
    ∃ body, exec i s = runCommand s body ∧
      resultCode (body s.cfg s.operands) = ownErrorCode i s.cfg s.operands := by
  cases i with
  | nop => exact ⟨_, exec_nop s, (canonCode_nil (c := s.cfg) _).symm⟩
  | vadd rd rs1 rs2 => exact ⟨_, exec_vadd .., resultCode_writeOfTwo ..⟩
  | vsub rd rs1 rs2 => exact ⟨_, exec_vsub .., resultCode_writeOfTwo ..⟩
  | vmul rd rs1 rs2 => exact ⟨_, exec_vmul .., resultCode_writeOfTwo ..⟩
  | vdot rd rs1 rs2 => exact ⟨_, exec_vdot .., resultCode_writeOfTwo ..⟩
  | vmov rd rs1 => exact ⟨_, exec_vmov .., resultCode_writeOfOne ..⟩
  | sbox rd rs1 => exact ⟨_, exec_sbox .., resultCode_writeOfOne ..⟩
  | isbox rd rs1 => exact ⟨_, exec_isbox .., resultCode_isboxOn hc ..⟩
  | mds rd rs1 =>
    refine ⟨_, exec_mds .., ?_⟩
    rw [matrixBody, resultCode_needMatrix, resultCode_writeOfOne]; rfl
  | imds rd rs1 =>
    refine ⟨_, exec_imds .., ?_⟩
    rw [matrixBody, resultCode_needMatrix, resultCode_writeOfOne]; rfl
  | addrc rd rs1 i =>
    refine ⟨_, exec_addrc .., ?_⟩
    rw [roundConstantBody, resultCode_needIndex, resultCode_writeOfTwo]; rfl
  | addsk rd rs1 i =>
    refine ⟨_, exec_addsk .., ?_⟩
    rw [subkeyBody, resultCode_needSubkeys, resultCode_needIndex, resultCode_writeOfOne]; rfl
  | subsk rd rs1 i =>
    refine ⟨_, exec_subsk .., ?_⟩
    rw [subkeyBody, resultCode_needSubkeys, resultCode_needIndex, resultCode_writeOfOne]; rfl
  | mdsgen rs1 rs2 => exact ⟨_, exec_mdsgen .., resultCode_mdsgenOn hc ..⟩
  | krnd rd rs1 i =>
    refine ⟨_, exec_krnd .., ?_⟩
    rw [afterCheck, resultCode_needMatrix, afterCheck, resultCode_needRound, resultCode_krndBody hc]; rfl
  | ernd rd rs1 i =>
    refine ⟨_, exec_ernd .., ?_⟩
    rw [resultCode_checkedSubkeyRound fun v k => roundStep_ok hc _ i v k]; rfl
  | drnd rd rs1 i =>
    refine ⟨_, exec_drnd .., ?_⟩
    rw [resultCode_checkedSubkeyRound fun v k => unroundStep_ok hc _ i v k]; rfl
  | ksched rs1 =>
    refine ⟨_, exec_ksched .., ?_⟩
    rw [afterCheck, resultCode_needMatrix, resultCode_kschedBody hc]; rfl
  | enc rd rs1 rs2 =>
    refine ⟨_, exec_enc .., ?_⟩
    rw [resultCode_checkedCipher hc fun sks v => encryptWith_total hc s.operands.m v sks]; rfl
  | dec rd rs1 rs2 =>
    refine ⟨_, exec_dec .., ?_⟩
    rw [resultCode_checkedCipher hc fun sks v => decryptWith_total hc s.operands.mi sks v]; rfl

/-- Settles O30: the checks run in the order of R243, and nothing after them fails. -/
theorem firstErrorByPriority : Obligations.FirstErrorByPriority := by
  intro i s hc
  obtain ⟨body, hbody, hcode⟩ := exec_is_ownErrorCode i hc
  obtain ⟨t, ht, herr⟩ := runCommand_errcode s body
  exact ⟨t, hbody.trans ht, by rw [herr, hcode, firstErrorCode_eq]⟩

end Sys2Proof.Proofs
end

