-- ==== Sys2Proof/Proofs/CipherEquivalences.lean ====
section
/-! The cipher as a whole (43_keysched_round.md R197, R200): DEC undoes ENC, and the schedule, ENC and DEC are
the same as their single rounds run one after the other. -/

namespace Sys2Proof.Proofs

open Sys2Proof.Machine Sys2Proof.Laws

/-! ### Commands on a block that is ready for the cipher -/

/-- Valid parameters, no lock, the committed registers as operands, valid matrices, and R full canonical rows of
round constants: nothing but an operand vector can fail a command of the cipher. -/
structure Ready (s : State) : Prop where
  params : s.cfg.Valid
  fatal : s.fatal = false
  operands : s.operands = s.regs
  mvalid : s.regs.mvalid = true
  tables : Spec.TablesFull s.cfg s.regs
  rows : Spec.RowsCanonical s.cfg s.regs

theorem ready_of_storeOk {s : State} (hs : Spec.StoreOk s) (hfatal : s.fatal = false)
    (hmv : s.regs.mvalid = true) (hrows : Spec.RowsCanonical s.cfg s.regs) : Ready s where
  params := hs.params
  fatal := hfatal
  operands := operands_eq_regs hs
  mvalid := hmv
  tables := operands_eq_regs hs ▸ tablesFull_of_storeOk hs
  rows := hrows

/-- A success that keeps RC, ROUNDS and MVALID leaves the block ready. -/
theorem Ready.completed {s : State} (hs : Ready s) {x : Regs} (hrc : x.rc = s.regs.rc)
    (hrounds : x.rounds = s.regs.rounds) (hmv : x.mvalid = s.regs.mvalid) : Ready (Spec.completed s x) where
  params := hs.params
  fatal := hs.fatal
  operands := rfl
  mvalid := hmv.trans hs.mvalid
  tables := by
    simpa only [Spec.TablesFull, completed_cfg, completed_regs, Regs.roundCount, hrounds, hrc] using hs.tables
  rows := by
    simpa only [Spec.RowsCanonical, completed_cfg, completed_regs, Regs.roundCount, hrounds, hrc] using hs.rows

section Commands

variable {s : State} {rd rs1 rs2 : VReg} {i : Nat}

theorem Ready.exec_ksched (hs : Ready s) (hkey : Vec.Below s.cfg.p s.regs.v[rs1]) :
    exec (.ksched rs1) s = .next (Spec.completed s
      (s.regs.setSubkeys (Spec.subkeyTable s.cfg s.regs s.regs.v[rs1]))) := by
  obtain ⟨-, hrule⟩ := kschedRule rs1
  obtain ⟨-, hrule⟩ := hrule s hs.fatal
  rw [hs.operands] at hrule
  obtain ⟨-, hrule⟩ := hrule hs.mvalid hs.tables
  exact hrule hs.params hkey hs.rows

theorem Ready.exec_enc (hs : Ready s) (hpt : Vec.Below s.cfg.p s.regs.v[rs1])
    (hkey : Vec.Below s.cfg.p s.regs.v[rs2]) :
    exec (.enc rd rs1 rs2) s = .next (Spec.completed s
      ((s.regs.setV rd (Spec.encrypt s.cfg s.regs s.regs.v[rs1] s.regs.v[rs2])).setSubkeys
        (Spec.subkeyTable s.cfg s.regs s.regs.v[rs2]))) := by
  obtain ⟨-, hrule⟩ := encRule rd rs1 rs2
  obtain ⟨-, hrule⟩ := hrule s hs.fatal
  rw [hs.operands] at hrule
  obtain ⟨-, hrule⟩ := hrule hs.mvalid hs.tables
  exact hrule hs.params hpt hkey hs.rows

theorem Ready.exec_dec (hs : Ready s) (hct : Vec.Below s.cfg.p s.regs.v[rs1])
    (hkey : Vec.Below s.cfg.p s.regs.v[rs2]) :
    exec (.dec rd rs1 rs2) s = .next (Spec.completed s
      ((s.regs.setV rd (Spec.decrypt s.cfg s.regs s.regs.v[rs1] s.regs.v[rs2])).setSubkeys
        (Spec.subkeyTable s.cfg s.regs s.regs.v[rs2]))) := by
  obtain ⟨-, hrule⟩ := decRule rd rs1 rs2
  obtain ⟨-, hrule⟩ := hrule s hs.fatal
  rw [hs.operands] at hrule
  obtain ⟨-, hrule⟩ := hrule hs.mvalid hs.tables
  exact hrule hs.params hct hkey hs.rows

theorem Ready.exec_addrc (hs : Ready s) (hi : i < s.regs.roundCount) (hv : Vec.Below s.cfg.p s.regs.v[rs1]) :
    exec (.addrc rd rs1 i) s = .next (Spec.completed s
      (s.regs.setV rd (Spec.add s.cfg.p s.regs.v[rs1] (tableRow s.regs.rc i)))) := by
  obtain ⟨-, hrule⟩ := addrcRule rd rs1 i
  obtain ⟨-, hrule⟩ := hrule s hs.fatal
  rw [hs.operands] at hrule
  obtain ⟨hrule, -⟩ := hrule hi
  exact hrule hv (hs.rows i hi)

theorem Ready.exec_krnd (hs : Ready s) (hlo : 1 ≤ i) (hi : i < s.regs.roundCount)
    (hv : Vec.Below s.cfg.p s.regs.v[rs1]) :
    exec (.krnd rd rs1 i) s = .next (Spec.completed s
      (s.regs.setV rd (Spec.round s.cfg s.regs.m i s.regs.v[rs1] (tableRow s.regs.rc i)))) := by
  obtain ⟨-, hrule⟩ := krndRule rd rs1 i
  obtain ⟨-, hrule⟩ := hrule s hs.fatal
  rw [hs.operands] at hrule
  obtain ⟨-, hrule⟩ := hrule hs.mvalid
  obtain ⟨-, hrule⟩ := hrule hlo hi
  exact hrule hs.params hv (hs.rows i hi)

theorem Ready.exec_addsk (hs : Ready s) (hskv : s.regs.skvalid = true) (hi : i < s.regs.roundCount)
    (hv : Vec.Below s.cfg.p s.regs.v[rs1]) :
    exec (.addsk rd rs1 i) s = .next (Spec.completed s
      (s.regs.setV rd (Spec.add s.cfg.p s.regs.v[rs1] (tableRow s.regs.sk i)))) := by
  obtain ⟨-, hrule⟩ := addskRule rd rs1 i
  obtain ⟨-, hrule⟩ := hrule s hs.fatal
  rw [hs.operands] at hrule
  obtain ⟨-, hrule⟩ := hrule hskv
  obtain ⟨hrule, -⟩ := hrule hi
  exact hrule hv

theorem Ready.exec_subsk (hs : Ready s) (hskv : s.regs.skvalid = true) (hi : i < s.regs.roundCount)
    (hv : Vec.Below s.cfg.p s.regs.v[rs1]) :
    exec (.subsk rd rs1 i) s = .next (Spec.completed s
      (s.regs.setV rd (Spec.sub s.cfg.p s.regs.v[rs1] (tableRow s.regs.sk i)))) := by
  obtain ⟨-, -, hrule⟩ := subskRule rd rs1 i
  obtain ⟨-, hrule⟩ := hrule s hs.fatal
  rw [hs.operands] at hrule
  obtain ⟨-, hrule⟩ := hrule hskv
  obtain ⟨hrule, -⟩ := hrule hi
  exact hrule hv

theorem Ready.exec_ernd (hs : Ready s) (hskv : s.regs.skvalid = true) (hlo : 1 ≤ i)
    (hi : i < s.regs.roundCount) (hv : Vec.Below s.cfg.p s.regs.v[rs1]) :
    exec (.ernd rd rs1 i) s = .next (Spec.completed s
      (s.regs.setV rd (Spec.round s.cfg s.regs.m i s.regs.v[rs1] (tableRow s.regs.sk i)))) := by
  obtain ⟨-, hrule⟩ := erndRule rd rs1 i
  obtain ⟨-, hrule⟩ := hrule s hs.fatal
  rw [hs.operands] at hrule
  obtain ⟨-, -, hrule⟩ := hrule hs.mvalid
  obtain ⟨-, hrule⟩ := hrule hskv hlo hi
  exact hrule hs.params hv

theorem Ready.exec_drnd (hs : Ready s) (hskv : s.regs.skvalid = true) (hlo : 1 ≤ i)
    (hi : i < s.regs.roundCount) (hv : Vec.Below s.cfg.p s.regs.v[rs1]) :
    exec (.drnd rd rs1 i) s = .next (Spec.completed s
      (s.regs.setV rd (Spec.unround s.cfg s.regs.mi i s.regs.v[rs1] (tableRow s.regs.sk i)))) := by
  obtain ⟨-, hrule⟩ := drndRule
  obtain ⟨-, hrule⟩ := hrule rd rs1 i
  obtain ⟨-, hrule⟩ := hrule s hs.fatal
  rw [hs.operands] at hrule
  obtain ⟨-, -, hrule⟩ := hrule hs.mvalid
  obtain ⟨-, hrule⟩ := hrule hskv hlo hi
  exact hrule hs.params hv

end Commands

/-! ### Sequences of commands -/

theorem runAll_cons {i : Instr} {s t : State} (h : exec i s = .next t) (is : List Instr) :
    Spec.runAll (i :: is) s = Spec.runAll is t := by
  rw [Spec.runAll, h]

@[simp] theorem setV_setV (x : Regs) (rd : VReg) (u v : Vec) : (x.setV rd u).setV rd v = x.setV rd v := by
  simp [Regs.setV]

/-- Only the last of two completions shows. -/
@[simp] theorem completed_completed (s : State) (x y : Regs) :
    Spec.completed (Spec.completed s x) y = Spec.completed s y := rfl

/-- `s` after a command that has written `V[rd] <- v`. -/
def wrote (s : State) (rd : VReg) (v : Vec) : State := Spec.completed s (s.regs.setV rd v)

theorem Ready.wrote {s : State} (hs : Ready s) (rd : VReg) (v : Vec) : Ready (wrote s rd v) :=
  hs.completed rfl rfl rfl

@[simp] theorem wrote_v (s : State) (rd : VReg) (v : Vec) : (wrote s rd v).regs.v[rd] = v :=
  getElem_setV_self ..

@[simp] theorem wrote_wrote (s : State) (rd : VReg) (u v : Vec) : wrote (wrote s rd u) rd v = wrote s rd v := by
  rw [wrote, wrote, wrote, completed_completed, completed_regs, setV_setV]

/-- Commands `g (i+1)` to `g (i+n)` that each take `V[rd]` from one value of a sequence to the next. -/
theorem runAll_rounds {s : State} {rd : VReg} {g : Nat → Instr} {value : Nat → Vec} {r : Nat}
    (h : ∀ l, l + 1 < r → exec (g (l + 1)) (wrote s rd (value l)) = .next (wrote s rd (value (l + 1)))) :
    ∀ n i, i + n < r →
      Spec.runAll ((List.range' (i + 1) n).map g) (wrote s rd (value i)) = some (wrote s rd (value (i + n)))
  | 0, _, _ => rfl
  | n + 1, i, hn => by
    rw [List.range'_succ, List.map_cons, runAll_cons (h i (by omega)), runAll_rounds h n (i + 1) (by omega)]
    congr 3
    omega

/-- Row `i` of a derived table is subkey `i` (R199). -/
theorem tableRow_subkeyTable {c : Params} {x : Regs} {i : Nat} (hi : i < x.roundCount)
    (hmax : x.roundCount ≤ c.rmax) (key : Vec) :
    tableRow (Spec.subkeyTable c x key) i = Spec.subkey c x.m x.rc key i := by
  have hlt : i < c.rmax := by omega
  simp [tableRow, Spec.subkeyTable, hlt, hi]

/-- `s` after KSCHED of the key. -/
def scheduled (s : State) (key : Vec) : State :=
  Spec.completed s (s.regs.setSubkeys (Spec.subkeyTable s.cfg s.regs key))

/-- KSCHED leaves the block ready, with the key's subkeys in the rows below R. -/
theorem Ready.scheduled {s : State} (hs : Ready s) (key : Vec) : Ready (scheduled s key) ∧
    ∀ i, i < (scheduled s key).regs.roundCount →
      tableRow (scheduled s key).regs.sk i = Spec.subkey s.cfg s.regs.m s.regs.rc key i := by
  have ⟨_, hmax, _⟩ := hs.tables
  exact ⟨hs.completed rfl rfl rfl, fun i hi => tableRow_subkeyTable (x := s.regs) hi hmax key⟩

/-! ### ENC as single rounds (R200) -/

/-- The single rounds of ENC under the subkeys `sk` that are in SK. -/
theorem runAll_erndSteps {s : State} (hs : Ready s) (hskv : s.regs.skvalid = true) {sk : Nat → Vec}
    (hsk : ∀ i, i < s.regs.roundCount → tableRow s.regs.sk i = sk i) {rd rs1 : VReg}
    (hpt : Vec.Below s.cfg.p s.regs.v[rs1]) :
    Spec.runAll (.addsk rd rs1 0 :: (List.range' 1 (s.regs.roundCount - 1)).map fun i => .ernd rd rd i) s =
      some (wrote s rd (Spec.encState s.cfg s.regs.m sk s.regs.v[rs1] (s.regs.roundCount - 1))) := by
  have ⟨hpos, _, _⟩ := hs.tables
  have hfirst := hs.exec_addsk (rd := rd) hskv hpos hpt
  rw [hsk 0 hpos] at hfirst
  have hround (l : Nat) (hl : l + 1 < s.regs.roundCount) :
      exec (.ernd rd rd (l + 1)) (wrote s rd (Spec.encState s.cfg s.regs.m sk s.regs.v[rs1] l)) =
        .next (wrote s rd (Spec.encState s.cfg s.regs.m sk s.regs.v[rs1] (l + 1))) := by
    have hv := encState_below hs.params.1.pos s.regs.m sk s.regs.v[rs1] l
    have h := (hs.wrote rd (Spec.encState s.cfg s.regs.m sk s.regs.v[rs1] l)).exec_ernd (rd := rd) (rs1 := rd)
      hskv (Nat.le_add_left 1 l) hl (by rw [wrote_v]; exact hv)
    rw [wrote_v] at h
    change _ = Host.Outcome.next (wrote (wrote s rd _) rd _) at h
    rw [wrote_wrote, show (wrote s rd _).regs.sk = s.regs.sk from rfl, hsk _ hl] at h
    exact h
  have hrun := runAll_rounds hround (s.regs.roundCount - 1) 0 (by omega)
  simp only [Nat.zero_add] at hrun
  rw [runAll_cons hfirst]
  exact hrun

/-! ### DEC as single rounds (R200) -/

/-- What DRND #j down to DRND #1 and SUBSK #0 leave of a vector (R194, R133). -/
def unroundAll (c : Params) (mi : Mat) (sk : Nat → Vec) : Nat → Vec → Vec
  | 0, v => Spec.sub c.p v (sk 0)
  | j + 1, v => unroundAll c mi sk j (Spec.unround c mi (j + 1) v (sk (j + 1)))

theorem unround_below {c : Params} (hp : 0 < c.p) (mi : Mat) (i : Nat) (v k : Vec) :
    Vec.Below c.p (Spec.unround c mi i v k) := by
  rw [Spec.unround, ← matvec_eq]
  exact matvec_below hp _ _

/-- The rounds of R196 subtract the subkey after MI, those of R200 before the S-box. -/
theorem unroundAll_eq_decState (c : Params) (mi : Mat) (sk : Nat → Vec) (r : Nat) (ct : Vec) :
    ∀ (j t : Nat) (v : Vec), t + j = r - 1 → Spec.sub c.p v (sk j) = Spec.decState c mi sk r ct t →
      unroundAll c mi sk j v = Spec.decState c mi sk r ct (r - 1)
  | 0, t, v, ht, hv => by
    obtain rfl : t = r - 1 := ht
    exact hv
  | j + 1, t, v, ht, hv => by
    refine unroundAll_eq_decState c mi sk r ct j (t + 1) _ (by omega) ?_
    rw [Spec.decState, ← hv, Spec.unround, show r - (t + 1) = j + 1 by omega, show r - 1 - (t + 1) = j by omega]

/-- The single rounds of DEC under the subkeys `sk` that are in SK. -/
theorem runAll_drndSteps {rd : VReg} {sk : Nat → Vec} : ∀ (j : Nat) {s : State} {src : VReg}, Ready s →
    s.regs.skvalid = true → (∀ i, i < s.regs.roundCount → tableRow s.regs.sk i = sk i) →
    j < s.regs.roundCount → Vec.Below s.cfg.p s.regs.v[src] →
    Spec.runAll (Spec.drndSteps rd src j) s =
      some (wrote s rd (unroundAll s.cfg s.regs.mi sk j s.regs.v[src]))
  | 0, s, src, hs, hskv, hsk, hj, hv => by
    have hlast := hs.exec_subsk (rd := rd) hskv hj hv
    rw [hsk 0 hj] at hlast
    rw [Spec.drndSteps, runAll_cons hlast]
    rfl
  | j + 1, s, src, hs, hskv, hsk, hj, hv => by
    have hround := hs.exec_drnd (rd := rd) hskv (Nat.le_add_left 1 j) hj hv
    rw [hsk _ hj] at hround
    have hbelow := unround_below hs.params.1.pos s.regs.mi (j + 1) s.regs.v[src] (sk (j + 1))
    have hrest := runAll_drndSteps (rd := rd) j (src := rd)
      (hs.wrote rd (Spec.unround s.cfg s.regs.mi (j + 1) s.regs.v[src] (sk (j + 1)))) hskv hsk
      (Nat.lt_of_succ_lt hj) (by rw [wrote_v]; exact hbelow)
    rw [wrote_v, wrote_wrote] at hrest
    rw [Spec.drndSteps, runAll_cons hround]
    exact hrest

/-! ### Subkeys as single rounds (R200) -/

theorem runAll_krndSteps {s : State} (hs : Ready s) {rd rs1 : VReg} {i : Nat} (hi : i < s.regs.roundCount)
    (hkey : Vec.Below s.cfg.p s.regs.v[rs1]) :
    Spec.runAll (Spec.subkeySteps rd rs1 i) s =
      some (wrote s rd (Spec.subkey s.cfg s.regs.m s.regs.rc s.regs.v[rs1] i)) := by
  have ⟨hpos, _, _⟩ := hs.tables
  have hround (l : Nat) (hl : l + 1 < s.regs.roundCount) :
      exec (.krnd rd rd (l + 1)) (wrote s rd (Spec.subkey s.cfg s.regs.m s.regs.rc s.regs.v[rs1] l)) =
        .next (wrote s rd (Spec.subkey s.cfg s.regs.m s.regs.rc s.regs.v[rs1] (l + 1))) := by
    have hv := subkey_below hs.params.1.pos s.regs.m s.regs.rc s.regs.v[rs1] l
    have h := (hs.wrote rd (Spec.subkey s.cfg s.regs.m s.regs.rc s.regs.v[rs1] l)).exec_krnd (rd := rd)
      (rs1 := rd) (Nat.le_add_left 1 l) hl (by rw [wrote_v]; exact hv)
    rw [wrote_v] at h
    change _ = Host.Outcome.next (wrote (wrote s rd _) rd _) at h
    rw [wrote_wrote] at h
    exact h
  have hrun := runAll_rounds hround i 0 (by omega)
  simp only [Nat.zero_add] at hrun
  rw [Spec.subkeySteps, runAll_cons (hs.exec_addrc hpos hkey)]
  exact hrun

/-! ### DEC undoes ENC (R197) -/

/-- After iteration t, decryption holds the state of encryption after round R - 1 - t, less its subkey. -/
theorem decState_encState {c : Params} (hc : c.Valid) {m mi : Mat}
    (hinv : ∀ v, Vec.Below c.p v → Spec.matvec c.p mi (Spec.matvec c.p m v) = v) (sk : Nat → Vec) (pt : Vec)
    (r : Nat) : ∀ t, t ≤ r - 1 →
      Spec.decState c mi sk r (Spec.encState c m sk pt (r - 1)) t =
        Spec.sub c.p (Spec.encState c m sk pt (r - 1 - t)) (sk (r - 1 - t))
  | 0, _ => rfl
  | t + 1, ht => by
    obtain ⟨j, hj⟩ : ∃ j, r - 1 - t = j + 1 := ⟨r - 1 - (t + 1), by omega⟩
    have hmatvec : Vec.Below c.p (Spec.matvec c.p m (Spec.encState c m sk pt j)) := by
      rw [← matvec_eq]
      exact matvec_below hc.1.pos _ _
    rw [Spec.decState, decState_encState hc hinv sk pt r t (by omega), hj,
      show r - (t + 1) = j + 1 by omega, show r - 1 - (t + 1) = j by omega]
    rw [Spec.encState, Spec.round, sub_add (layer_below hc.1.pos _ _), layerInv_layer hc _ hmatvec,
      hinv _ (encState_below hc.1.pos _ _ _ _)]

theorem decrypt_encrypt {c : Params} (hc : c.Valid) {x : Regs}
    (hinv : ∀ v, Vec.Below c.p v → Spec.matvec c.p x.mi (Spec.matvec c.p x.m v) = v) {pt : Vec}
    (hpt : Vec.Below c.p pt) (key : Vec) : Spec.decrypt c x (Spec.encrypt c x pt key) key = pt := by
  rw [Spec.decrypt, Spec.encrypt, decState_encState hc hinv _ _ _ _ le_rfl, Nat.sub_self]
  exact sub_add hpt _

/-! ### The statements -/

/-- Settles O53: ENC leaves M, MI, RC and ROUNDS as they were, so DEC derives the same subkeys and undoes the
rounds one by one. -/
theorem decUndoesEnc : Obligations.DecUndoesEnc := by
  intro s rd rs1 rs2 hstore hmatrix hfatal hmv hpt hkey hrows
  have hs := ready_of_storeOk hstore hfatal hmv hrows
  refine ⟨_, hs.exec_enc hpt hkey, rfl, fun rd' k hk => ?_⟩
  have ht := hs.completed (x := (s.regs.setV rd (Spec.encrypt s.cfg s.regs s.regs.v[rs1] s.regs.v[rs2])).setSubkeys
    (Spec.subkeyTable s.cfg s.regs s.regs.v[rs2])) rfl rfl rfl
  have hct : Vec.Below s.cfg.p (Spec.encrypt s.cfg s.regs s.regs.v[rs1] s.regs.v[rs2]) :=
    encState_below hs.params.1.pos _ _ _ _
  refine ⟨_, ht.exec_dec (rs1 := rd) ?canonicalCiphertext ?canonicalKey, rfl, ?plaintext⟩
  case canonicalCiphertext => simpa using hct
  case canonicalKey => rw [hk]; exact hkey
  case plaintext =>
    obtain ⟨hinv, -⟩ := hmatrix hmv
    rw [hk]
    simp only [completed_regs, completed_cfg, setSubkeys_v, getElem_setV_self]
    exact decrypt_encrypt hs.params (fun v hv => (hinv v hv).2) hpt _

/-- Settles O54: after KSCHED the subkeys that ENC derives are in SK, and the rounds are the same. -/
theorem encIsSingleRounds : Obligations.EncIsSingleRounds := by
  intro s rd rs1 rs2 hstore hfatal hmv hpt hkey hrows
  have hs := ready_of_storeOk hstore hfatal hmv hrows
  obtain ⟨hready, hsk⟩ := hs.scheduled s.regs.v[rs2]
  refine ⟨_, hs.exec_enc hpt hkey, rfl, ?_⟩
  rw [Spec.encSteps, runAll_cons (hs.exec_ksched hkey)]
  exact runAll_erndSteps hready rfl hsk hpt

/-- Settles O55: after KSCHED the subkeys that DEC derives are in SK, and the rounds subtract them in another
order of the same steps. -/
theorem decIsSingleRounds : Obligations.DecIsSingleRounds := by
  intro s rd rs1 rs2 hstore hfatal hmv hct hkey hrows
  have hs := ready_of_storeOk hstore hfatal hmv hrows
  have ⟨hpos, _, _⟩ := hs.tables
  obtain ⟨hready, hsk⟩ := hs.scheduled s.regs.v[rs2]
  refine ⟨_, hs.exec_dec hct hkey, rfl, ?_⟩
  rw [Spec.decSteps, runAll_cons (hs.exec_ksched hkey)]
  have hrun := runAll_drndSteps (rd := rd) (s.regs.roundCount - 1) (src := rs1) hready rfl hsk
    (Nat.sub_lt hpos Nat.one_pos) hct
  rw [unroundAll_eq_decState _ _ _ s.regs.roundCount _ _ 0 _ (Nat.zero_add _) rfl] at hrun
  exact hrun

/-- Settles O56: the rows of the table are the values that the single rounds go through. -/
theorem subkeyIsSingleRounds : Obligations.SubkeyIsSingleRounds := by
  intro s rd rs1 i hstore hfatal hmv hkey hrows hi
  have hs := ready_of_storeOk hstore hfatal hmv hrows
  have ⟨_, hmax, _⟩ := hs.tables
  refine ⟨_, _, hs.exec_ksched hkey, rfl, runAll_krndSteps hs hi hkey, rfl, ?_⟩
  rw [wrote_v]
  exact (tableRow_subkeyTable hi hmax _).symm

end Sys2Proof.Proofs
end

