-- ==== Sys2Proof/Proofs/CipherDependencies.lean ====
section
/-! What the key schedule, ENC and DEC depend on (43_keysched_round.md R198): their phases use MVALID, M or MI,
the rows RC[0] to RC[R-1], the key and the input vector, and the destination register only names what is
written. -/

namespace Sys2Proof.Proofs

open Sys2Proof.Machine Sys2Proof.Laws

/-! ### Phases as functions of what they read -/

/-- The subkeys and the result of a pass of the cipher over raw vectors, behind the check of MVALID. -/
def cipherResult (pass : Params → Regs → List Vec → Vec → Except ErrCode Vec) (c : Params) (x : Regs)
    (input key : Vec) : Except ErrCode (Vec × List Vec) := do
  needMatrix x
  let u ← readCanon c input
  let sks ← scheduleOn c x key
  let r ← pass c x sks u
  return (r, sks)

/-- The subkeys of a raw key, behind the check of MVALID. -/
def scheduleResult (c : Params) (x : Regs) (key : Vec) : Except ErrCode (List Vec) := do
  needMatrix x
  scheduleOn c x key

theorem checkedKsched_eq (rs1 : VReg) (c : Params) (x : Regs) :
    afterCheck needMatrix (kschedBody rs1) c x =
      scheduleResult c x x.v[rs1] >>= fun sks => .ok (.writeSubkeys (padSubkeys c sks)) := by
  simp only [afterCheck, kschedBody, scheduleResult, bind_assoc, pure_ok]

theorem checkedCipher_eq (pass : Params → Regs → List Vec → Vec → Except ErrCode Vec) (rd rs1 rs2 : VReg)
    (c : Params) (x : Regs) :
    checkedCipher pass rd rs1 rs2 c x =
      cipherResult pass c x x.v[rs1] x.v[rs2] >>= fun p => .ok (.writeBoth rd p.1 (padSubkeys c p.2)) := by
  simp only [checkedCipher, afterCheck, cipherBody, cipherResult, bind_assoc, pure_ok, ok_bind]

/-! ### Equal reads give equal results -/

/-- Two operand states agree on MVALID, M, MI and the rows of RC below R. -/
structure SameSchedule (x y : Regs) : Prop where
  mvalid : x.mvalid = y.mvalid
  m : x.m = y.m
  mi : x.mi = y.mi
  rows : x.rc.take x.roundCount = y.rc.take y.roundCount

section Same

variable {x y : Regs} (h : SameSchedule x y) (c : Params)
include h

theorem SameSchedule.scheduleOn (key : Vec) : scheduleOn c x key = scheduleOn c y key := by
  simp only [Proofs.scheduleOn, readRcRows, h.rows, h.m]

theorem SameSchedule.scheduleResult (key : Vec) : scheduleResult c x key = scheduleResult c y key := by
  rw [Proofs.scheduleResult, Proofs.scheduleResult, needMatrix, needMatrix, h.mvalid, h.scheduleOn]

theorem SameSchedule.cipherResult {pass : Params → Regs → List Vec → Vec → Except ErrCode Vec}
    (hpass : ∀ sks v, pass c x sks v = pass c y sks v) (input key : Vec) :
    cipherResult pass c x input key = cipherResult pass c y input key := by
  simp only [Proofs.cipherResult, needMatrix, h.mvalid, h.scheduleOn, hpass]

end Same

/-! ### Completions with equal results -/

/-- Two commands whose phases end in the same result, up to the effects made of it, answer the same ERRCODE;
where that is 0, both have committed their effect of one value. -/
theorem completions_agree {α : Type} {s s' t t' : State} {body body' : Params → Regs → Except ErrCode Effect}
    {result : Except ErrCode α} {effect effect' : α → Effect} (hfatal : s.fatal = s'.fatal)
    (hbody : body s.cfg s.operands = result >>= fun a => .ok (effect a))
    (hbody' : body' s'.cfg s'.operands = result >>= fun a => .ok (effect' a))
    (ht : runCommand s body = .next t) (ht' : runCommand s' body' = .next t') :
    t.errcode = t'.errcode ∧ (t.errcode = 0x00#8 →
      ∃ a, t.regs = applyEffect (effect a) s.regs ∧ t'.regs = applyEffect (effect' a) s'.regs) := by
  obtain rfl := Host.Outcome.next.inj ht
  obtain rfl := Host.Outcome.next.inj ht'
  rw [hbody, hbody', ← hfatal]
  cases s.fatal with
  | true => exact ⟨rfl, fun h => absurd h (code_ne_zero .locked)⟩
  | false =>
    cases result with
    | error e => exact ⟨rfl, fun h => absurd h (code_ne_zero e)⟩
    | ok a => exact ⟨rfl, fun _ => ⟨a, rfl, rfl⟩⟩

/-- ENC and DEC, whose effect writes the result to `V[rd]` and the subkeys to SK. -/
theorem cipher_completions_agree {s s' t t' : State}
    {pass : Params → Regs → List Vec → Vec → Except ErrCode Vec} (hcfg : s.cfg = s'.cfg)
    (hfatal : s.fatal = s'.fatal) (hsame : SameSchedule s.operands s'.operands)
    (hpass : ∀ sks v, pass s'.cfg s.operands sks v = pass s'.cfg s'.operands sks v)
    {rd rs k rd' rs' k' : VReg} (hkey : s.operands.v[k] = s'.operands.v[k'])
    (hinput : s.operands.v[rs] = s'.operands.v[rs'])
    (ht : runCommand s (checkedCipher pass rd rs k) = .next t)
    (ht' : runCommand s' (checkedCipher pass rd' rs' k') = .next t') :
    t.errcode = t'.errcode ∧ (t.errcode = 0x00#8 →
      t.regs.sk = t'.regs.sk ∧ t.regs.v[rd] = t'.regs.v[rd']) := by
  have hbody : checkedCipher pass rd rs k s.cfg s.operands =
      cipherResult pass s'.cfg s'.operands s'.operands.v[rs'] s'.operands.v[k'] >>=
        fun p => .ok (.writeBoth rd p.1 (padSubkeys s'.cfg p.2)) := by
    rw [checkedCipher_eq, hcfg, hkey, hinput, hsame.cipherResult _ hpass]
  obtain ⟨herr, hregs⟩ := completions_agree hfatal hbody (checkedCipher_eq pass rd' rs' k' _ _) ht ht'
  refine ⟨herr, fun h0 => ?_⟩
  obtain ⟨p, hp, hp'⟩ := hregs h0
  rw [hp, hp']
  exact ⟨rfl, by simp only [applyEffect, setSubkeys_v, getElem_setV_self]⟩

/-- Settles O57: the phases read nothing else of the two states. -/
theorem scheduleDependsOnParametersAndKey : Obligations.ScheduleDependsOnParametersAndKey := by
  intro s s' hcfg hfatal hmv hm hmi _ hrows
  have hsame : SameSchedule s.operands s'.operands := ⟨hmv, hm, hmi, hrows⟩
  refine ⟨fun k k' t t' hkey ht ht' => ?schedule, fun rd rs k rd' rs' k' t t' hkey hinput =>
    ⟨fun ht ht' => ?encryption, fun ht ht' => ?decryption⟩⟩
  case schedule =>
    rw [exec_ksched] at ht ht'
    have hbody : afterCheck needMatrix (kschedBody k) s.cfg s.operands =
        scheduleResult s'.cfg s'.operands s'.operands.v[k'] >>=
          fun sks => .ok (.writeSubkeys (padSubkeys s'.cfg sks)) := by
      rw [checkedKsched_eq, hcfg, hkey, hsame.scheduleResult]
    obtain ⟨herr, hregs⟩ := completions_agree hfatal hbody (checkedKsched_eq k' _ _) ht ht'
    refine ⟨herr, fun h0 => ?_⟩
    obtain ⟨sks, hp, hp'⟩ := hregs h0
    rw [hp, hp']
    rfl
  case encryption =>
    rw [exec_enc] at ht ht'
    exact cipher_completions_agree hcfg hfatal hsame (fun sks v => by rw [hm]) hkey hinput ht ht'
  case decryption =>
    rw [exec_dec] at ht ht'
    exact cipher_completions_agree hcfg hfatal hsame (fun sks v => by rw [hmi]) hkey hinput ht ht'

end Sys2Proof.Proofs
end
